-- ==== Sys2Proof/Word.lean ====
section
/-!
DEFINITION. The word types of the block (spec 00_scope.md R8, R11): 32-bit words and addresses, 8-bit bytes,
4-bit register numbers. Bit 0 is the least significant bit; `+`, `-`, `*` on words wrap modulo 2^32 (R11).
-/

namespace Sys2Proof

/-- A 32-bit register, address or instruction word (R8, R21, R100). -/
abbrev Word := BitVec 32

/-- The smallest addressable unit (R8, R86). -/
abbrev Byte := BitVec 8

/-- A register-operand field: 4 bits, naming any of R0 to R15 of the current view (R28). -/
abbrev Reg := BitVec 4

end Sys2Proof
end

