-- ==== Sys2Proof/Config.lean ====
section
/-!
DEFINITION. What the block's surroundings fix or leave open: the vocabulary in which out-of-scope agents act on
the block (Regions, facade calls, oracle answers; spec 20_memory.md R64 to R66, R77, 49_scheduler.md R333 to
R337), the reset platform's Regions (R78; log entry 4), and the FREE VALUES, which are opaque constants: nothing
in Lean can prove what they are, so a theorem about the model holds whatever they are.
-/

namespace Sys2Proof

/-- The kinds of Region of R65: buffer-backed (RAM), its `NoWrite` (ROM) and `NoRead` variants, and the
delegate-backed Region of a Device, which has no state in this block. -/
inductive RegionKind
  | ram
  | noWrite
  | noRead
  | device (id : Nat)
  deriving DecidableEq, Repr

/-- A contiguous address-space extent (R64). The buffer of a buffer-backed Region stands in State's memory, at
the Region's addresses. -/
structure Region where
  base : Nat
  size : Nat
  kind : RegionKind
  deriving DecidableEq, Repr

/-- An image that pre-seeds a buffer: `bytes[k]` goes to buffer offset `offset + k` (R66, R340). -/
structure Image where
  offset : Nat
  bytes  : List Byte
  deriving DecidableEq, Repr

/-- What out-of-scope code may do to the block while it runs: drive the request lines, use the callback functions
of the facade, raise an event (R333, R334, R336, R339). The functions of the facade that only read
(`GetTickCount`, `GetClockRate`) change nothing and need no entry. -/
inductive FacadeCall
  | setFiq (active : Bool)
  | setIrq (active : Bool)
  | registerCallback (timeout : Rat) (periodic : Bool) (handler : Nat)
  | unregisterCallback (handle : Nat)
  | raiseEvent (name sender : Nat) (args : List Word)
  deriving DecidableEq, Repr

/-- What a Device may do inside `OnRegister` and `OnUnregister`: any facade call, and `Map`/`Unmap`, which belong
to registration alone (R337, R338, R85). -/
inductive RegistrationCall
  | facade (call : FacadeCall)
  | map (region : Region) (images : List Image)
  | unmap (region : Region)
  deriving DecidableEq, Repr

/-- A Device's answer to a read: the value, or `none` for `BadAddress` (R61, R64), and the facade calls its code made
meanwhile, in time order (R77). -/
structure DeviceReply where
  value : Option Word
  calls : List FacadeCall
  deriving DecidableEq, Repr, Inhabited

/-- A Device's answer to a write: whether it took it, or `BadAddress` (R62, R64), and the facade calls (R77). -/
structure DeviceReceipt where
  accepted : Bool
  calls    : List FacadeCall
  deriving DecidableEq, Repr, Inhabited

/-- A Device's answer to `OnRegister` (R335): its result, and the calls it made, in time order. -/
structure RegistrationReply where
  accepted : Bool
  calls    : List RegistrationCall
  deriving DecidableEq, Repr, Inhabited

/-- The out-of-scope code that the scheduler calls (R333): a callback handler and the two registration methods
of a Device. `draw` is State's counter of free values, so every call gets an answer of its own. -/
structure Oracle where
  callback     : (draw cycles handler : Nat) → List FacadeCall
  onRegister   : (draw cycles device : Nat) → RegistrationReply
  onUnregister : (draw cycles device : Nat) → List RegistrationCall

namespace Config

/-! ### The reset platform (R78: "mapping ROM at 0 and RAM at 0x40000"; the sizes are this model's, log entry 4) -/

def romBase : Nat := 0
def romSize : Nat := 0x40000
def ramBase : Nat := 0x40000
def ramSize : Nat := 0x10000

/-- The Regions of the reset platform. DESIGN CHOICE (log entry 4): the sizes. -/
def resetRegions : List Region :=
  [⟨romBase, romSize, .noWrite⟩, ⟨ramBase, ramSize, .ram⟩]

/-- What a byte of a buffer reads as that nothing has written and no image covers. DESIGN CHOICE (log entry 3):
the spec calls it unspecified at power-on and adds "(a simulator uses 0)" (R392). -/
def unlistedByte : Byte := 0

/-! ### Free values -/

/-- C after a flag-setting multiply (R237, the draw `MulFlags`; log entry 6), from the draw and the two factors. -/
opaque mulCarry : (draw : Nat) → (rm rs : Word) → Bool

/-- V after a flag-setting long multiply (R237; log entry 6). -/
opaque mulOverflow : (draw : Nat) → (rm rs : Word) → Bool

/-- What a read of the SPSR yields in User and System mode, where there is none (R42, R225, R199, R274;
log entry 7). -/
opaque absentSpsr : (draw : Nat) → Word

/-- The answer of a Device to a read of its Region (R77; log entries 8 and 26), from the draw, the cycle total, the
Device, the Region-local offset and the access width in bytes. -/
opaque deviceRead : (draw cycles device : Nat) → (offset : Word) → (bytes : Nat) → DeviceReply

/-- The answer of a Device to a write (R77; log entries 8 and 26). -/
opaque deviceWrite : (draw cycles device : Nat) → (offset : Word) → (bytes : Nat) → (value : Word) → DeviceReceipt

/-- The facade calls of a callback handler that fires (R333; log entry 8). -/
opaque callbackCalls : (draw cycles handler : Nat) → List FacadeCall

/-- A Device's answer to `OnRegister` (R335, R337; log entry 8). -/
opaque onRegister : (draw cycles device : Nat) → RegistrationReply

/-- What a Device does in `OnUnregister` (R335, R337; log entry 8). -/
opaque onUnregister : (draw cycles device : Nat) → List RegistrationCall

/-- The cost above 1 of an executed instruction, where State's `costModel` leaves `Cost` uninterpreted
(R147; log entry 5). -/
opaque extraCost : (cycles : Nat) → (iw : Word) → Nat

/-- The cost above 1 of a Prefetch Abort entry, a parameter of its own (R358), where State's `costModel` leaves `Cost`
uninterpreted (log entry 5). -/
opaque prefetchExtra : (cycles : Nat) → Nat

/-- A word of the unspecified register contents of a halted machine (R375, U1; log entry 9); `slot` numbers the
registers. -/
opaque haltedWord : (draw slot : Nat) → Word

/-- The unspecified memory contents of a halted machine, as bytes at addresses (U1; log entry 9). -/
opaque haltedBytes : (draw : Nat) → List (Nat × Byte)

/-- The out-of-scope code as the model takes it: every answer is free. -/
def oracle : Oracle := ⟨callbackCalls, onRegister, onUnregister⟩

end Config

end Sys2Proof
end

