-- ==== Sys2Proof/Syntax.lean ====
section
/-!
DEFINITION. The instructions of the block: one constructor per row of spec/opcode_table.json, with the operand
fields of spec 30_encoding.md R111 to R123. Fields that the encoding marks "(ignored)" are not part of an
instruction (R127): no handler reads them. The condition (R101) is a field of every instruction.
-/

namespace Sys2Proof

/-- The sixteen conditions, in the order of their codes (R101). `nv` holds always (R146). -/
inductive Cond
  | eq | ne | cs | cc | mi | pl | vs | vc | hi | ls | ge | lt | gt | le | al | nv
  deriving DecidableEq, Repr

/-- The four shift types, in the order of their codes (R112). -/
inductive ShiftType
  | lsl | lsr | asr | ror
  deriving DecidableEq, Repr

/-- Operand 2 of a data-processing instruction (R112): a rotated immediate, a register shifted by a 5-bit
immediate (amount 0 is special for LSR, ASR and ROR, R172), or a register shifted by a register's low byte. -/
inductive Operand2
  | imm (rot : BitVec 4) (imm8 : BitVec 8)
  | shiftImm (rm : Reg) (ty : ShiftType) (n : BitVec 5)
  | shiftReg (rm : Reg) (ty : ShiftType) (rs : Reg)
  deriving DecidableEq, Repr

/-- The offset of format SINGLE (R119, R241): 12 bits, or a register shifted by an immediate. -/
inductive Offset
  | imm (off : BitVec 12)
  | reg (rm : Reg) (ty : ShiftType) (n : BitVec 5)
  deriving DecidableEq, Repr

/-- The offset of format HALFWORD (R118, R253): 8 bits, or a register. -/
inductive HalfOffset
  | imm (off : BitVec 8)
  | reg (rm : Reg)
  deriving DecidableEq, Repr

/-- The address operand of format SINGLE (R119): P (pre-indexed), U (add), W (write-back), base, offset. -/
structure Address where
  p   : Bool
  u   : Bool
  w   : Bool
  rn  : Reg
  off : Offset
  deriving DecidableEq, Repr

/-- The address operand of format HALFWORD (R118). P = 0 with W = 1 is executed with W ignored (R258 (b)). -/
structure HalfAddress where
  p   : Bool
  u   : Bool
  w   : Bool
  rn  : Reg
  off : HalfOffset
  deriving DecidableEq, Repr

/-- One constructor per row of spec/opcode_table.json. `mrs`/`mrsI` and `msr`/`msrI` are the class 0 and class 1
rows of MRS and MSR (R113); `halfwordL0Sh2` and `halfwordL0Sh3` are the words of R258 (a), which do nothing. -/
inductive Instr
  | bx (c : Cond) (rm : Reg)
  | swp (c : Cond) (rn rd rm : Reg)
  | swpb (c : Cond) (rn rd rm : Reg)
  | mul (c : Cond) (s : Bool) (rd rs rm : Reg)
  | mla (c : Cond) (s : Bool) (rd rn rs rm : Reg)
  | umull (c : Cond) (s : Bool) (rdHi rdLo rs rm : Reg)
  | umlal (c : Cond) (s : Bool) (rdHi rdLo rs rm : Reg)
  | smull (c : Cond) (s : Bool) (rdHi rdLo rs rm : Reg)
  | smlal (c : Cond) (s : Bool) (rdHi rdLo rs rm : Reg)
  | ldrh (c : Cond) (rd : Reg) (a : HalfAddress)
  | strh (c : Cond) (rd : Reg) (a : HalfAddress)
  | ldrsb (c : Cond) (rd : Reg) (a : HalfAddress)
  | ldrsh (c : Cond) (rd : Reg) (a : HalfAddress)
  | halfwordL0Sh2 (c : Cond) (rd : Reg) (a : HalfAddress)
  | halfwordL0Sh3 (c : Cond) (rd : Reg) (a : HalfAddress)
  | mrs (c : Cond) (r : Bool) (rd : Reg)
  | msr (c : Cond) (r : Bool) (fields : BitVec 4) (rm : Reg)
  | mrsI (c : Cond) (r : Bool) (rd : Reg)
  | msrI (c : Cond) (r : Bool) (fields : BitVec 4) (rot : BitVec 4) (imm8 : BitVec 8)
  | and (c : Cond) (s : Bool) (rd rn : Reg) (op2 : Operand2)
  | eor (c : Cond) (s : Bool) (rd rn : Reg) (op2 : Operand2)
  | sub (c : Cond) (s : Bool) (rd rn : Reg) (op2 : Operand2)
  | rsb (c : Cond) (s : Bool) (rd rn : Reg) (op2 : Operand2)
  | add (c : Cond) (s : Bool) (rd rn : Reg) (op2 : Operand2)
  | adc (c : Cond) (s : Bool) (rd rn : Reg) (op2 : Operand2)
  | sbc (c : Cond) (s : Bool) (rd rn : Reg) (op2 : Operand2)
  | rsc (c : Cond) (s : Bool) (rd rn : Reg) (op2 : Operand2)
  | tst (c : Cond) (rn : Reg) (op2 : Operand2)
  | teq (c : Cond) (rn : Reg) (op2 : Operand2)
  | cmp (c : Cond) (rn : Reg) (op2 : Operand2)
  | cmn (c : Cond) (rn : Reg) (op2 : Operand2)
  | orr (c : Cond) (s : Bool) (rd rn : Reg) (op2 : Operand2)
  | mov (c : Cond) (s : Bool) (rd : Reg) (op2 : Operand2)
  | bic (c : Cond) (s : Bool) (rd rn : Reg) (op2 : Operand2)
  | mvn (c : Cond) (s : Bool) (rd : Reg) (op2 : Operand2)
  | undefined (c : Cond) (hi : BitVec 20) (lo : BitVec 4)
  | ldrt (c : Cond) (rd : Reg) (u : Bool) (rn : Reg) (off : Offset)
  | ldrbt (c : Cond) (rd : Reg) (u : Bool) (rn : Reg) (off : Offset)
  | strt (c : Cond) (rd : Reg) (u : Bool) (rn : Reg) (off : Offset)
  | strbt (c : Cond) (rd : Reg) (u : Bool) (rn : Reg) (off : Offset)
  | ldr (c : Cond) (rd : Reg) (a : Address)
  | ldrb (c : Cond) (rd : Reg) (a : Address)
  | str (c : Cond) (rd : Reg) (a : Address)
  | strb (c : Cond) (rd : Reg) (a : Address)
  | ldm (c : Cond) (p u sBit w : Bool) (rn : Reg) (list : BitVec 16)
  | stm (c : Cond) (p u sBit w : Bool) (rn : Reg) (list : BitVec 16)
  | b (c : Cond) (offset24 : BitVec 24)
  | bl (c : Cond) (offset24 : BitVec 24)
  | ldc (c : Cond) (p u n w : Bool) (rn crd cpNum : BitVec 4) (offset8 : BitVec 8)
  | stc (c : Cond) (p u n w : Bool) (rn crd cpNum : BitVec 4) (offset8 : BitVec 8)
  | swi (c : Cond) (comment : BitVec 24)
  | cdp (c : Cond) (opcode1 crn crd cpNum : BitVec 4) (opcode2 : BitVec 3) (crm : BitVec 4)
  | mrc (c : Cond) (opcode1 : BitVec 3) (crn rd cpNum : BitVec 4) (opcode2 : BitVec 3) (crm : BitVec 4)
  | mcr (c : Cond) (opcode1 : BitVec 3) (crn rd cpNum : BitVec 4) (opcode2 : BitVec 3) (crm : BitVec 4)
  deriving DecidableEq, Repr

/-- The condition field of an instruction (R100: common to every instruction). -/
def Instr.cond : Instr → Cond
  | .bx c _ | .swp c _ _ _ | .swpb c _ _ _ => c
  | .mul c _ _ _ _ | .mla c _ _ _ _ _ => c
  | .umull c _ _ _ _ _ | .umlal c _ _ _ _ _ | .smull c _ _ _ _ _ | .smlal c _ _ _ _ _ => c
  | .ldrh c _ _ | .strh c _ _ | .ldrsb c _ _ | .ldrsh c _ _ => c
  | .halfwordL0Sh2 c _ _ | .halfwordL0Sh3 c _ _ => c
  | .mrs c _ _ | .msr c _ _ _ | .mrsI c _ _ | .msrI c _ _ _ _ => c
  | .and c _ _ _ _ | .eor c _ _ _ _ | .sub c _ _ _ _ | .rsb c _ _ _ _ => c
  | .add c _ _ _ _ | .adc c _ _ _ _ | .sbc c _ _ _ _ | .rsc c _ _ _ _ => c
  | .tst c _ _ | .teq c _ _ | .cmp c _ _ | .cmn c _ _ => c
  | .orr c _ _ _ _ | .mov c _ _ _ | .bic c _ _ _ _ | .mvn c _ _ _ => c
  | .undefined c _ _ => c
  | .ldrt c _ _ _ _ | .ldrbt c _ _ _ _ | .strt c _ _ _ _ | .strbt c _ _ _ _ => c
  | .ldr c _ _ | .ldrb c _ _ | .str c _ _ | .strb c _ _ => c
  | .ldm c _ _ _ _ _ _ | .stm c _ _ _ _ _ _ => c
  | .b c _ | .bl c _ => c
  | .ldc c _ _ _ _ _ _ _ _ | .stc c _ _ _ _ _ _ _ _ => c
  | .swi c _ => c
  | .cdp c _ _ _ _ _ _ | .mrc c _ _ _ _ _ _ | .mcr c _ _ _ _ _ _ => c

end Sys2Proof
end

