-- ==== Sys2Proof/WellFormed.lean ====
section
/-!
DEFINITION. Which terms of Instr are instructions. Every field's range is its type's, so one check is left: P = 0
with W = 1 in format SINGLE selects the T variants (spec 30_encoding.md R119, 44_load_store.md R246 to R249), so
it is no form of LDR, LDRB, STR, STRB. (In format HALFWORD the same bits are a form of the instruction, R258 (b).)
-/

namespace Sys2Proof

/-- An address operand of the plain forms of format SINGLE: not the T variants' P = 0, W = 1 (R119). -/
def Address.plain (a : Address) : Bool := a.p || !a.w

/-- The check on an instruction: every constructor is named, and four of them have something to check. -/
def wellFormed : Instr → Bool
  | .ldr _ _ a | .ldrb _ _ a | .str _ _ a | .strb _ _ a => a.plain
  | .bx .. | .swp .. | .swpb .. | .mul .. | .mla .. | .umull .. | .umlal .. | .smull .. | .smlal .. => true
  | .ldrh .. | .strh .. | .ldrsb .. | .ldrsh .. | .halfwordL0Sh2 .. | .halfwordL0Sh3 .. => true
  | .mrs .. | .msr .. | .mrsI .. | .msrI .. => true
  | .and .. | .eor .. | .sub .. | .rsb .. | .add .. | .adc .. | .sbc .. | .rsc .. => true
  | .tst .. | .teq .. | .cmp .. | .cmn .. | .orr .. | .mov .. | .bic .. | .mvn .. => true
  | .undefined .. | .ldrt .. | .ldrbt .. | .strt .. | .strbt .. => true
  | .ldm .. | .stm .. | .b .. | .bl .. => true
  | .ldc .. | .stc .. | .swi .. | .cdp .. | .mrc .. | .mcr .. => true

end Sys2Proof
end

