-- ==== Sys2Proof/Decode.lean ====
section
/-!
DEFINITION. The decoder and the encoder. `decodeWord` is the decision tree of spec 30_encoding.md R102 (total,
R131) with the field layouts of R111 to R123; `decode` reads four bytes, little-endian (R70, R100), and rejects by
name a list with fewer. `encode` writes the standard word of an instruction; bits that a handler ignores are
written as the standard encoding fixes them (R113, R116, R127).
-/

namespace Sys2Proof

/-! ### Bit fields -/

/-- `w[lo + len - 1 : lo]` (R11). -/
def fld {k : Nat} (lo len : Nat) (w : BitVec k) : BitVec len := w.extractLsb' lo len

/-- `w[i]` (R11). -/
def bit {k : Nat} (i : Nat) (w : BitVec k) : Bool := w.getLsbD i

/-- `x : y`, `x` in the high bits (R11), as a value of `k` bits: an encoding is read from its top field down, and
`k` says how many bits are still to be written. -/
def cat {a b : Nat} (k : Nat) (x : BitVec a) (y : BitVec b) : BitVec k := (x ++ y).setWidth k

/-- A one-bit field. -/
abbrev flag (b : Bool) : BitVec 1 := BitVec.ofBool b

/-! ### Codes -/

/-- The condition of a code (R101). -/
def Cond.ofCode (c : BitVec 4) : Cond :=
  match c.toNat with
  | 0 => .eq | 1 => .ne | 2 => .cs | 3 => .cc | 4 => .mi | 5 => .pl | 6 => .vs | 7 => .vc
  | 8 => .hi | 9 => .ls | 10 => .ge | 11 => .lt | 12 => .gt | 13 => .le | 14 => .al | _ => .nv

/-- The code of a condition (R101). -/
def Cond.code : Cond → BitVec 4
  | .eq => 0 | .ne => 1 | .cs => 2 | .cc => 3 | .mi => 4 | .pl => 5 | .vs => 6 | .vc => 7
  | .hi => 8 | .ls => 9 | .ge => 10 | .lt => 11 | .gt => 12 | .le => 13 | .al => 14 | .nv => 15

/-- The shift type of a code (R112). -/
def ShiftType.ofCode (c : BitVec 2) : ShiftType :=
  match c.toNat with
  | 0 => .lsl | 1 => .lsr | 2 => .asr | _ => .ror

/-- The code of a shift type (R112). -/
def ShiftType.code : ShiftType → BitVec 2
  | .lsl => 0 | .lsr => 1 | .asr => 2 | .ror => 3

/-! ### The decoder -/

/-- Operand 2 of format DP (R112). -/
def operand2Of (iw : Word) : Operand2 :=
  if bit 25 iw then .imm (fld 8 4 iw) (fld 0 8 iw)
  else if bit 4 iw then .shiftReg (fld 0 4 iw) (.ofCode (fld 5 2 iw)) (fld 8 4 iw)
  else .shiftImm (fld 0 4 iw) (.ofCode (fld 5 2 iw)) (fld 7 5 iw)

/-- The offset of format SINGLE (R119): note that I = 1 is the register form. -/
def offsetOf (iw : Word) : Offset :=
  if bit 25 iw then .reg (fld 0 4 iw) (.ofCode (fld 5 2 iw)) (fld 7 5 iw) else .imm (fld 0 12 iw)

/-- The address operand of format SINGLE (R119). -/
def addressOf (iw : Word) : Address :=
  ⟨bit 24 iw, bit 23 iw, bit 21 iw, fld 16 4 iw, offsetOf iw⟩

/-- The offset of format HALFWORD (R118): I = 1 is the immediate `iw[11:8] : iw[3:0]`. -/
def halfOffsetOf (iw : Word) : HalfOffset :=
  if bit 22 iw then .imm (cat 8 (fld 8 4 iw) (fld 0 4 iw)) else .reg (fld 0 4 iw)

/-- The address operand of format HALFWORD (R118). -/
def halfAddressOf (iw : Word) : HalfAddress :=
  ⟨bit 24 iw, bit 23 iw, bit 21 iw, fld 16 4 iw, halfOffsetOf iw⟩

/-- Handler tag DATA: the opcode is `iw[24:21]`, S is `iw[20]` (R111). -/
def dataOf (c : Cond) (iw : Word) : Instr :=
  let s := bit 20 iw
  let rn := fld 16 4 iw
  let rd := fld 12 4 iw
  let o := operand2Of iw
  match (fld 21 4 iw).toNat with
  | 0 => .and c s rd rn o
  | 1 => .eor c s rd rn o
  | 2 => .sub c s rd rn o
  | 3 => .rsb c s rd rn o
  | 4 => .add c s rd rn o
  | 5 => .adc c s rd rn o
  | 6 => .sbc c s rd rn o
  | 7 => .rsc c s rd rn o
  | 8 => .tst c rn o
  | 9 => .teq c rn o
  | 10 => .cmp c rn o
  | 11 => .cmn c rn o
  | 12 => .orr c s rd rn o
  | 13 => .mov c s rd o
  | 14 => .bic c s rd rn o
  | _ => .mvn c s rd o

/-- The key of MRS and MSR (R102, R113): `iw[24:23] = 0b10` and `iw[20] = 0`. -/
def psrKey (iw : Word) : Bool := fld 23 2 iw == 0b10#2 && !bit 20 iw

/-- Handler tags MRS and MSR of class 0 (register operand, R113). -/
def psrRegOf (c : Cond) (iw : Word) : Instr :=
  if bit 21 iw then .msr c (bit 22 iw) (fld 16 4 iw) (fld 0 4 iw) else .mrs c (bit 22 iw) (fld 12 4 iw)

/-- Handler tags MRS and MSR of class 1 (immediate operand, R113). -/
def psrImmOf (c : Cond) (iw : Word) : Instr :=
  if bit 21 iw then .msrI c (bit 22 iw) (fld 16 4 iw) (fld 8 4 iw) (fld 0 8 iw)
  else .mrsI c (bit 22 iw) (fld 12 4 iw)

/-- Handler tags SWAP, MULL_MLAL and MUL_MLA (R102: class 0 with `iw[7:4] = 0b1001`; R114 to R116). -/
def multiplyOf (c : Cond) (iw : Word) : Instr :=
  let s := bit 20 iw
  let hi := fld 16 4 iw
  let lo := fld 12 4 iw
  let rs := fld 8 4 iw
  let rm := fld 0 4 iw
  if bit 24 iw then (if bit 22 iw then .swpb c hi lo rm else .swp c hi lo rm)
  else if bit 23 iw then
    match bit 22 iw, bit 21 iw with
    | false, false => .umull c s hi lo rs rm
    | false, true => .umlal c s hi lo rs rm
    | true, false => .smull c s hi lo rs rm
    | true, true => .smlal c s hi lo rs rm
  else if bit 21 iw then .mla c s hi lo rs rm else .mul c s hi rs rm

/-- Handler tag HALFWORD (R118), by L = `iw[20]` and SH = `iw[6:5]`, which is not 0 here. -/
def halfwordOf (c : Cond) (iw : Word) : Instr :=
  let rd := fld 12 4 iw
  let a := halfAddressOf iw
  match bit 20 iw, (fld 5 2 iw).toNat with
  | true, 2 => .ldrsb c rd a
  | true, 3 => .ldrsh c rd a
  | true, _ => .ldrh c rd a
  | false, 2 => .halfwordL0Sh2 c rd a
  | false, 3 => .halfwordL0Sh3 c rd a
  | false, _ => .strh c rd a

/-- The key of BX (R102, R117): `iw[24:4]` compared as a whole. -/
def bxKey (iw : Word) : Bool := fld 4 21 iw == 0x12FFF1#21

/-- Class 0, in the order of the tests of R102. `iw[7:4]` in {9, B, D, F} is `iw[7] = iw[4] = 1`, and then
`iw[6:5] = 0` is the value 9. -/
def classZero (c : Cond) (iw : Word) : Instr :=
  if bxKey iw then .bx c (fld 0 4 iw)
  else if bit 7 iw && bit 4 iw then
    (if fld 5 2 iw == 0#2 then multiplyOf c iw else halfwordOf c iw)
  else if psrKey iw then psrRegOf c iw
  else dataOf c iw

/-- Class 1 (R102). -/
def classOne (c : Cond) (iw : Word) : Instr := if psrKey iw then psrImmOf c iw else dataOf c iw

/-- Handler tag SINGLE (R119): B = `iw[22]`, L = `iw[20]`; P = 0 with W = 1 selects the T variants. -/
def singleOf (c : Cond) (iw : Word) : Instr :=
  let rd := fld 12 4 iw
  let a := addressOf iw
  if !bit 24 iw && bit 21 iw then
    match bit 22 iw, bit 20 iw with
    | false, true => .ldrt c rd a.u a.rn a.off
    | true, true => .ldrbt c rd a.u a.rn a.off
    | false, false => .strt c rd a.u a.rn a.off
    | true, false => .strbt c rd a.u a.rn a.off
  else
    match bit 22 iw, bit 20 iw with
    | false, true => .ldr c rd a
    | true, true => .ldrb c rd a
    | false, false => .str c rd a
    | true, false => .strb c rd a

/-- Class 3 (R102): `iw[4]` selects the undefined space or SINGLE. -/
def classThree (c : Cond) (iw : Word) : Instr :=
  if bit 4 iw then .undefined c (fld 5 20 iw) (fld 0 4 iw) else singleOf c iw

/-- Handler tag BLOCK (R120). -/
def blockOf (c : Cond) (iw : Word) : Instr :=
  if bit 20 iw then .ldm c (bit 24 iw) (bit 23 iw) (bit 22 iw) (bit 21 iw) (fld 16 4 iw) (fld 0 16 iw)
  else .stm c (bit 24 iw) (bit 23 iw) (bit 22 iw) (bit 21 iw) (fld 16 4 iw) (fld 0 16 iw)

/-- Handler tag BRANCH (R121). -/
def branchOf (c : Cond) (iw : Word) : Instr :=
  if bit 24 iw then .bl c (fld 0 24 iw) else .b c (fld 0 24 iw)

/-- Handler tag COPROC_TRANSFER (R122). -/
def coprocTransferOf (c : Cond) (iw : Word) : Instr :=
  if bit 20 iw then
    .ldc c (bit 24 iw) (bit 23 iw) (bit 22 iw) (bit 21 iw) (fld 16 4 iw) (fld 12 4 iw) (fld 8 4 iw) (fld 0 8 iw)
  else
    .stc c (bit 24 iw) (bit 23 iw) (bit 22 iw) (bit 21 iw) (fld 16 4 iw) (fld 12 4 iw) (fld 8 4 iw) (fld 0 8 iw)

/-- Class 7 (R102, R122, R123): SWI, COPROC_REGISTER, COPROC_DATA. -/
def classSeven (c : Cond) (iw : Word) : Instr :=
  if bit 24 iw then .swi c (fld 0 24 iw)
  else if bit 4 iw then
    (if bit 20 iw then .mrc c (fld 21 3 iw) (fld 16 4 iw) (fld 12 4 iw) (fld 8 4 iw) (fld 5 3 iw) (fld 0 4 iw)
     else .mcr c (fld 21 3 iw) (fld 16 4 iw) (fld 12 4 iw) (fld 8 4 iw) (fld 5 3 iw) (fld 0 4 iw))
  else .cdp c (fld 20 4 iw) (fld 16 4 iw) (fld 12 4 iw) (fld 8 4 iw) (fld 5 3 iw) (fld 0 4 iw)

/-- `Decode` (R102): total on 32-bit words (R131); the class is `iw[27:25]`. -/
def decodeWord (iw : Word) : Instr :=
  let c := Cond.ofCode (fld 28 4 iw)
  match (fld 25 3 iw).toNat with
  | 0 => classZero c iw
  | 1 => classOne c iw
  | 2 => singleOf c iw
  | 3 => classThree c iw
  | 4 => blockOf c iw
  | 5 => branchOf c iw
  | 6 => coprocTransferOf c iw
  | _ => classSeven c iw

/-- Why bytes are no instruction: every instruction is one 32-bit word (R100), so only their number can be. -/
inductive DecodeError
  | truncated (bytes : Nat)
  deriving DecidableEq, Repr

/-- Four bytes as a word, the first at the lowest address (R70). -/
def wordOfBytes (b0 b1 b2 b3 : Byte) : Word := cat 32 b3 (cat 24 b2 (cat 16 b1 b0))

/-- The instruction at the head of a list of bytes, and the bytes after it. -/
def decode : List Byte → Except DecodeError (Instr × List Byte)
  | b0 :: b1 :: b2 :: b3 :: rest => .ok (decodeWord (wordOfBytes b0 b1 b2 b3), rest)
  | bytes => .error (.truncated bytes.length)

/-! ### The encoder -/

/-- Bits 11 to 0 of operand 2 (R112). -/
def Operand2.code : Operand2 → BitVec 12
  | .imm rot imm8 => cat 12 rot imm8
  | .shiftImm rm ty n => cat 12 n <| cat 7 ty.code <| cat 5 0#1 rm
  | .shiftReg rm ty rs => cat 12 rs <| cat 8 0#1 <| cat 7 ty.code <| cat 5 1#1 rm

/-- The class of format DP: bits 27 and 26 are 0, bit 25 is I (R111). -/
def Operand2.classBits : Operand2 → BitVec 3
  | .imm .. => 0b001
  | .shiftImm .. | .shiftReg .. => 0b000

/-- Bits 11 to 0 of the offset of format SINGLE (R119). -/
def Offset.code : Offset → BitVec 12
  | .imm off => off
  | .reg rm ty n => cat 12 n <| cat 7 ty.code <| cat 5 0#1 rm

/-- The class of format SINGLE: bits 27 and 26 are 0b01, bit 25 is I (R119). -/
def Offset.classBits : Offset → BitVec 3
  | .imm .. => 0b010
  | .reg .. => 0b011

/-- I = bit 22 of format HALFWORD (R118). -/
def HalfOffset.isImm : HalfOffset → Bool
  | .imm .. => true
  | .reg .. => false

/-- Bits 11 to 8 of format HALFWORD (R118). -/
def HalfOffset.high : HalfOffset → BitVec 4
  | .imm off => fld 4 4 off
  | .reg _ => 0

/-- Bits 3 to 0 of format HALFWORD (R118). -/
def HalfOffset.low : HalfOffset → BitVec 4
  | .imm off => fld 0 4 off
  | .reg rm => rm

/-- Format DP (R111). -/
def encodeData (c : Cond) (opcode : BitVec 4) (s : Bool) (rn rd : Reg) (o : Operand2) : Word :=
  cat 32 c.code <| cat 28 o.classBits <| cat 25 opcode <| cat 21 (flag s) <|
    cat 20 rn <| cat 16 rd o.code

/-- Format MUL and format MULL (R114, R115): `kind` is bits 23 to 21. -/
def encodeMultiply (c : Cond) (kind : BitVec 3) (s : Bool) (hi lo rs rm : Reg) : Word :=
  cat 32 c.code <| cat 28 0b000#3 <| cat 25 0#1 <| cat 24 kind <| cat 21 (flag s) <|
    cat 20 hi <| cat 16 lo <| cat 12 rs <| cat 8 0b1001#4 rm

/-- Format SWAP (R116). -/
def encodeSwap (c : Cond) (byte : Bool) (rn rd rm : Reg) : Word :=
  cat 32 c.code <| cat 28 0b000#3 <| cat 25 0b10#2 <| cat 23 (flag byte) <| cat 22 0b00#2 <|
    cat 20 rn <| cat 16 rd <| cat 12 0b0000#4 <| cat 8 0b1001#4 rm

/-- Format HALFWORD (R118). -/
def encodeHalfword (c : Cond) (l : Bool) (sh : BitVec 2) (rd : Reg) (a : HalfAddress) : Word :=
  cat 32 c.code <| cat 28 0b000#3 <| cat 25 (flag a.p) <| cat 24 (flag a.u) <| cat 23 (flag a.off.isImm) <|
    cat 22 (flag a.w) <| cat 21 (flag l) <| cat 20 a.rn <| cat 16 rd <| cat 12 a.off.high <|
    cat 8 1#1 <| cat 7 sh <| cat 5 1#1 a.off.low

/-- MRS (R113): bits 19 to 16 are the standard 0b1111, bits 11 to 0 zero. -/
def encodeMrs (c : Cond) (cls : BitVec 3) (r : Bool) (rd : Reg) : Word :=
  cat 32 c.code <| cat 28 cls <| cat 25 0b10#2 <| cat 23 (flag r) <| cat 22 0b00#2 <|
    cat 20 0b1111#4 <| cat 16 rd 0#12

/-- MSR (R113): bits 15 to 12 are the standard 0b1111; `low` is bits 11 to 0. -/
def encodeMsr (c : Cond) (cls : BitVec 3) (r : Bool) (fields : BitVec 4) (low : BitVec 12) : Word :=
  cat 32 c.code <| cat 28 cls <| cat 25 0b10#2 <| cat 23 (flag r) <| cat 22 0b10#2 <|
    cat 20 fields <| cat 16 0b1111#4 low

/-- Format SINGLE (R119). -/
def encodeSingle (c : Cond) (byte l : Bool) (rd : Reg) (a : Address) : Word :=
  cat 32 c.code <| cat 28 a.off.classBits <| cat 25 (flag a.p) <| cat 24 (flag a.u) <|
    cat 23 (flag byte) <| cat 22 (flag a.w) <| cat 21 (flag l) <| cat 20 a.rn <| cat 16 rd a.off.code

/-- Format BLOCK (R120). -/
def encodeBlock (c : Cond) (p u sBit w l : Bool) (rn : Reg) (list : BitVec 16) : Word :=
  cat 32 c.code <| cat 28 0b100#3 <| cat 25 (flag p) <| cat 24 (flag u) <| cat 23 (flag sBit) <|
    cat 22 (flag w) <| cat 21 (flag l) <| cat 20 rn list

/-- Format COPROC of class 6 (R122). -/
def encodeTransfer (c : Cond) (p u n w l : Bool) (rn crd cpNum : BitVec 4) (offset8 : BitVec 8) : Word :=
  cat 32 c.code <| cat 28 0b110#3 <| cat 25 (flag p) <| cat 24 (flag u) <| cat 23 (flag n) <|
    cat 22 (flag w) <| cat 21 (flag l) <| cat 20 rn <| cat 16 crd <| cat 12 cpNum offset8

/-- Format COPROC of MRC and MCR (R122). -/
def encodeCoprocReg (c : Cond) (opcode1 : BitVec 3) (l : Bool) (crn rd cpNum : BitVec 4) (opcode2 : BitVec 3)
    (crm : BitVec 4) : Word :=
  cat 32 c.code <| cat 28 0b111#3 <| cat 25 0#1 <| cat 24 opcode1 <| cat 21 (flag l) <| cat 20 crn <| cat 16 rd <|
    cat 12 cpNum <| cat 8 opcode2 <| cat 5 1#1 crm

/-- The standard word of an instruction. -/
def encode : Instr → Word
  | .bx c rm => cat 32 c.code <| cat 28 0x012FFF1#24 rm
  | .swp c rn rd rm => encodeSwap c false rn rd rm
  | .swpb c rn rd rm => encodeSwap c true rn rd rm
  | .mul c s rd rs rm => encodeMultiply c 0b000#3 s rd 0 rs rm
  | .mla c s rd rn rs rm => encodeMultiply c 0b001#3 s rd rn rs rm
  | .umull c s rdHi rdLo rs rm => encodeMultiply c 0b100#3 s rdHi rdLo rs rm
  | .umlal c s rdHi rdLo rs rm => encodeMultiply c 0b101#3 s rdHi rdLo rs rm
  | .smull c s rdHi rdLo rs rm => encodeMultiply c 0b110#3 s rdHi rdLo rs rm
  | .smlal c s rdHi rdLo rs rm => encodeMultiply c 0b111#3 s rdHi rdLo rs rm
  | .ldrh c rd a => encodeHalfword c true 0b01#2 rd a
  | .strh c rd a => encodeHalfword c false 0b01#2 rd a
  | .ldrsb c rd a => encodeHalfword c true 0b10#2 rd a
  | .ldrsh c rd a => encodeHalfword c true 0b11#2 rd a
  | .halfwordL0Sh2 c rd a => encodeHalfword c false 0b10#2 rd a
  | .halfwordL0Sh3 c rd a => encodeHalfword c false 0b11#2 rd a
  | .mrs c r rd => encodeMrs c 0b000#3 r rd
  | .msr c r fields rm => encodeMsr c 0b000#3 r fields (cat 12 0#8 rm)
  | .mrsI c r rd => encodeMrs c 0b001#3 r rd
  | .msrI c r fields rot imm8 => encodeMsr c 0b001#3 r fields (cat 12 rot imm8)
  | .and c s rd rn o => encodeData c 0 s rn rd o
  | .eor c s rd rn o => encodeData c 1 s rn rd o
  | .sub c s rd rn o => encodeData c 2 s rn rd o
  | .rsb c s rd rn o => encodeData c 3 s rn rd o
  | .add c s rd rn o => encodeData c 4 s rn rd o
  | .adc c s rd rn o => encodeData c 5 s rn rd o
  | .sbc c s rd rn o => encodeData c 6 s rn rd o
  | .rsc c s rd rn o => encodeData c 7 s rn rd o
  | .tst c rn o => encodeData c 8 true rn 0 o
  | .teq c rn o => encodeData c 9 true rn 0 o
  | .cmp c rn o => encodeData c 10 true rn 0 o
  | .cmn c rn o => encodeData c 11 true rn 0 o
  | .orr c s rd rn o => encodeData c 12 s rn rd o
  | .mov c s rd o => encodeData c 13 s 0 rd o
  | .bic c s rd rn o => encodeData c 14 s rn rd o
  | .mvn c s rd o => encodeData c 15 s 0 rd o
  | .undefined c hi lo => cat 32 c.code <| cat 28 0b011#3 <| cat 25 hi <| cat 5 1#1 lo
  | .ldrt c rd u rn off => encodeSingle c false true rd ⟨false, u, true, rn, off⟩
  | .ldrbt c rd u rn off => encodeSingle c true true rd ⟨false, u, true, rn, off⟩
  | .strt c rd u rn off => encodeSingle c false false rd ⟨false, u, true, rn, off⟩
  | .strbt c rd u rn off => encodeSingle c true false rd ⟨false, u, true, rn, off⟩
  | .ldr c rd a => encodeSingle c false true rd a
  | .ldrb c rd a => encodeSingle c true true rd a
  | .str c rd a => encodeSingle c false false rd a
  | .strb c rd a => encodeSingle c true false rd a
  | .ldm c p u sBit w rn list => encodeBlock c p u sBit w true rn list
  | .stm c p u sBit w rn list => encodeBlock c p u sBit w false rn list
  | .b c offset24 => cat 32 c.code <| cat 28 0b101#3 <| cat 25 0#1 offset24
  | .bl c offset24 => cat 32 c.code <| cat 28 0b101#3 <| cat 25 1#1 offset24
  | .ldc c p u n w rn crd cpNum offset8 => encodeTransfer c p u n w true rn crd cpNum offset8
  | .stc c p u n w rn crd cpNum offset8 => encodeTransfer c p u n w false rn crd cpNum offset8
  | .swi c comment => cat 32 c.code <| cat 28 0b111#3 <| cat 25 1#1 comment
  | .cdp c opcode1 crn crd cpNum opcode2 crm =>
    cat 32 c.code <| cat 28 0b111#3 <| cat 25 0#1 <| cat 24 opcode1 <| cat 20 crn <| cat 16 crd <| cat 12 cpNum <|
      cat 8 opcode2 <| cat 5 0#1 crm
  | .mrc c opcode1 crn rd cpNum opcode2 crm => encodeCoprocReg c opcode1 true crn rd cpNum opcode2 crm
  | .mcr c opcode1 crn rd cpNum opcode2 crm => encodeCoprocReg c opcode1 false crn rd cpNum opcode2 crm

/-- A word as the four bytes the bus holds, the first at the lowest address (R70). -/
def bytesOfWord (w : Word) : List Byte := [fld 0 8 w, fld 8 8 w, fld 16 8 w, fld 24 8 w]

/-- The bytes of an instruction in memory. -/
def encodeBytes (i : Instr) : List Byte := bytesOfWord (encode i)

/-! ### The decoder on a table word (the host's interface) -/

/-- The instruction that the decoder reads from the table's bits `w`: one 32-bit word whose bits from `nbits` up
are 0, laid out in its byte order (R70, R100). -/
def decodeTableWord (nbits w : Nat) : Option Instr :=
  match decode (bytesOfWord (BitVec.ofNat 32 (w % 2 ^ nbits))) with
  | .ok (i, _) => some i
  | .error _ => none

end Sys2Proof
end

