-- ==== Sys2Proof/Machine/State.lean ====
section
/-!
DEFINITION. The state of the block (spec 10_state.md R20, 49_scheduler.md R320), what can stop it, and the state
after reset (R46, R391, R392). Every field is plain data. Three fields are the model's own: `pcAltered` (R32: "not
state between steps"; log entry 11), `draws` (log entry 10) and `costModel` (log entry 5).
-/

namespace Sys2Proof.Machine

/-! ### Modes and status registers -/

/-- The seven processor modes (R23). -/
inductive Mode
  | user | fiq | irq | supervisor | abort | undefined | system
  deriving DecidableEq, Repr

/-- The six register banks (R24). -/
inductive Bank
  | usr | fiq | irq | svc | abt | und
  deriving DecidableEq, Repr

/-- The current program status register: the eight fields of R34, and no others (R40). -/
structure Psr where
  n : Bool
  z : Bool
  c : Bool
  v : Bool
  i : Bool
  f : Bool
  t : Bool
  mode : Mode
  deriving DecidableEq, Repr

/-- The five saved status registers, whole 32-bit words (R22, R40, R41). -/
structure SavedPsrs where
  fiq : Word
  irq : Word
  svc : Word
  abt : Word
  und : Word
  deriving DecidableEq, Repr

/-! ### Memory -/

/-- The contents of every buffer-backed Region (R65), byte by byte: addresses strictly rising, no byte equal to
what an unlisted address reads as. -/
abbrev Memory := List Host.Cell

/-- The canonical form of a memory. -/
def Memory.wf : Memory → Bool
  | [] => true
  | (a, b) :: rest => (b != Config.unlistedByte) && rest.all (fun c => a < c.1) && Memory.wf rest

/-! ### The scheduler -/

/-- A Callback record (R320). -/
structure Callback where
  handle    : Nat
  dueTime   : Rat
  span      : Rat
  periodic  : Bool
  handler   : Nat
  cancelled : Bool
  deriving DecidableEq, Repr

/-- An event that was raised (R332): the triple of D32, and the subscribers that were called, in order. -/
structure EventRecord where
  name      : Nat
  sender    : Nat
  args      : List Word
  receivers : List Nat
  deriving DecidableEq, Repr

/-- What out-of-scope code reaches: the request lines (R360) and the Scheduler's bookkeeping (R320, R332).
`again` holds the periodic records that fired in the running drain (R324); it is empty outside a drain. -/
structure Scheduler where
  fiq        : Bool
  irq        : Bool
  queue      : List Callback
  again      : List Callback
  nextHandle : Nat
  devices    : List Nat
  subs       : List (Nat × Nat)
  trace      : List EventRecord
  deriving DecidableEq, Repr

/-! ### What stops the machine -/

/-- The fatal kinds (R375 to R377). -/
inductive Fatal
  | alignmentError
  | unsupportedState
  deriving DecidableEq, Repr

/-- What out-of-scope code has done by the time a step fails (R77): the Scheduler as the Devices that the step had
reached left it, and the free values used (log entry 9). -/
structure Outside where
  sched : Scheduler
  draws : Nat
  deriving DecidableEq, Repr

/-- Why a step has no next state. -/
inductive Fault
  /-- Raised by a write to R15 whose low two bits are not zero (R32, R377), by a load of the CPSR with T = 1 or an
  illegal mode number (R38, R39, R376), and by BX to an odd address (R298). Safe: R153 says that the machine stops
  there. Nothing of the block's own part of the state is left (U1); what Devices did stays. -/
  | fatal (kind : Fatal) (left : Outside)
  /-- Raised by a step of a machine that is already halted (R375: "no rule gives a halted machine a further step").
  Safe. -/
  | halted (kind : Fatal)
  deriving DecidableEq, Repr

/-- Why an instruction has no meaning. -/
inductive Refusal
  /-- Raised by an arm of `exec` whose instruction has no meaning in this model; no arm of the finished model does.
  Safe. -/
  | notModelled (mnemonic : String)
  deriving DecidableEq, Repr

/-! ### The state -/

/-- The parameter `Cost` of R9: the default table of R410, or any function with values from 1 (log entry 5). -/
inductive CostModel
  | default
  | uninterpreted
  deriving DecidableEq, Repr

/-- The whole state (R20). `gpr` holds the thirty registers of R22 other than R15: R0 to R7; R8 to R12, R13, R14 of
the bank usr; R8 to R14 of fiq; R13, R14 of irq, svc, abt, und. -/
@[ext]
structure State where
  gpr       : Vector Word 30
  pc        : Word
  pcAltered : Bool
  cpsr      : Psr
  spsr      : SavedPsrs
  cycles    : Nat
  halted    : Option Fatal
  mem       : Memory
  regions   : List Region
  sched     : Scheduler
  clockRate : Rat
  costModel : CostModel
  draws     : Nat
  deriving DecidableEq, Repr

/-- The Scheduler at power-on (R320, R392): everything empty, the lines inactive. -/
def Scheduler.powerOn : Scheduler where
  fiq := false
  irq := false
  queue := []
  again := []
  nextHandle := 0
  devices := []
  subs := []
  trace := []

/-- The machine at power-on, before the first Reset (R392). DESIGN CHOICE (log entry 1): the registers, the flags
and the mode, which R392 leaves unspecified; log entries 2 and 4: the platform. -/
def State.powerOn : State where
  gpr := Vector.replicate 30 0
  pc := 0
  pcAltered := false
  cpsr := ⟨false, false, false, false, false, false, false, .user⟩
  spsr := ⟨0, 0, 0, 0, 0⟩
  cycles := 0
  halted := none
  mem := []
  regions := Config.resetRegions
  sched := Scheduler.powerOn
  clockRate := 1
  costModel := .default
  draws := 0

/-- The machine right after the machine-start Reset (R46, R391): R15 = 0, Supervisor mode, I = F = 1, T = 0, and
SPSR_svc holds the power-on status word; everything else is as at power-on. -/
def State.reset : State where
  gpr := Vector.replicate 30 0
  pc := 0
  pcAltered := false
  cpsr := ⟨false, false, false, false, true, true, false, .supervisor⟩
  spsr := ⟨0, 0, 0x10, 0, 0⟩
  cycles := 0
  halted := none
  mem := []
  regions := Config.resetRegions
  sched := Scheduler.powerOn
  clockRate := 1
  costModel := .default
  draws := 0

end Sys2Proof.Machine
end

