-- ==== Sys2Proof/Machine/Memory.lean ====
section
/-!
DEFINITION. Bytes and Regions (spec 20_memory.md). The buffers of all buffer-backed Regions stand in one list of
bytes at their addresses; the widths of R61 and R62 and the byte order of R70 are fixed here, once.
-/

namespace Sys2Proof.Machine

/-! ### One byte -/

/-- The byte at an address: the listed one, else what an unlisted address reads as (log entry 3). -/
def readByte : Memory → Nat → Byte
  | [], _ => Config.unlistedByte
  | (k, x) :: rest, a => if k = a then x else readByte rest a

/-- Store one byte and keep the canonical form. -/
def writeByte : Memory → Nat → Byte → Memory
  | [], a, b => if b = Config.unlistedByte then [] else [(a, b)]
  | (k, x) :: rest, a, b =>
    if k < a then (k, x) :: writeByte rest a b
    else if k = a then (if b = Config.unlistedByte then rest else (a, b) :: rest)
    else if b = Config.unlistedByte then (k, x) :: rest
    else (a, b) :: (k, x) :: rest

/-- Store a list of bytes at rising addresses. -/
def writeBytes : Memory → Nat → List Byte → Memory
  | m, _, [] => m
  | m, a, b :: rest => writeBytes (writeByte m a b) (a + 1) rest

/-- Forget the bytes of an extent: they read as unlisted again. -/
def clearExtent (m : Memory) (base size : Nat) : Memory :=
  m.filter (fun c => !(decide (base ≤ c.1) && decide (c.1 < base + size)))

/-! ### The three widths -/

/-- `DataType` (R15, R60). -/
inductive Width
  | byte | halfword | word
  deriving DecidableEq, Repr

/-- The width in bytes, the `n` of R61. -/
def Width.bytes : Width → Nat
  | .byte => 1
  | .halfword => 2
  | .word => 4

/-- `addr & ~(n - 1)` (R61, R71). -/
def alignTo (w : Width) (addr : Word) : Word := addr &&& ~~~(BitVec.ofNat 32 (w.bytes - 1))

/-- `v & (2^(8n) - 1)` (R61, R62). -/
def maskTo (w : Width) (v : Word) : Word := v &&& BitVec.ofNat 32 (2 ^ (8 * w.bytes) - 1)

/-- The little-endian datum whose first byte is at `a` (R70). -/
def readDatum (m : Memory) (a : Nat) : Width → Word
  | .byte => cat 32 0#24 (readByte m a)
  | .halfword => cat 32 0#16 (cat 16 (readByte m (a + 1)) (readByte m a))
  | .word => wordOfBytes (readByte m a) (readByte m (a + 1)) (readByte m (a + 2)) (readByte m (a + 3))

/-- Place a datum little-endian, its first byte at `a` (R70). -/
def writeDatum (m : Memory) (a : Nat) (w : Width) (v : Word) : Memory :=
  writeBytes m a ((bytesOfWord v).take w.bytes)

/-! ### Regions -/

/-- `base <= a < base + size` (R61, R72). -/
def regionHolds (r : Region) (a : Nat) : Bool := decide (r.base ≤ a) && decide (a < r.base + r.size)

/-- The Region that answers for an address: a linear scan of the list (R72). -/
def regionAt (regions : List Region) (a : Nat) : Option Region := regions.find? (fun r => regionHolds r a)

/-- The geometry that R67 requires of every Region. -/
def goodGeometry (r : Region) : Bool :=
  decide (0 < r.size) && decide (r.base + r.size ≤ 2 ^ 32) && decide (r.base % 4 = 0) && decide (r.size % 4 = 0)

/-- Two extents `[b1, e1)` and `[b2, e2)` intersect iff `b1 < e2` and `b2 < e1` (R68). -/
def intersects (r q : Region) : Bool :=
  decide (r.base < q.base + q.size) && decide (q.base < r.base + r.size)

/-- Whether the Region owns a buffer (R65). -/
def buffered : RegionKind → Bool
  | .ram | .noWrite | .noRead => true
  | .device _ => false

/-- The images fit the Region's buffer (R66). -/
def imagesFit (r : Region) (images : List Image) : Bool :=
  images.all (fun im => decide (im.offset + im.bytes.length ≤ r.size))

/-- Pre-seed a buffer from its images, in order (R66). -/
def placeImages (r : Region) : List Image → Memory → Memory
  | [], m => m
  | im :: rest, m => placeImages r rest (writeBytes m (r.base + im.offset) im.bytes)

/-- `Memory.Map(region) -> bool` (R68) of a Region whose buffer is built from `images` (R66). A request that R66 or
R67 tells a model to refuse changes nothing and answers `false` (log entry 18). -/
def mapRegion (r : Region) (images : List Image) (s : State) : Bool × State :=
  if !(goodGeometry r && imagesFit r images) then (false, s)
  else if s.regions.any (fun q => intersects r q) then (false, s)
  else
    (true, { s with
      regions := s.regions ++ [r]
      mem := if buffered r.kind then placeImages r images s.mem else s.mem })

/-- Place images in the buffer of a mapped Region (R66, R340): the pre-seeding of a buffer that a platform has already
mapped. A request that does not fit changes nothing (log entry 18). -/
def loadImages (r : Region) (images : List Image) (s : State) : State :=
  if s.regions.contains r && buffered r.kind && imagesFit r images then { s with mem := placeImages r images s.mem }
  else s

/-- `Memory.Unmap(region) -> bool` (R69). The buffer goes with its Region (log entry 17). -/
def unmapRegion (r : Region) (s : State) : Bool × State :=
  if s.regions.contains r then
    (true, { s with regions := s.regions.erase r, mem := clearExtent s.mem r.base r.size })
  else (false, s)

end Sys2Proof.Machine
end

