-- ==== Sys2Proof/Machine/Facade.lean ====
section
/-!
DEFINITION. The scheduler's functions that out-of-scope code calls (spec 49_scheduler.md R322, R323, R332 to R339):
callbacks, the event bus, the request lines. Nothing here reads or writes a register or the CPSR (R333, R336).
-/

namespace Sys2Proof.Machine

/-- `now = cycles / clockRate` (R325), which `GetTickCount` returns. -/
def now (s : State) : Rat := (s.cycles : Rat) / s.clockRate

/-- Insert a record after the last one with `dueTime <= rec.dueTime` (R322, R328). -/
def insertDue (rec : Callback) : List Callback → List Callback
  | [] => [rec]
  | q :: rest => if q.dueTime ≤ rec.dueTime then q :: insertDue rec rest else rec :: q :: rest

/-- `RegisterCallback(timeout, periodic, handler) -> handle` (R322); the handle is the `nextHandle` of the state it
is called in. A negative timeout is refused: nothing changes (D36; log entry 18). -/
def registerCallback (timeout : Rat) (periodic : Bool) (handler : Nat) (s : State) : State :=
  if timeout < 0 then s
  else
    { s with sched := { s.sched with
        queue := insertDue ⟨s.sched.nextHandle, now s + timeout, timeout, periodic, handler, false⟩ s.sched.queue
        nextHandle := s.sched.nextHandle + 1 } }

/-- Mark the records of a handle cancelled. -/
def cancel (handle : Nat) (recs : List Callback) : List Callback :=
  recs.map (fun r => if r.handle = handle then { r with cancelled := true } else r)

/-- A live record of the handle: queued, or popped by the running drain (R323). -/
def live (handle : Nat) (s : State) : Bool :=
  (s.sched.queue ++ s.sched.again).any (fun r => (r.handle == handle) && !r.cancelled)

/-- `UnregisterCallback(handle) -> bool` (R323). -/
def unregisterCallback (handle : Nat) (s : State) : Bool × State :=
  (live handle s,
    { s with sched := { s.sched with
        queue := cancel handle s.sched.queue
        again := cancel handle s.sched.again } })

/-- `on(name, handler)` (R332). -/
def subscribe (name handler : Nat) (s : State) : State :=
  { s with sched := { s.sched with subs := s.sched.subs ++ [(name, handler)] } }

/-- The handlers of `subs[name]` in subscription order (R320, R332). -/
def subscribers (name : Nat) (s : State) : List Nat :=
  (s.sched.subs.filter (fun p => p.1 == name)).map Prod.snd

/-- `RaiseEvent(name, sender, args)` (R332), rendered as an output trace (D32; log entry 16). -/
def raiseEvent (name sender : Nat) (args : List Word) (s : State) : State :=
  { s with sched := { s.sched with trace := s.sched.trace ++ [⟨name, sender, args, subscribers name s⟩] } }

/-- Drive the line `fiq` (R339). -/
def setFiqLine (active : Bool) (s : State) : State := { s with sched := { s.sched with fiq := active } }

/-- Drive the line `irq` (R339). -/
def setIrqLine (active : Bool) (s : State) : State := { s with sched := { s.sched with irq := active } }

/-- One call of out-of-scope code (R333, R334, R336). -/
def facadeCall : FacadeCall → State → State
  | .setFiq active, s => setFiqLine active s
  | .setIrq active, s => setIrqLine active s
  | .registerCallback timeout periodic handler, s => registerCallback timeout periodic handler s
  | .unregisterCallback handle, s => (unregisterCallback handle s).2
  | .raiseEvent name sender args, s => raiseEvent name sender args s

/-- The calls that a piece of out-of-scope code makes, in time order. -/
def facadeCalls (calls : List FacadeCall) (s : State) : State := calls.foldl (fun t c => facadeCall c t) s

/-- One call of a Device inside `OnRegister` or `OnUnregister` (R337, R338). -/
def registrationCall : RegistrationCall → State → State
  | .facade call, s => facadeCall call s
  | .map region images, s => (mapRegion region images s).2
  | .unmap region, s => (unmapRegion region s).2

/-- The calls of one registration method, in time order. -/
def registrationCalls (calls : List RegistrationCall) (s : State) : State :=
  calls.foldl (fun t c => registrationCall c t) s

/-- Take the next free value: the draw number, and the state with the counter advanced (log entry 10). -/
def nextDraw (s : State) : Nat × State := (s.draws, { s with draws := s.draws + 1 })

end Sys2Proof.Machine
end

