-- ==== Sys2Proof/Machine/Ops.lean ====
section
/-!
DEFINITION. The shared operations of the Cpu: register access through the mode (spec 10_state.md), the status
registers, the bus (20_memory.md R61, R62), taking an exception and returning from one (60_exceptions.md R353,
R365), interrupt sampling and the bookkeeping around an instruction (40_execution_cycle.md).
-/

namespace Sys2Proof.Machine

/-- The outcome of a step or of a part of one. -/
abbrev Result := Host.Outcome State Fault Refusal

/-- `r`, then `k` on its next state; a fault or a refusal ends the step. -/
def thenDo (r : Result) (k : State → Result) : Result :=
  match r with
  | .next s => k s
  | .fault e => .fault e
  | .refused e => .refused e

/-- A fatal error (R12, R375), in the state that the step has reached. -/
def fatal (kind : Fatal) (s : State) : Result := .fault (.fatal kind ⟨s.sched, s.draws⟩)

/-! ### General registers -/

/-- `bank(mode)` (R24). -/
def bankOf : Mode → Bank
  | .user | .system => .usr
  | .fiq => .fiq
  | .irq => .irq
  | .supervisor => .svc
  | .abort => .abt
  | .undefined => .und

/-- Where R13 of a bank stands in `State.gpr`; R14 stands after it (R22). -/
def bankSlot : Bank → Nat
  | .usr => 13
  | .fiq => 20
  | .irq => 22
  | .svc => 24
  | .abt => 26
  | .und => 28

/-- The physical register that `x[r]` names in a mode, for `r` from 0 to 14 (R25). -/
def phys (m : Mode) (r : Reg) : Fin 30 :=
  if r < 8#4 then Fin.ofNat 30 r.toNat
  else if r < 13#4 then Fin.ofNat 30 (if m = .fiq then r.toNat + 7 else r.toNat)
  else if r = 13#4 then Fin.ofNat 30 (bankSlot (bankOf m))
  else Fin.ofNat 30 (bankSlot (bankOf m) + 1)

/-- Write a physical register. -/
def setGpr (p : Fin 30) (v : Word) (s : State) : State := { s with gpr := s.gpr.set p v }

/-- Read `x[r]` (R12, R25); R15 reads the program counter, which is `A + 8` while an instruction runs (R31). -/
def reg (s : State) (r : Reg) : Word := if r = 15#4 then s.pc else s.gpr[phys s.cpsr.mode r]

/-- `UserReg[r]` (R275): the bank usr, whatever the mode. -/
def userReg (s : State) (r : Reg) : Word := if r = 15#4 then s.pc else s.gpr[phys .user r]

/-- Write `x[15]` (R32): aligned, or a fatal AlignmentError; the write marks the PC as altered. -/
def writePc (v : Word) (s : State) : Result :=
  if fld 0 2 v = 0#2 then .next { s with pc := v, pcAltered := true } else fatal .alignmentError s

/-- Write `x[r]` (R12). -/
def setReg (r : Reg) (v : Word) (s : State) : Result :=
  if r = 15#4 then writePc v s else .next (setGpr (phys s.cpsr.mode r) v s)

/-! ### Status registers -/

/-- The mode numbers (R36). -/
def modeNumber : Mode → BitVec 5
  | .user => 0b10000
  | .fiq => 0b10001
  | .irq => 0b10010
  | .supervisor => 0b10011
  | .abort => 0b10111
  | .undefined => 0b11011
  | .system => 0b11111

/-- The mode of a mode number; every other number is illegal (R36). -/
def modeOfNumber (n : BitVec 5) : Option Mode :=
  if n = 0b10000 then some .user
  else if n = 0b10001 then some .fiq
  else if n = 0b10010 then some .irq
  else if n = 0b10011 then some .supervisor
  else if n = 0b10111 then some .abort
  else if n = 0b11011 then some .undefined
  else if n = 0b11111 then some .system
  else none

/-- `PsrWord(CPSR)` (R35); bits 27 to 8 read as 0 (R40). -/
def psrWord (p : Psr) : Word :=
  cat 32 (flag p.n) <| cat 31 (flag p.z) <| cat 30 (flag p.c) <| cat 29 (flag p.v) <| cat 28 0#20 <|
    cat 8 (flag p.i) <| cat 7 (flag p.f) <| cat 6 (flag p.t) (modeNumber p.mode)

/-- `LoadCpsr(w)` (R38, R39). -/
def loadCpsr (w : Word) (s : State) : Result :=
  if bit 5 w then fatal .unsupportedState s
  else
    match modeOfNumber (fld 0 5 w) with
    | none => fatal .unsupportedState s
    | some m => .next { s with cpsr := ⟨bit 31 w, bit 30 w, bit 29 w, bit 28 w, bit 7 w, bit 6 w, false, m⟩ }

/-- The SPSR of a bank (R41); the bank usr has none (R42). -/
def spsrOf (b : Bank) (p : SavedPsrs) : Option Word :=
  match b with
  | .usr => none
  | .fiq => some p.fiq
  | .irq => some p.irq
  | .svc => some p.svc
  | .abt => some p.abt
  | .und => some p.und

/-- Write the SPSR of a bank; a no-op for the bank usr (R42). -/
def withSpsr (b : Bank) (w : Word) (p : SavedPsrs) : SavedPsrs :=
  match b with
  | .usr => p
  | .fiq => { p with fiq := w }
  | .irq => { p with irq := w }
  | .svc => { p with svc := w }
  | .abt => { p with abt := w }
  | .und => { p with und := w }

/-- Read `SPSR` (R41): the word, and the state after. In User and System mode the spec gives the read no value, so
the word is free (log entry 7). -/
def readSpsr (s : State) : Word × State :=
  match spsrOf (bankOf s.cpsr.mode) s.spsr with
  | some w => (w, s)
  | none => (Config.absentSpsr s.draws, { s with draws := s.draws + 1 })

/-- Write `SPSR` (R41, R42). -/
def setSpsr (w : Word) (s : State) : State := { s with spsr := withSpsr (bankOf s.cpsr.mode) w s.spsr }

/-! ### The bus -/

/-- `MemRead(addr, n)` (R61): the value, or `none` for `BadAddress`, and the state after. A Device's answer is free,
also whether it is `BadAddress` (R64; log entries 8 and 26), and its code's facade calls happen now (R77). -/
def memRead (s : State) (addr : Word) (w : Width) : Option Word × State :=
  let a := (alignTo w addr).toNat
  match regionAt s.regions a with
  | none => (none, s)
  | some r =>
    match r.kind with
    | .noRead => (none, s)
    | .ram | .noWrite => (some (readDatum s.mem a w), s)
    | .device id =>
      let reply := Config.deviceRead s.draws s.cycles id (BitVec.ofNat 32 (a - r.base)) w.bytes
      (reply.value.map (maskTo w), facadeCalls reply.calls { s with draws := s.draws + 1 })

/-- `MemWrite(addr, n, v)` (R62): the state after, and whether the write succeeded or is `BadAddress`; a Device's
answer is free, as for `memRead`. A failed write changes no byte of memory (R63). -/
def memWrite (s : State) (addr : Word) (w : Width) (v : Word) : State × Bool :=
  let a := (alignTo w addr).toNat
  match regionAt s.regions a with
  | none => (s, false)
  | some r =>
    match r.kind with
    | .noWrite => (s, false)
    | .ram | .noRead => ({ s with mem := writeDatum s.mem a w v }, true)
    | .device id =>
      let receipt := Config.deviceWrite s.draws s.cycles id (BitVec.ofNat 32 (a - r.base)) w.bytes (maskTo w v)
      (facadeCalls receipt.calls { s with draws := s.draws + 1 }, receipt.accepted)

/-! ### Exceptions -/

/-- The seven exception kinds (R350). -/
inductive Exception
  | reset | undefined | software | prefetch | data | irq | fiq
  deriving DecidableEq, Repr

/-- The value of a kind: its vector (R350). -/
def vectorOf : Exception → Word
  | .reset => 0x00
  | .undefined => 0x04
  | .software => 0x08
  | .prefetch => 0x0C
  | .data => 0x10
  | .irq => 0x18
  | .fiq => 0x1C

/-- The target mode of a kind (R351). -/
def targetMode : Exception → Mode
  | .reset => .supervisor
  | .undefined => .undefined
  | .software => .supervisor
  | .prefetch => .abort
  | .data => .abort
  | .irq => .irq
  | .fiq => .fiq

/-- The status that a kind enters with (R353, R355): flags kept, I = 1, T = 0, F = 1 for Reset and FIQ only. -/
def entryPsr (kind : Exception) (p : Psr) : Psr :=
  { p with
    i := true
    f := match kind with
      | .reset | .fiq => true
      | .undefined | .software | .prefetch | .data | .irq => p.f
    t := false
    mode := targetMode kind }

/-- What a kind saves in R14 of its mode, from R15 at the call (R354); Reset saves nothing. -/
def linkValue (kind : Exception) (pc : Word) : Option Word :=
  match kind with
  | .reset => none
  | .data => some pc
  | .undefined | .software | .prefetch | .irq | .fiq => some (pc - 4)

/-- `RaiseException(kind)` (R353). The step that calls it ends. -/
def raiseException (kind : Exception) (s : State) : State :=
  let m := targetMode kind
  let linked := match linkValue kind s.pc with
    | none => s
    | some v => setGpr (phys m 14#4) v s
  { linked with
    spsr := withSpsr (bankOf m) (psrWord s.cpsr) s.spsr
    cpsr := entryPsr kind s.cpsr
    pc := vectorOf kind
    pcAltered := true }

/-- The status word of an exception return (R199, R274, R365): the SPSR. Where it is a free word and the mode is
User, its mode field is kept at User, since only exception entry leaves User mode (R371; log entry 7). -/
def returnWord (m : Mode) (w : Word) : Word := if m = .user then cat 32 (fld 5 27 w) (modeNumber .user) else w

/-- `LoadCpsr(SPSR)` of an exception return (R199, R274, R365). -/
def restoreCpsr (s : State) : Result :=
  loadCpsr (returnWord s.cpsr.mode (readSpsr s).1) (readSpsr s).2

/-- `SampleInterrupts()` (R150): FIQ, then IRQ, each test on the CPSR as it then is. -/
def sampleInterrupts (s : State) : State :=
  let t := if s.sched.fiq && !s.cpsr.f then raiseException .fiq s else s
  if t.sched.irq && !t.cpsr.i then raiseException .irq t else t

/-! ### Around an instruction -/

/-- A step begins: the mark is cleared and R15 is `A + 8` (R140, R144). -/
def enterExecute (s : State) : State := { s with pc := s.pc + 8, pcAltered := false }

/-- A step ends: the roll-back unless the PC was altered (R144), and the cost (R148). -/
def finish (cost : Nat) (s : State) : State :=
  { s with pc := if s.pcAltered then s.pc else s.pc - 4, cycles := s.cycles + cost }

/-- Drop the mark, which is no state between steps (R32). -/
def clearMark (s : State) : State := { s with pcAltered := false }

/-- The host applies Reset (R390, R391), also to a halted machine, which then runs again. -/
def hostReset (s : State) : State := clearMark (raiseException .reset { s with halted := none })

/-- The unspecified general registers of a halted machine (U1). Irreducible, so that no proof builds the vector. -/
@[irreducible] def haltedGprs (draws : Nat) : Vector Word 30 := Vector.ofFn fun p => Config.haltedWord draws p.val

/-- The unspecified status of a halted machine; T is 0 and the mode a legal one (log entry 9). -/
def haltedPsr (w : Word) : Psr :=
  ⟨bit 31 w, bit 30 w, bit 29 w, bit 28 w, bit 7 w, bit 6 w, false, (modeOfNumber (fld 0 5 w)).getD .user⟩

/-- The memory `m` with unspecified bytes in its buffers (U1). -/
def haltedMemory (draws : Nat) (regions : List Region) (m : Memory) : Memory :=
  (Config.haltedBytes draws).foldl
    (fun m c =>
      match regionAt regions c.1 with
      | some r => if buffered r.kind then writeByte m c.1 c.2 else m
      | none => m) m

/-- The machine that a failing step from `s` leaves (R153): every register and every byte of memory with unspecified
contents (U1); the cycle total, the Regions and the parameters of `s`; and the Scheduler that the failing step's
Devices left (R77; the model's choice: log entry 9). -/
def haltState (kind : Fatal) (left : Outside) (s : State) : State where
  gpr := haltedGprs left.draws
  pc := Config.haltedWord left.draws 30 &&& ~~~3
  pcAltered := false
  cpsr := haltedPsr (Config.haltedWord left.draws 31)
  spsr := ⟨Config.haltedWord left.draws 32, Config.haltedWord left.draws 33, Config.haltedWord left.draws 34,
    Config.haltedWord left.draws 35, Config.haltedWord left.draws 36⟩
  cycles := s.cycles
  halted := some kind
  mem := haltedMemory left.draws s.regions s.mem
  regions := s.regions
  sched := left.sched
  clockRate := s.clockRate
  costModel := s.costModel
  draws := left.draws + 1

end Sys2Proof.Machine
end

