-- ==== Sys2Proof/Machine/Flags.lean ====
section
/-!
DEFINITION. The condition test (spec 40_execution_cycle.md R142) and every flag computation: the logical operations,
the addition and the subtraction family (41_data_processing.md R180 to R182), the multiplies (43_multiply.md R237).
-/

namespace Sys2Proof.Machine

/-- `CondHolds` (R142); NV holds always (R146). -/
def condHolds (c : Cond) (p : Psr) : Bool :=
  match c with
  | .eq => p.z
  | .ne => !p.z
  | .cs => p.c
  | .cc => !p.c
  | .mi => p.n
  | .pl => !p.n
  | .vs => p.v
  | .vc => !p.v
  | .hi => p.c && !p.z
  | .ls => !p.c || p.z
  | .ge => p.n == p.v
  | .lt => p.n != p.v
  | .gt => !p.z && (p.n == p.v)
  | .le => p.z || (p.n != p.v)
  | .al => true
  | .nv => true

/-- Run the body of an instruction if its condition holds; else nothing changes but the PC's advance, which the
step makes (R140, R143). -/
def guarded (c : Cond) (s : State) (body : State → Result) : Result :=
  if condHolds c s.cpsr then body s else .next s

/-- The four condition flags. -/
structure Flags where
  n : Bool
  z : Bool
  c : Bool
  v : Bool
  deriving DecidableEq, Repr

/-- A result and the flags that go with it. -/
structure Alu where
  value : Word
  flags : Flags
  deriving DecidableEq, Repr

/-- `CPSR.N,Z,C,V <- flags`: a load of the CPSR with only these four changed (R34, R37). -/
def setFlags (fl : Flags) (s : State) : State :=
  { s with cpsr := { s.cpsr with n := fl.n, z := fl.z, c := fl.c, v := fl.v } }

/-- The flags of S = 1, nothing of S = 0. -/
def setFlagsIf (sf : Bool) (fl : Flags) (s : State) : State := if sf then setFlags fl s else s

/-- A logical operation's result (R180): C is the shifter carry-out `sc`, V is unchanged. -/
def logical (result : Word) (sc : Bool) (p : Psr) : Alu :=
  ⟨result, bit 31 result, result == 0#32, sc, p.v⟩

/-- The addition family (R181): `t = U(op1) + U(op2) + cin`. -/
def addWith (op1 op2 : Word) (cin : Bool) : Alu :=
  let t := op1.toNat + op2.toNat + cin.toNat
  let result := BitVec.ofNat 32 t
  ⟨result, bit 31 result, result == 0#32, decide (2 ^ 32 ≤ t), bit 31 (~~~(op1 ^^^ op2) &&& (op1 ^^^ result))⟩

/-- The subtraction family (R182): `d = U(a) - U(b) - (1 - cin)`. -/
def subWith (a b : Word) (cin : Bool) : Alu :=
  let d : Int := (a.toNat : Int) - (b.toNat : Int) - (1 - (cin.toNat : Int))
  let result := BitVec.ofInt 32 d
  ⟨result, bit 31 result, result == 0#32, decide (0 ≤ d), bit 31 ((a ^^^ b) &&& (a ^^^ result))⟩

/-- The flags of a short multiply (R237): C is free (log entry 6), V is unchanged. -/
def multiplyFlags (result : Word) (draw : Nat) (rm rs : Word) (p : Psr) : Flags :=
  ⟨bit 31 result, result == 0#32, Config.mulCarry draw rm rs, p.v⟩

/-- The flags of a long multiply (R237): C and V are free (log entry 6). -/
def longMultiplyFlags (result : BitVec 64) (draw : Nat) (rm rs : Word) : Flags :=
  ⟨bit 63 result, result == 0#64, Config.mulCarry draw rm rs, Config.mulOverflow draw rm rs⟩

end Sys2Proof.Machine
end

