-- ==== Sys2Proof/Machine/Operands.lean ====
section
/-!
DEFINITION. Every operand form: the barrel shifter and operand 2 (spec 41_data_processing.md R171 to R178), the
inverse of the immediate form (30_encoding.md R125), the addresses of formats SINGLE and HALFWORD (44_load_store.md
R241, R253) and of the block transfers (45_block_transfer.md R270, R271).
-/

namespace Sys2Proof.Machine

/-! ### The barrel shifter -/

/-- An operand and the shifter carry-out. -/
structure Shifted where
  value : Word
  carry : Bool
  deriving DecidableEq, Repr

/-- A word whose every bit is `b`. -/
def allBits (b : Bool) : Word := if b then 0xFFFFFFFF else 0

/-- RRX (R178): `(Cin << 31) | (m >> 1)`, carry-out `m[0]`. -/
def rrx (m : Word) (cin : Bool) : Shifted := ⟨cat 32 (flag cin) (fld 1 31 m), bit 0 m⟩

/-- A shift by `n` from 1 to 31 (R172 and R173, second columns; R174 to R177). -/
def shiftMid (ty : ShiftType) (m : Word) (n : Nat) : Shifted :=
  match ty with
  | .lsl => ⟨m <<< n, bit (32 - n) m⟩
  | .lsr => ⟨m >>> n, bit (n - 1) m⟩
  | .asr => ⟨m.sshiftRight n, bit (n - 1) m⟩
  | .ror => ⟨m.rotateRight n, bit (n - 1) m⟩

/-- `ShiftImm(type, m, n, Cin)` (R172). -/
def shiftImm (ty : ShiftType) (m : Word) (n : Nat) (cin : Bool) : Shifted :=
  if n = 0 then
    match ty with
    | .lsl => ⟨m, cin⟩
    | .lsr => ⟨0, bit 31 m⟩
    | .asr => ⟨allBits (bit 31 m), bit 31 m⟩
    | .ror => rrx m cin
  else shiftMid ty m n

/-- `ShiftReg(type, m, n, Cin)` (R173), `n` from 0 to 255. -/
def shiftReg (ty : ShiftType) (m : Word) (n : Nat) (cin : Bool) : Shifted :=
  if n = 0 then ⟨m, cin⟩
  else if n < 32 then shiftMid ty m n
  else
    match ty with
    | .lsl => ⟨0, if n = 32 then bit 0 m else false⟩
    | .lsr => ⟨0, if n = 32 then bit 31 m else false⟩
    | .asr => ⟨allBits (bit 31 m), bit 31 m⟩
    | .ror => if n % 32 = 0 then ⟨m, bit 31 m⟩ else shiftMid .ror m (n % 32)

/-- `ROR(zext_8(imm8), 2 * rot)` (R171, R223). -/
def rotatedImm (rot : BitVec 4) (imm8 : BitVec 8) : Word := (imm8.setWidth 32).rotateRight (2 * rot.toNat)

/-- The pair `(op2, sc)` (R171 to R173), with `Cin` the C flag. -/
def operand2 (o : Operand2) (s : State) : Shifted :=
  match o with
  | .imm rot imm8 =>
    ⟨rotatedImm rot imm8, if rot = 0#4 then s.cpsr.c else bit 31 (rotatedImm rot imm8)⟩
  | .shiftImm rm ty n => shiftImm ty (reg s rm) n.toNat s.cpsr.c
  | .shiftReg rm ty rs => shiftReg ty (reg s rm) (fld 0 8 (reg s rs)).toNat s.cpsr.c

/-! ### `EncodeImmediate` (R125), part of the ALU/Shifter unit -/

/-- What `EncodeImmediate` returns. -/
structure EncodedImm where
  imm8 : BitVec 8
  rotate : Nat
  negated : Bool
  deriving DecidableEq, Repr

/-- The smallest rotation from `rotate` on, of the `left` that remain, under which `w` is an 8-bit value. -/
def searchRotation (w : Word) (rotate : Nat) : Nat → Option (BitVec 8 × Nat)
  | 0 => none
  | left + 1 =>
    let c := w.rotateRight (32 - 2 * rotate)
    if c.toNat < 256 then some (c.setWidth 8, rotate) else searchRotation w (rotate + 1) left

/-- `EncodeImmediate(v)` (R125, D26): the non-negated form first, the smallest rotation within a form. -/
def encodeImmediate (v : Word) : Option EncodedImm :=
  match searchRotation v 0 16 with
  | some (imm8, rotate) => some ⟨imm8, rotate, false⟩
  | none =>
    match searchRotation (~~~v) 0 16 with
    | some (imm8, rotate) => some ⟨imm8, rotate, true⟩
    | none => none

/-! ### Addresses of single transfers -/

/-- What R241 and R253 compute: the address accessed, the value for write-back, and whether it happens. -/
structure Access where
  addr   : Word
  target : Word
  wb     : Bool
  deriving DecidableEq, Repr

/-- The four address forms of P, U and W over a base and an offset (R241, R253). -/
def accessOf (p u w : Bool) (base offset : Word) : Access :=
  let target := if u then base + offset else base - offset
  ⟨if p then target else base, target, !p || w⟩

/-- The offset of format SINGLE (R241); the carry-out is discarded. -/
def singleOffset (o : Offset) (s : State) : Word :=
  match o with
  | .imm off => off.setWidth 32
  | .reg rm ty n => (shiftImm ty (reg s rm) n.toNat s.cpsr.c).value

/-- The address of format SINGLE (R241). -/
def singleAccess (a : Address) (s : State) : Access := accessOf a.p a.u a.w (reg s a.rn) (singleOffset a.off s)

/-- The post-indexed address of the T variants (R246 to R249): P = 0, W = 1. -/
def translatedAccess (u : Bool) (rn : Reg) (off : Offset) (s : State) : Access :=
  accessOf false u true (reg s rn) (singleOffset off s)

/-- The offset of format HALFWORD (R253). -/
def halfOffset (o : HalfOffset) (s : State) : Word :=
  match o with
  | .imm off => off.setWidth 32
  | .reg rm => reg s rm

/-- The address of format HALFWORD (R253); P = 0 with W = 1 is the post-indexed form (R258 (b)). -/
def halfAccess (a : HalfAddress) (s : State) : Access := accessOf a.p a.u a.w (reg s a.rn) (halfOffset a.off s)

/-- `ROR(w, 8 * addr[1:0])` (R242, R290). -/
def rotateByAddress (addr w : Word) : Word := w.rotateRight (8 * (fld 0 2 addr).toNat)

/-- `sext_8(v)` of the low byte (R256). -/
def sext8 (v : Word) : Word := (fld 0 8 v).signExtend 32

/-- `sext_16(v)` of the low halfword (R257). -/
def sext16 (v : Word) : Word := (fld 0 16 v).signExtend 32

/-! ### Block transfers -/

/-- The listed registers in ascending order (R270). -/
def listed (list : BitVec 16) : List Reg :=
  ((List.range 16).filter (fun k => bit k list)).map (BitVec.ofNat 4)

/-- `4n` as a word. -/
def blockSize (list : BitVec 16) : Word := BitVec.ofNat 32 (4 * (listed list).length)

/-- `start` (R271). -/
def blockStart (p u : Bool) (base : Word) (list : BitVec 16) : Word :=
  match p, u with
  | false, true => base
  | true, true => base + 4
  | false, false => base - blockSize list + 4
  | true, false => base - blockSize list

/-- `wbval` (R271). -/
def blockWriteBack (u : Bool) (base : Word) (list : BitVec 16) : Word :=
  if u then base + blockSize list else base - blockSize list

/-- The addresses `start + 4i` of `n` words (R271, R281). -/
def wordAddresses (start : Word) (n : Nat) : List Word :=
  (List.range n).map (fun k => start + BitVec.ofNat 32 (4 * k))

end Sys2Proof.Machine
end

