-- ==== Sys2Proof/Machine/BlockTransfer.lean ====
section
/-!
DEFINITION. LDM and STM (spec 45_block_transfer.md R270 to R281).
-/

namespace Sys2Proof.Machine

/-- Read words one by one (R272): the values, or `none` at the first `BadAddress`, and the state after the reads that
were made, which have had a Device's side effects (R278). -/
def readWords : List Word → State → Option (List Word) × State
  | [], s => (some [], s)
  | a :: rest, s =>
    match memRead s a .word with
    | (none, s1) => (none, s1)
    | (some v, s1) =>
      match readWords rest s1 with
      | (none, s2) => (none, s2)
      | (some vs, s2) => (some (v :: vs), s2)

/-- Write words one by one (R273): the state after, and whether every access succeeded. At the first `BadAddress`
nothing more is written, and earlier stores stay (R278). -/
def writeWords : List (Word × Word) → State → State × Bool
  | [], s => (s, true)
  | (a, v) :: rest, s =>
    match memWrite s a .word v with
    | (s1, false) => (s1, false)
    | (s1, true) => writeWords rest s1

/-- Write the loaded registers other than R15 as a mode sees them (R272, R275). -/
def loadRegisters (m : Mode) : List (Reg × Word) → State → State
  | [], s => s
  | (r, v) :: rest, s => loadRegisters m rest (if r = 15#4 then s else setGpr (phys m r) v s)

/-- `if W = 1: x[Rn] <- wbval` (R272, R273). -/
def blockBase (w : Bool) (rn : Reg) (wbval : Word) (s : State) : Result :=
  if w then setReg rn wbval s else .next s

/-- The end of an LDM that read its words (R272): the base, the registers (of the bank usr for S = 1 without R15,
R275), then R15, before it `LoadCpsr(SPSR)` for S = 1 (R274). -/
def finishLoad (sBit w : Bool) (rn : Reg) (list : BitVec 16) (wbval : Word) (vs : List Word) (s : State) : Result :=
  let m := s.cpsr.mode
  let toMode := if sBit && !bit 15 list then .user else m
  thenDo (blockBase w rn wbval s) fun t =>
    let loaded := loadRegisters toMode ((listed list).zip vs) t
    if bit 15 list then
      let target := vs.getLastD 0
      if sBit then thenDo (restoreCpsr loaded) (writePc target) else writePc target loaded
    else .next loaded

/-- LDM (R272). -/
def execLdm (c : Cond) (p u sBit w : Bool) (rn : Reg) (list : BitVec 16) (s : State) : Result :=
  guarded c s fun s =>
    let base := reg s rn
    match readWords (wordAddresses (blockStart p u base list) (listed list).length) s with
    | (none, s1) => .next (raiseException .data s1)
    | (some vs, s1) => finishLoad sBit w rn list (blockWriteBack u base list) vs s1

/-- The value that STM stores for its `k`-th register (R273, R275, R276, R280). -/
def storedValue (sBit w : Bool) (rn : Reg) (wbval : Word) (k : Nat) (r : Reg) (s : State) : Word :=
  if r = rn ∧ w = true ∧ 0 < k then wbval
  else if sBit then userReg s r
  else reg s r

/-- The values that STM stores, all taken before any store (R273). -/
def storedValues (sBit w : Bool) (rn : Reg) (list : BitVec 16) (wbval : Word) (s : State) : List Word :=
  (listed list).mapIdx (fun k r => storedValue sBit w rn wbval k r s)

/-- STM (R273). -/
def execStm (c : Cond) (p u sBit w : Bool) (rn : Reg) (list : BitVec 16) (s : State) : Result :=
  guarded c s fun s =>
    let base := reg s rn
    let wbval := blockWriteBack u base list
    let addrs := wordAddresses (blockStart p u base list) (listed list).length
    match writeWords (addrs.zip (storedValues sBit w rn list wbval s)) s with
    | (s1, false) => .next (raiseException .data s1)
    | (s1, true) => blockBase w rn wbval s1

end Sys2Proof.Machine
end

