-- ==== Sys2Proof/Machine/Branch.lean ====
section
/-!
DEFINITION. B, BL and BX (spec 47_branch.md R295 to R299).
-/

namespace Sys2Proof.Machine

/-- `R15 + (sext_24(offset24) << 2)` (R295); R15 is `A + 8`. -/
def branchTarget (offset24 : BitVec 24) (s : State) : Word := s.pc + (offset24.signExtend 32 <<< 2)

/-- B (R295). -/
def execB (c : Cond) (offset24 : BitVec 24) (s : State) : Result :=
  guarded c s fun s => writePc (branchTarget offset24 s) s

/-- BL (R296). -/
def execBl (c : Cond) (offset24 : BitVec 24) (s : State) : Result :=
  guarded c s fun s => thenDo (setReg 14#4 (s.pc - 4) s) (writePc (branchTarget offset24 s))

/-- BX (R297): an odd address asks for Thumb state, which is fatal (R298). -/
def execBx (c : Cond) (rm : Reg) (s : State) : Result :=
  guarded c s fun s => if bit 0 (reg s rm) then fatal .unsupportedState s else writePc (reg s rm) s

end Sys2Proof.Machine
end

