-- ==== Sys2Proof/Machine/DataProcessing.lean ====
section
/-!
DEFINITION. The sixteen data-processing instructions (spec 41_data_processing.md R179 to R201).
-/

namespace Sys2Proof.Machine

/-- The end of R179 for the operations with a destination: `x[Rd]` and, if S = 1, the flags; with Rd = 15 a PC
write (R200), before it `LoadCpsr(SPSR)` if S = 1 (R199). -/
def writeAlu (sf : Bool) (rd : Reg) (r : Alu) (s : State) : Result :=
  if rd = 15#4 then
    if sf then thenDo (restoreCpsr s) (writePc r.value) else writePc r.value s
  else .next (setFlagsIf sf r.flags (setGpr (phys s.cpsr.mode rd) r.value s))

/-- The end of R179 for TST, TEQ, CMP, CMN: the flags, and no destination (R201). -/
def writeCompare (r : Alu) (s : State) : Result := .next (setFlags r.flags s)

/-- AND (R183). -/
def execAnd (c : Cond) (sf : Bool) (rd rn : Reg) (o : Operand2) (s : State) : Result :=
  guarded c s fun s =>
    let x := operand2 o s
    writeAlu sf rd (logical (reg s rn &&& x.value) x.carry s.cpsr) s

/-- EOR (R184). -/
def execEor (c : Cond) (sf : Bool) (rd rn : Reg) (o : Operand2) (s : State) : Result :=
  guarded c s fun s =>
    let x := operand2 o s
    writeAlu sf rd (logical (reg s rn ^^^ x.value) x.carry s.cpsr) s

/-- SUB (R185). -/
def execSub (c : Cond) (sf : Bool) (rd rn : Reg) (o : Operand2) (s : State) : Result :=
  guarded c s fun s => writeAlu sf rd (subWith (reg s rn) (operand2 o s).value true) s

/-- RSB (R186). -/
def execRsb (c : Cond) (sf : Bool) (rd rn : Reg) (o : Operand2) (s : State) : Result :=
  guarded c s fun s => writeAlu sf rd (subWith (operand2 o s).value (reg s rn) true) s

/-- ADD (R187). -/
def execAdd (c : Cond) (sf : Bool) (rd rn : Reg) (o : Operand2) (s : State) : Result :=
  guarded c s fun s => writeAlu sf rd (addWith (reg s rn) (operand2 o s).value false) s

/-- ADC (R188). -/
def execAdc (c : Cond) (sf : Bool) (rd rn : Reg) (o : Operand2) (s : State) : Result :=
  guarded c s fun s => writeAlu sf rd (addWith (reg s rn) (operand2 o s).value s.cpsr.c) s

/-- SBC (R189). -/
def execSbc (c : Cond) (sf : Bool) (rd rn : Reg) (o : Operand2) (s : State) : Result :=
  guarded c s fun s => writeAlu sf rd (subWith (reg s rn) (operand2 o s).value s.cpsr.c) s

/-- RSC (R190). -/
def execRsc (c : Cond) (sf : Bool) (rd rn : Reg) (o : Operand2) (s : State) : Result :=
  guarded c s fun s => writeAlu sf rd (subWith (operand2 o s).value (reg s rn) s.cpsr.c) s

/-- TST (R191). -/
def execTst (c : Cond) (rn : Reg) (o : Operand2) (s : State) : Result :=
  guarded c s fun s =>
    let x := operand2 o s
    writeCompare (logical (reg s rn &&& x.value) x.carry s.cpsr) s

/-- TEQ (R192). -/
def execTeq (c : Cond) (rn : Reg) (o : Operand2) (s : State) : Result :=
  guarded c s fun s =>
    let x := operand2 o s
    writeCompare (logical (reg s rn ^^^ x.value) x.carry s.cpsr) s

/-- CMP (R193). -/
def execCmp (c : Cond) (rn : Reg) (o : Operand2) (s : State) : Result :=
  guarded c s fun s => writeCompare (subWith (reg s rn) (operand2 o s).value true) s

/-- CMN (R194). -/
def execCmn (c : Cond) (rn : Reg) (o : Operand2) (s : State) : Result :=
  guarded c s fun s => writeCompare (addWith (reg s rn) (operand2 o s).value false) s

/-- ORR (R195). -/
def execOrr (c : Cond) (sf : Bool) (rd rn : Reg) (o : Operand2) (s : State) : Result :=
  guarded c s fun s =>
    let x := operand2 o s
    writeAlu sf rd (logical (reg s rn ||| x.value) x.carry s.cpsr) s

/-- MOV (R196). -/
def execMov (c : Cond) (sf : Bool) (rd : Reg) (o : Operand2) (s : State) : Result :=
  guarded c s fun s =>
    let x := operand2 o s
    writeAlu sf rd (logical x.value x.carry s.cpsr) s

/-- BIC (R197). -/
def execBic (c : Cond) (sf : Bool) (rd rn : Reg) (o : Operand2) (s : State) : Result :=
  guarded c s fun s =>
    let x := operand2 o s
    writeAlu sf rd (logical (reg s rn &&& ~~~x.value) x.carry s.cpsr) s

/-- MVN (R198). -/
def execMvn (c : Cond) (sf : Bool) (rd : Reg) (o : Operand2) (s : State) : Result :=
  guarded c s fun s =>
    let x := operand2 o s
    writeAlu sf rd (logical (~~~x.value) x.carry s.cpsr) s

end Sys2Proof.Machine
end

