-- ==== Sys2Proof/Machine/LoadStore.lean ====
section
/-!
DEFINITION. The single data transfers (spec 44_load_store.md): LDR, LDRB, STR, STRB and their T variants, LDRH,
LDRSB, LDRSH, STRH, and the halfword words that do nothing (R258 (a)).
-/

namespace Sys2Proof.Machine

/-- `if wb: x[Rn] <- target` (R242, R250). -/
def writeBack (rn : Reg) (t : Access) (s : State) : Result := if t.wb then setReg rn t.target s else .next s

/-- A load (R242, R243, R254, R256, R257): one read; on `BadAddress` a Data Abort with nothing written (R251); else
the base is written back, then Rd gets `extend addr value` (R250, R252). -/
def loadTransfer (w : Width) (extend : Word → Word → Word) (rd rn : Reg) (t : Access) (s : State) : Result :=
  match memRead s t.addr w with
  | (none, s1) => .next (raiseException .data s1)
  | (some v, s1) => thenDo (writeBack rn t s1) (setReg rd (extend t.addr v))

/-- A store (R244, R245, R255): one write of `v`, which is read before the write-back (R250); on `BadAddress` a Data
Abort with nothing written (R251). -/
def storeTransfer (w : Width) (v : Word) (rn : Reg) (t : Access) (s : State) : Result :=
  match memWrite s t.addr w v with
  | (s1, false) => .next (raiseException .data s1)
  | (s1, true) => writeBack rn t s1

/-- The value of an unsigned byte or halfword load: the bus's value, whatever the address (R243, R254). -/
def plainValue (_addr v : Word) : Word := v

/-- LDR (R242). -/
def execLdr (c : Cond) (rd : Reg) (a : Address) (s : State) : Result :=
  guarded c s fun s => loadTransfer .word rotateByAddress rd a.rn (singleAccess a s) s

/-- LDRB (R243). -/
def execLdrb (c : Cond) (rd : Reg) (a : Address) (s : State) : Result :=
  guarded c s fun s => loadTransfer .byte plainValue rd a.rn (singleAccess a s) s

/-- STR (R244). -/
def execStr (c : Cond) (rd : Reg) (a : Address) (s : State) : Result :=
  guarded c s fun s => storeTransfer .word (reg s rd) a.rn (singleAccess a s) s

/-- STRB (R245). -/
def execStrb (c : Cond) (rd : Reg) (a : Address) (s : State) : Result :=
  guarded c s fun s => storeTransfer .byte (reg s rd) a.rn (singleAccess a s) s

/-- LDRT (R246): the post-indexed LDR. -/
def execLdrt (c : Cond) (rd : Reg) (u : Bool) (rn : Reg) (off : Offset) (s : State) : Result :=
  guarded c s fun s => loadTransfer .word rotateByAddress rd rn (translatedAccess u rn off s) s

/-- LDRBT (R247): the post-indexed LDRB. -/
def execLdrbt (c : Cond) (rd : Reg) (u : Bool) (rn : Reg) (off : Offset) (s : State) : Result :=
  guarded c s fun s => loadTransfer .byte plainValue rd rn (translatedAccess u rn off s) s

/-- STRT (R248): the post-indexed STR. -/
def execStrt (c : Cond) (rd : Reg) (u : Bool) (rn : Reg) (off : Offset) (s : State) : Result :=
  guarded c s fun s => storeTransfer .word (reg s rd) rn (translatedAccess u rn off s) s

/-- STRBT (R249): the post-indexed STRB. -/
def execStrbt (c : Cond) (rd : Reg) (u : Bool) (rn : Reg) (off : Offset) (s : State) : Result :=
  guarded c s fun s => storeTransfer .byte (reg s rd) rn (translatedAccess u rn off s) s

/-- LDRH (R254). -/
def execLdrh (c : Cond) (rd : Reg) (a : HalfAddress) (s : State) : Result :=
  guarded c s fun s => loadTransfer .halfword plainValue rd a.rn (halfAccess a s) s

/-- STRH (R255). -/
def execStrh (c : Cond) (rd : Reg) (a : HalfAddress) (s : State) : Result :=
  guarded c s fun s => storeTransfer .halfword (reg s rd) a.rn (halfAccess a s) s

/-- LDRSB (R256). -/
def execLdrsb (c : Cond) (rd : Reg) (a : HalfAddress) (s : State) : Result :=
  guarded c s fun s => loadTransfer .byte (fun _ v => sext8 v) rd a.rn (halfAccess a s) s

/-- LDRSH (R257). -/
def execLdrsh (c : Cond) (rd : Reg) (a : HalfAddress) (s : State) : Result :=
  guarded c s fun s => loadTransfer .halfword (fun _ v => sext16 v) rd a.rn (halfAccess a s) s

/-- L = 0, SH = 0b10 (R258 (a), D34): no access and no change but the PC's advance. -/
def execHalfwordL0Sh2 (c : Cond) (_rd : Reg) (_a : HalfAddress) (s : State) : Result :=
  guarded c s fun s => .next s

/-- L = 0, SH = 0b11 (R258 (a), D34): no access and no change but the PC's advance. -/
def execHalfwordL0Sh3 (c : Cond) (_rd : Reg) (_a : HalfAddress) (s : State) : Result :=
  guarded c s fun s => .next s

end Sys2Proof.Machine
end

