-- ==== Sys2Proof/Machine/Multiply.lean ====
section
/-!
DEFINITION. The six multiplies (spec 43_multiply.md R230 to R238). Sources are read before any destination is
written; a destination R15 is a PC write (R238; log entry 13).
-/

namespace Sys2Proof.Machine

/-- The end of MUL and MLA: `x[Rd]`, and the flags if S = 1, whose C is the next free value (R237). -/
def writeShort (sf : Bool) (rd rs rm : Reg) (result : Word) (s : State) : Result :=
  let fl := multiplyFlags result s.draws (reg s rm) (reg s rs) s.cpsr
  if sf then
    thenDo (setReg rd result { s with draws := s.draws + 1 }) fun t => .next (setFlags fl t)
  else setReg rd result s

/-- The end of the long forms: `x[RdLo]`, then `x[RdHi]` (R238), and the flags if S = 1 (R237). -/
def writeLong (sf : Bool) (rdHi rdLo rs rm : Reg) (p : BitVec 64) (s : State) : Result :=
  let fl := longMultiplyFlags p s.draws (reg s rm) (reg s rs)
  let both (t : State) := thenDo (setReg rdLo (fld 0 32 p) t) (setReg rdHi (fld 32 32 p))
  if sf then thenDo (both { s with draws := s.draws + 1 }) fun t => .next (setFlags fl t)
  else both s

/-- The 64-bit value `x[RdHi] : x[RdLo]` (R234, R236). -/
def accumulator (rdHi rdLo : Reg) (s : State) : Nat := (reg s rdHi).toNat * 2 ^ 32 + (reg s rdLo).toNat

/-- MUL (R231). -/
def execMul (c : Cond) (sf : Bool) (rd rs rm : Reg) (s : State) : Result :=
  guarded c s fun s => writeShort sf rd rs rm (reg s rm * reg s rs) s

/-- MLA (R232). -/
def execMla (c : Cond) (sf : Bool) (rd rn rs rm : Reg) (s : State) : Result :=
  guarded c s fun s => writeShort sf rd rs rm (reg s rm * reg s rs + reg s rn) s

/-- UMULL (R233). -/
def execUmull (c : Cond) (sf : Bool) (rdHi rdLo rs rm : Reg) (s : State) : Result :=
  guarded c s fun s =>
    writeLong sf rdHi rdLo rs rm (BitVec.ofNat 64 ((reg s rm).toNat * (reg s rs).toNat)) s

/-- UMLAL (R234). -/
def execUmlal (c : Cond) (sf : Bool) (rdHi rdLo rs rm : Reg) (s : State) : Result :=
  guarded c s fun s =>
    writeLong sf rdHi rdLo rs rm
      (BitVec.ofNat 64 ((reg s rm).toNat * (reg s rs).toNat + accumulator rdHi rdLo s)) s

/-- SMULL (R235). -/
def execSmull (c : Cond) (sf : Bool) (rdHi rdLo rs rm : Reg) (s : State) : Result :=
  guarded c s fun s =>
    writeLong sf rdHi rdLo rs rm (BitVec.ofInt 64 ((reg s rm).toInt * (reg s rs).toInt)) s

/-- SMLAL (R236). -/
def execSmlal (c : Cond) (sf : Bool) (rdHi rdLo rs rm : Reg) (s : State) : Result :=
  guarded c s fun s =>
    writeLong sf rdHi rdLo rs rm
      (BitVec.ofInt 64 ((reg s rm).toInt * (reg s rs).toInt + (accumulator rdHi rdLo s : Int))) s

end Sys2Proof.Machine
end

