-- ==== Sys2Proof/Machine/StatusTransfer.lean ====
section
/-!
DEFINITION. MRS and MSR in both classes (spec 42_psr_transfer.md R220 to R226).
-/

namespace Sys2Proof.Machine

/-- MRS (R221): `r` selects the SPSR. -/
def moveFromStatus (r : Bool) (rd : Reg) (s : State) : Result :=
  if r then setReg rd (readSpsr s).1 (readSpsr s).2
  else setReg rd (psrWord s.cpsr) s

/-- The mask of the four byte fields (R222). -/
def fieldMask (fields : BitVec 4) : Word :=
  (if bit 3 fields then 0xFF000000 else 0) ||| (if bit 2 fields then 0x00FF0000 else 0)
    ||| (if bit 1 fields then 0x0000FF00 else 0) ||| (if bit 0 fields then 0x000000FF else 0)

/-- The mask of a write to the CPSR: in User mode the flags only (R224). -/
def cpsrMask (m : Mode) (fields : BitVec 4) : Word :=
  if m = .user then fieldMask fields &&& 0xFF000000 else fieldMask fields

/-- `(old & ~mask) | (operand & mask)` (R222). -/
def merge (mask old operand : Word) : Word := (old &&& ~~~mask) ||| (operand &&& mask)

/-- MSR with its operand (R222); to an SPSR that does not exist it writes nothing (R225). -/
def moveToStatus (r : Bool) (fields : BitVec 4) (operand : Word) (s : State) : Result :=
  if r then
    match spsrOf (bankOf s.cpsr.mode) s.spsr with
    | some old => .next (setSpsr (merge (fieldMask fields) old operand) s)
    | none => .next s
  else loadCpsr (merge (cpsrMask s.cpsr.mode fields) (psrWord s.cpsr) operand) s

/-- MRS, class 0 (R221). -/
def execMrs (c : Cond) (r : Bool) (rd : Reg) (s : State) : Result :=
  guarded c s fun s => moveFromStatus r rd s

/-- MSR, register operand (R222). -/
def execMsr (c : Cond) (r : Bool) (fields : BitVec 4) (rm : Reg) (s : State) : Result :=
  guarded c s fun s => moveToStatus r fields (reg s rm) s

/-- MRS, class 1: bit 25 is ignored (R221, R226). -/
def execMrsI (c : Cond) (r : Bool) (rd : Reg) (s : State) : Result :=
  guarded c s fun s => moveFromStatus r rd s

/-- MSR, immediate operand (R223). -/
def execMsrI (c : Cond) (r : Bool) (fields : BitVec 4) (rot : BitVec 4) (imm8 : BitVec 8) (s : State) : Result :=
  guarded c s fun s => moveToStatus r fields (rotatedImm rot imm8) s

end Sys2Proof.Machine
end

