-- ==== Sys2Proof/Machine/Swap.lean ====
section
/-!
DEFINITION. SWP and SWPB (spec 46_swap.md R290 to R293).
-/

namespace Sys2Proof.Machine

/-- A swap (R290): the address and the source are read first; a read, then a write of the same datum; a Data Abort
if either fails, with Rd not written (R292); what a Device did in either access stays (R408). -/
def swapTransfer (w : Width) (extend : Word → Word → Word) (rn rd rm : Reg) (s : State) : Result :=
  let addr := reg s rn
  let src := reg s rm
  match memRead s addr w with
  | (none, s1) => .next (raiseException .data s1)
  | (some v, s1) =>
    match memWrite s1 addr w src with
    | (s2, false) => .next (raiseException .data s2)
    | (s2, true) => setReg rd (extend addr v) s2

/-- SWP (R290). -/
def execSwp (c : Cond) (rn rd rm : Reg) (s : State) : Result :=
  guarded c s fun s => swapTransfer .word rotateByAddress rn rd rm s

/-- SWPB (R291). -/
def execSwpb (c : Cond) (rn rd rm : Reg) (s : State) : Result :=
  guarded c s fun s => swapTransfer .byte (fun _ v => v) rn rd rm s

end Sys2Proof.Machine
end

