-- ==== Sys2Proof/Machine/Traps.lean ====
section
/-!
DEFINITION. The instructions whose whole effect is a guest exception (spec 48_swi_coproc_undefined.md R305 to R310):
SWI, the undefined space, and the five coprocessor instructions. No field but the condition is read.
-/

namespace Sys2Proof.Machine

/-- SWI (R305). -/
def execSwi (c : Cond) (_comment : BitVec 24) (s : State) : Result :=
  guarded c s fun s => .next (raiseException .software s)

/-- UNDEFINED (R306). -/
def execUndefined (c : Cond) (_hi : BitVec 20) (_lo : BitVec 4) (s : State) : Result :=
  guarded c s fun s => .next (raiseException .undefined s)

/-- CDP (R308). -/
def execCdp (c : Cond) (_opcode1 _crn _crd _cpNum : BitVec 4) (_opcode2 : BitVec 3) (_crm : BitVec 4)
    (s : State) : Result :=
  guarded c s fun s => .next (raiseException .undefined s)

/-- LDC (R309). -/
def execLdc (c : Cond) (_p _u _n _w : Bool) (_rn _crd _cpNum : BitVec 4) (_offset8 : BitVec 8)
    (s : State) : Result :=
  guarded c s fun s => .next (raiseException .undefined s)

/-- STC (R309). -/
def execStc (c : Cond) (_p _u _n _w : Bool) (_rn _crd _cpNum : BitVec 4) (_offset8 : BitVec 8)
    (s : State) : Result :=
  guarded c s fun s => .next (raiseException .undefined s)

/-- MRC (R310). -/
def execMrc (c : Cond) (_opcode1 : BitVec 3) (_crn _rd _cpNum : BitVec 4) (_opcode2 : BitVec 3) (_crm : BitVec 4)
    (s : State) : Result :=
  guarded c s fun s => .next (raiseException .undefined s)

/-- MCR (R310). -/
def execMcr (c : Cond) (_opcode1 : BitVec 3) (_crn _rd _cpNum : BitVec 4) (_opcode2 : BitVec 3) (_crm : BitVec 4)
    (s : State) : Result :=
  guarded c s fun s => .next (raiseException .undefined s)

end Sys2Proof.Machine
end

