-- ==== Sys2Proof/Machine/Dispatch.lean ====
section
/-!
DEFINITION. `Handler[Decode(iw)](iw)` (spec 40_execution_cycle.md R140): the meaning of every instruction, run in a
state in which R15 is `A + 8` (R31). Each meaning tests the condition first.
-/

namespace Sys2Proof.Machine

def exec (i : Instr) (s : State) : Host.Outcome State Fault Refusal :=
  match i with
  | .bx c rm => Sys2Proof.Machine.execBx c rm s
  | .swp c rn rd rm => Sys2Proof.Machine.execSwp c rn rd rm s
  | .swpb c rn rd rm => Sys2Proof.Machine.execSwpb c rn rd rm s
  | .mul c sf rd rs rm => Sys2Proof.Machine.execMul c sf rd rs rm s
  | .mla c sf rd rn rs rm => Sys2Proof.Machine.execMla c sf rd rn rs rm s
  | .umull c sf rdHi rdLo rs rm => Sys2Proof.Machine.execUmull c sf rdHi rdLo rs rm s
  | .umlal c sf rdHi rdLo rs rm => Sys2Proof.Machine.execUmlal c sf rdHi rdLo rs rm s
  | .smull c sf rdHi rdLo rs rm => Sys2Proof.Machine.execSmull c sf rdHi rdLo rs rm s
  | .smlal c sf rdHi rdLo rs rm => Sys2Proof.Machine.execSmlal c sf rdHi rdLo rs rm s
  | .ldrh c rd a => Sys2Proof.Machine.execLdrh c rd a s
  | .strh c rd a => Sys2Proof.Machine.execStrh c rd a s
  | .ldrsb c rd a => Sys2Proof.Machine.execLdrsb c rd a s
  | .ldrsh c rd a => Sys2Proof.Machine.execLdrsh c rd a s
  | .halfwordL0Sh2 c rd a => Sys2Proof.Machine.execHalfwordL0Sh2 c rd a s
  | .halfwordL0Sh3 c rd a => Sys2Proof.Machine.execHalfwordL0Sh3 c rd a s
  | .mrs c r rd => Sys2Proof.Machine.execMrs c r rd s
  | .msr c r fields rm => Sys2Proof.Machine.execMsr c r fields rm s
  | .mrsI c r rd => Sys2Proof.Machine.execMrsI c r rd s
  | .msrI c r fields rot imm8 => Sys2Proof.Machine.execMsrI c r fields rot imm8 s
  | .and c sf rd rn op2 => Sys2Proof.Machine.execAnd c sf rd rn op2 s
  | .eor c sf rd rn op2 => Sys2Proof.Machine.execEor c sf rd rn op2 s
  | .sub c sf rd rn op2 => Sys2Proof.Machine.execSub c sf rd rn op2 s
  | .rsb c sf rd rn op2 => Sys2Proof.Machine.execRsb c sf rd rn op2 s
  | .add c sf rd rn op2 => Sys2Proof.Machine.execAdd c sf rd rn op2 s
  | .adc c sf rd rn op2 => Sys2Proof.Machine.execAdc c sf rd rn op2 s
  | .sbc c sf rd rn op2 => Sys2Proof.Machine.execSbc c sf rd rn op2 s
  | .rsc c sf rd rn op2 => Sys2Proof.Machine.execRsc c sf rd rn op2 s
  | .tst c rn op2 => Sys2Proof.Machine.execTst c rn op2 s
  | .teq c rn op2 => Sys2Proof.Machine.execTeq c rn op2 s
  | .cmp c rn op2 => Sys2Proof.Machine.execCmp c rn op2 s
  | .cmn c rn op2 => Sys2Proof.Machine.execCmn c rn op2 s
  | .orr c sf rd rn op2 => Sys2Proof.Machine.execOrr c sf rd rn op2 s
  | .mov c sf rd op2 => Sys2Proof.Machine.execMov c sf rd op2 s
  | .bic c sf rd rn op2 => Sys2Proof.Machine.execBic c sf rd rn op2 s
  | .mvn c sf rd op2 => Sys2Proof.Machine.execMvn c sf rd op2 s
  | .undefined c hi lo => Sys2Proof.Machine.execUndefined c hi lo s
  | .ldrt c rd u rn off => Sys2Proof.Machine.execLdrt c rd u rn off s
  | .ldrbt c rd u rn off => Sys2Proof.Machine.execLdrbt c rd u rn off s
  | .strt c rd u rn off => Sys2Proof.Machine.execStrt c rd u rn off s
  | .strbt c rd u rn off => Sys2Proof.Machine.execStrbt c rd u rn off s
  | .ldr c rd a => Sys2Proof.Machine.execLdr c rd a s
  | .ldrb c rd a => Sys2Proof.Machine.execLdrb c rd a s
  | .str c rd a => Sys2Proof.Machine.execStr c rd a s
  | .strb c rd a => Sys2Proof.Machine.execStrb c rd a s
  | .ldm c p u sBit w rn list => Sys2Proof.Machine.execLdm c p u sBit w rn list s
  | .stm c p u sBit w rn list => Sys2Proof.Machine.execStm c p u sBit w rn list s
  | .b c offset24 => Sys2Proof.Machine.execB c offset24 s
  | .bl c offset24 => Sys2Proof.Machine.execBl c offset24 s
  | .ldc c p u n w rn crd cpNum offset8 => Sys2Proof.Machine.execLdc c p u n w rn crd cpNum offset8 s
  | .stc c p u n w rn crd cpNum offset8 => Sys2Proof.Machine.execStc c p u n w rn crd cpNum offset8 s
  | .swi c comment => Sys2Proof.Machine.execSwi c comment s
  | .cdp c opcode1 crn crd cpNum opcode2 crm => Sys2Proof.Machine.execCdp c opcode1 crn crd cpNum opcode2 crm s
  | .mrc c opcode1 crn rd cpNum opcode2 crm => Sys2Proof.Machine.execMrc c opcode1 crn rd cpNum opcode2 crm s
  | .mcr c opcode1 crn rd cpNum opcode2 crm => Sys2Proof.Machine.execMcr c opcode1 crn rd cpNum opcode2 crm s

end Sys2Proof.Machine
end

