-- ==== Sys2Proof/Machine/Timing.lean ====
section
/-!
DEFINITION. The parameter `Cost` (spec 40_execution_cycle.md R147): the default table of 70_reset_and_hazards.md
R410, or an uninterpreted cost from 1 up (log entry 5). No rule of the Cpu reads a cost but the cycle total (R148).
-/

namespace Sys2Proof.Machine

/-- `m` of R410, from `v = x[Rs]`: the high bits are all zeros or, for the signed forms, all ones. -/
def multiplierCycles (signed : Bool) (v : Word) : Nat :=
  if v >>> 8 = 0#32 ∨ (signed = true ∧ v.sshiftRight 8 = 0xFFFFFFFF#32) then 1
  else if v >>> 16 = 0#32 ∨ (signed = true ∧ v.sshiftRight 16 = 0xFFFFFFFF#32) then 2
  else if v >>> 24 = 0#32 ∨ (signed = true ∧ v.sshiftRight 24 = 0xFFFFFFFF#32) then 3
  else 4

/-- One more for a register-specified shift (R410). -/
def shiftCost : Operand2 → Nat
  | .imm .. | .shiftImm .. => 0
  | .shiftReg .. => 1

/-- Two more when R15 is the destination (R410: "when R15 is written", "when R15 is loaded"). -/
def pcCost (rd : Reg) : Nat := if rd = 15#4 then 2 else 0

/-- The default table for an instruction whose condition holds (R410). A load with R15 as destination has the two more
also where it takes a Data Abort, and so has not loaded R15: the model's choice (log entry 28). -/
def tableCost (i : Instr) (s : State) : Nat :=
  match i with
  | .and _ _ rd _ o | .eor _ _ rd _ o | .sub _ _ rd _ o | .rsb _ _ rd _ o | .add _ _ rd _ o | .adc _ _ rd _ o
  | .sbc _ _ rd _ o | .rsc _ _ rd _ o | .orr _ _ rd _ o | .bic _ _ rd _ o | .mov _ _ rd o | .mvn _ _ rd o =>
    1 + shiftCost o + pcCost rd
  | .tst _ _ o | .teq _ _ o | .cmp _ _ o | .cmn _ _ o => 1 + shiftCost o
  | .mrs .. | .msr .. | .mrsI .. | .msrI .. => 1
  | .mul _ _ _ rs _ => 1 + multiplierCycles true (reg s rs)
  | .mla _ _ _ _ rs _ => 2 + multiplierCycles true (reg s rs)
  | .smull _ _ _ _ rs _ => 2 + multiplierCycles true (reg s rs)
  | .umull _ _ _ _ rs _ => 2 + multiplierCycles false (reg s rs)
  | .smlal _ _ _ _ rs _ => 3 + multiplierCycles true (reg s rs)
  | .umlal _ _ _ _ rs _ => 3 + multiplierCycles false (reg s rs)
  | .b .. | .bl .. | .bx .. => 3
  | .ldr _ rd _ | .ldrb _ rd _ | .ldrh _ rd _ | .ldrsb _ rd _ | .ldrsh _ rd _ => 3 + pcCost rd
  | .ldrt _ rd _ _ _ | .ldrbt _ rd _ _ _ => 3 + pcCost rd
  | .str .. | .strb .. | .strt .. | .strbt .. | .strh .. => 2
  | .ldm _ _ _ _ _ _ list => (listed list).length + 2 + (if bit 15 list then 2 else 0)
  | .stm _ _ _ _ _ _ list => (listed list).length + 1
  | .swp .. | .swpb .. => 4
  | .swi .. => 3
  | .undefined .. | .cdp .. | .ldc .. | .stc .. | .mrc .. | .mcr .. => 4
  | .halfwordL0Sh2 .. | .halfwordL0Sh3 .. => 1

/-- The cost of an instruction (R147) with word `iw`, in the state it starts in: 1 if its condition fails (R143). -/
def cost (i : Instr) (iw : Word) (s : State) : Nat :=
  if condHolds i.cond s.cpsr then
    match s.costModel with
    | .default => tableCost i s
    | .uninterpreted => 1 + Config.extraCost s.cycles iw
  else 1

/-- The cost of a Prefetch Abort entry (R358, R410): 3 by the default table, else free, and tied to the cost of no
instruction (log entry 5). -/
def prefetchCost (s : State) : Nat :=
  match s.costModel with
  | .default => 3
  | .uninterpreted => 1 + Config.prefetchExtra s.cycles

end Sys2Proof.Machine
end

