-- ==== Sys2Proof/Machine/Cycle.lean ====
section
/-!
DEFINITION. `Step()` (spec 40_execution_cycle.md R140 to R144, 60_exceptions.md R358) and the placing of a program's
word for the host's interface.
-/

namespace Sys2Proof.Machine

/-- `FetchFault(A)` (R358): the Prefetch Abort, from R15 = `A + 8`, at its cost. -/
def fetchFault (s : State) : State := finish (prefetchCost s) (raiseException .prefetch (enterExecute s))

/-- The instruction of a fetched word, in the state after the fetch: R15 becomes `A + 8`, the meaning runs, the PC is
rolled back unless it was altered, the cost is added (R140, R144, R148). -/
def runWord (iw : Word) (s : State) : Result :=
  let t := enterExecute s
  let i := decodeWord iw
  thenDo (exec i t) fun u => .next (finish (cost i iw t) u)

/-- `Step()` (R140): fetch the word at R15 (R141), then run it. -/
def cpuStep (s : State) : Result :=
  match memRead s s.pc .word with
  | (none, t) => .next (fetchFault t)
  | (some iw, t) => runWord iw t

/-- One turn of the loop of `Cpu.Run` (R149): `Step()`, then `SampleInterrupts()`. -/
def runTurn (s : State) : Result := thenDo (cpuStep s) fun t => .next (clearMark (sampleInterrupts t))

/-- Whether a word read at an address reaches a buffer, and so can hold a program (R65). -/
def fetchable (s : State) (a : Word) : Bool :=
  match regionAt s.regions a.toNat with
  | some r =>
    match r.kind with
    | .ram | .noWrite => true
    | .noRead | .device _ => false
  | none => false

/-- Place a program's word where the next step fetches it (log entry 12). An address no buffer answers for is given
one word of RAM first. -/
def placeWord (w : Word) (s : State) : State :=
  let a := alignTo .word s.pc
  { s with
    halted := none
    regions := if fetchable s a then s.regions else ⟨a.toNat, 4, .ram⟩ :: s.regions
    mem := writeDatum s.mem a.toNat .word w }

end Sys2Proof.Machine
end

