-- ==== Sys2Proof/Machine/Step.lean ====
section
/-!
DEFINITION. One step of the machine: one turn of the loop of `Cpu.Run` (spec 40_execution_cycle.md R149, log entry
19). A halted machine has no step (60_exceptions.md R375).
-/

namespace Sys2Proof.Machine

/-- One `Step()` and the sampling after it. -/
def step (s : State) : Host.Outcome State Fault Refusal :=
  match s.halted with
  | some kind => .fault (.halted kind)
  | none => runTurn s

/-- The state in which the next step fetches the instruction of the table's bits `w`: every instruction is one
32-bit word, whose bits from `nbits` up are 0 (R100; log entry 12). -/
def State.withFetchWord (s : State) (nbits w : Nat) : State := placeWord (BitVec.ofNat 32 (w % 2 ^ nbits)) s

end Sys2Proof.Machine
end

