-- ==== Sys2Proof/Machine/Run.lean ====
section
/-!
DEFINITION. The outer loops and the host's side: `Cpu.Run` (spec 40_execution_cycle.md R149 to R153), the drain and
`Vm.Run` (49_scheduler.md R324 to R331), Device registration (R337), image loading (R340), the request lines (R339).
-/

namespace Sys2Proof.Machine

/-! ### `Cpu.Run` -/

/-- How a run ends: with its leftover (R151), or in a halted machine (R153, R375). -/
inductive RunResult
  | done (left : Int) (s : State)
  | halted (s : State)
  deriving DecidableEq, Repr

/-- The loop of R149 with `left = budget - consumed`. `turns` bounds the turns; a cost is at least 1 (R147), so a
bound of the budget is never short (R411). -/
def cpuLoop : Nat → Int → State → RunResult
  | 0, left, s => .done left s
  | turns + 1, left, s =>
    if 0 < left then
      match step s with
      | .next t => cpuLoop turns (left - ((t.cycles : Int) - (s.cycles : Int))) t
      | .fault (.fatal kind left) => .halted (haltState kind left s)
      | .fault (.halted _) => .halted s
      | .refused _ => .done left s
    else .done left s

/-- `Cpu.Run(budget) -> leftover` (R149). -/
def cpuRun (budget : Int) (s : State) : RunResult := cpuLoop budget.toNat budget s

/-! ### `Vm.Run` -/

/-- Pop the head of the queue. -/
def popQueue (rest : List Callback) (s : State) : State := { s with sched := { s.sched with queue := rest } }

/-- Put a periodic record by for re-registration (R324). It stands there while its handler runs, so that the
handler can cancel it (R323). -/
def keepAgain (rec : Callback) (s : State) : State :=
  if rec.periodic then { s with sched := { s.sched with again := s.sched.again ++ [rec] } } else s

/-- A handler runs (R324, R333): a free list of facade calls. -/
def runHandler (o : Oracle) (rec : Callback) (s : State) : State :=
  facadeCalls (o.callback s.draws s.cycles rec.handler) { s with draws := s.draws + 1 }

/-- The loop of the drain (R324, R326): the head is popped while it is due, cancelled records are dropped. `fuel`
bounds the pops; `none` means that it ran out (R411: handlers are trusted not to make a drain endless; log entry
21). -/
def drainLoop (o : Oracle) (due : Rat) : Nat → State → Option State
  | fuel, s =>
    match s.sched.queue with
    | [] => some s
    | rec :: rest =>
      if rec.dueTime ≤ due then
        match fuel with
        | 0 => none
        | fuel + 1 =>
          if rec.cancelled then drainLoop o due fuel (popQueue rest s)
          else drainLoop o due fuel (runHandler o rec (keepAgain rec (popQueue rest s)))
      else some s

/-- Re-insert the periodic records that fired and are not cancelled, at `now + span`, in firing order (R324,
R327). -/
def reinsert (due : Rat) (recs : List Callback) (queue : List Callback) : List Callback :=
  recs.foldl
    (fun q rec => if rec.cancelled then q else insertDue { rec with dueTime := due + rec.span } q) queue

/-- The end of a drain (R327). -/
def reregister (due : Rat) (s : State) : State :=
  { s with sched := { s.sched with queue := reinsert due s.sched.again s.sched.queue, again := [] } }

/-- The drain of `Vm.Run` (R324) at `now`, which does not change in it (R325). -/
def drain (o : Oracle) (fuel : Nat) (s : State) : Option State :=
  (drainLoop o (now s) fuel s).map (reregister (now s))

/-- `Vm.Run(cycleBudget) -> leftover` (R324, R331); no drain after a run that met a fatal error or a halted machine
(R375). With a budget of at most 0 the Cpu does not step and the drain runs (R331), also in a halted machine, which is
the model's choice (log entry 27). -/
def vmRun (o : Oracle) (fuel : Nat) (budget : Int) (s : State) : Option RunResult :=
  match cpuRun budget s with
  | .halted t => some (.halted t)
  | .done left t => (drain o fuel t).map (RunResult.done left)

/-! ### The host between runs -/

/-- `RegisterDevice(dev)` (R337). -/
def registerDevice (o : Oracle) (dev : Nat) (s : State) : Bool × State :=
  if s.sched.devices.contains dev then (false, s)
  else
    let reply := o.onRegister s.draws s.cycles dev
    let t := registrationCalls reply.calls { s with draws := s.draws + 1 }
    if reply.accepted then (true, { t with sched := { t.sched with devices := t.sched.devices ++ [dev] } })
    else (false, t)

/-- `UnregisterDevice(dev)` (R337). -/
def unregisterDevice (o : Oracle) (dev : Nat) (s : State) : Bool × State :=
  if s.sched.devices.contains dev then
    let t := registrationCalls (o.onUnregister s.draws s.cycles dev) { s with draws := s.draws + 1 }
    (true, { t with sched := { t.sched with devices := t.sched.devices.erase dev } })
  else (false, s)

/-- How the host builds the memory of a new machine (R340, R392, R395): it maps pre-seeded Regions, or takes the
platform's out, or places images in those that the platform has mapped (log entry 12). -/
inductive BuildAction
  | map (region : Region) (images : List Image)
  | unmap (region : Region)
  | load (region : Region) (images : List Image)
  deriving DecidableEq, Repr

/-- One action of the building. -/
def buildAct : BuildAction → State → State
  | .map region images, s => (mapRegion region images s).2
  | .unmap region, s => (unmapRegion region s).2
  | .load region images, s => loadImages region images s

/-- The machine that the host has built, before the first Reset (R392). Building starts from power-on only: later the
table of Regions changes through Device registration and unregistration alone (R85). -/
def build (acts : List BuildAction) : State := acts.foldl (fun s a => buildAct a s) State.powerOn

/-- What the host does to a built machine between runs (R10, R339, R352, R390): drives the lines, subscribes, registers
Devices and callbacks, resets. -/
inductive HostAction
  | setFiq (active : Bool)
  | setIrq (active : Bool)
  | subscribe (name handler : Nat)
  | registerCallback (timeout : Rat) (periodic : Bool) (handler : Nat)
  | unregisterCallback (handle : Nat)
  | registerDevice (dev : Nat)
  | unregisterDevice (dev : Nat)
  | reset
  deriving DecidableEq, Repr

/-- One action of the host between two runs. -/
def hostAct (o : Oracle) : HostAction → State → State
  | .setFiq active, s => setFiqLine active s
  | .setIrq active, s => setIrqLine active s
  | .subscribe name handler, s => subscribe name handler s
  | .registerCallback timeout periodic handler, s => registerCallback timeout periodic handler s
  | .unregisterCallback handle, s => (unregisterCallback handle s).2
  | .registerDevice dev, s => (registerDevice o dev s).2
  | .unregisterDevice dev, s => (unregisterDevice o dev s).2
  | .reset, s => hostReset s

/-- The actions that may change the table of Regions: registration and unregistration of a Device (R85). -/
def HostAction.mayChangeTable : HostAction → Bool
  | .registerDevice _ | .unregisterDevice _ => true
  | .setFiq _ | .setIrq _ | .subscribe .. | .registerCallback .. | .unregisterCallback _ | .reset => false

end Sys2Proof.Machine
end

