-- ==== Sys2Proof/Safety.lean ====
section
/-!
DEFINITION. The terms of the claims: the invariant of the machine between steps, a run without a fatal error, and
the parts of a state that frames compare.
-/

namespace Sys2Proof.Machine

/-! ### The invariant -/

/-- Every mapped Region has the geometry of R67, and no two overlap (R64). -/
def regionsInv (regions : List Region) : Prop :=
  (∀ r ∈ regions, goodGeometry r = true) ∧ regions.Pairwise (fun r q => intersects r q = false)

/-- Memory has its canonical form, and lists bytes of mapped buffers only (R65). -/
def memoryInv (m : Memory) (regions : List Region) : Prop :=
  Memory.wf m = true ∧ ∀ c ∈ m, ∃ r, regionAt regions c.1 = some r ∧ buffered r.kind = true

/-- The queue is ordered by due time (R320), and every record in play has its own handle, below `nextHandle`. -/
def schedInv (d : Scheduler) : Prop :=
  d.queue.Pairwise (fun p q => p.dueTime ≤ q.dueTime) ∧
  (d.queue ++ d.again).Pairwise (fun p q => p.handle ≠ q.handle) ∧
  ∀ r ∈ d.queue ++ d.again, r.handle < d.nextHandle

/-- What holds also while an instruction runs: R15 is a multiple of 4 (R30, R33), T is 0 (R34), the clock runs (R9),
and the three parts above. -/
def State.Core (s : State) : Prop :=
  fld 0 2 s.pc = 0#2 ∧ s.cpsr.t = false ∧ 0 < s.clockRate ∧
  regionsInv s.regions ∧ memoryInv s.mem s.regions ∧ schedInv s.sched

/-- The invariant between steps: `State.Core`, no mark (R32), and no record waiting for re-registration (R324). -/
def State.Inv (s : State) : Prop := s.Core ∧ s.pcAltered = false ∧ s.sched.again = []

/-! ### Privilege (R369) -/

/-- The six privileged modes. -/
def privileged (m : Mode) : Bool := m != .user

/-! ### Runs -/

/-- `n` steps from `s` reach `t`, none of them ending in a fault or a refusal. -/
def runsTo : Nat → State → State → Prop
  | 0, s, t => s = t
  | n + 1, s, t => ∃ u, step s = .next u ∧ runsTo n u t

/-- No run from `s` ends in a fatal error (R375). -/
def safe (s : State) : Prop := ∀ n t kind left, runsTo n s t → step t ≠ .fault (.fatal kind left)

/-- `i` ends in a fatal error (R375), with the Scheduler as `sched`: what the Devices that it reached left. -/
def endsFatal (kind : Fatal) (sched : Scheduler) (i : Instr) (s : State) : Prop :=
  ∃ draws, exec i s = .fault (.fatal kind ⟨sched, draws⟩)

/-! ### Frames: what an instruction leaves alone -/

/-- Every physical register but the named ones is unchanged. -/
def sameGprsBut (changed : List (Fin 30)) (s t : State) : Prop := ∀ p : Fin 30, p ∉ changed → t.gpr[p] = s.gpr[p]

/-- The four condition flags of a state. -/
def flagsOf (s : State) : Flags := ⟨s.cpsr.n, s.cpsr.z, s.cpsr.c, s.cpsr.v⟩

/-- The status bits other than the condition flags are unchanged. -/
def sameControl (s t : State) : Prop :=
  t.cpsr.i = s.cpsr.i ∧ t.cpsr.f = s.cpsr.f ∧ t.cpsr.t = s.cpsr.t ∧ t.cpsr.mode = s.cpsr.mode

/-- The saved status registers, the cycle total, the halt flag, the Regions and the parameters are unchanged. -/
def sameMachine (s t : State) : Prop :=
  t.spsr = s.spsr ∧ t.cycles = s.cycles ∧ t.halted = s.halted ∧ t.regions = s.regions ∧
  t.clockRate = s.clockRate ∧ t.costModel = s.costModel

/-- Every byte of the address space reads as before. -/
def sameBytes (s t : State) : Prop := ∀ a, readByte t.mem a = readByte s.mem a

/-- Everything but the registers, the current status and the counter of free values is unchanged. -/
def sameElsewhere (s t : State) : Prop := sameMachine s t ∧ sameBytes s t ∧ t.sched = s.sched

/-- The whole effect on registers and control of an instruction with destination `x[rd]`, `rd` other than R15. -/
def wroteRegister (rd : Reg) (v : Word) (s t : State) : Prop :=
  t.gpr[phys s.cpsr.mode rd] = v ∧ sameGprsBut [phys s.cpsr.mode rd] s t ∧
  t.pc = s.pc ∧ t.pcAltered = s.pcAltered ∧ sameControl s t ∧ sameElsewhere s t

/-- The flags are the given ones if S = 1, and unchanged if S = 0. -/
def wroteFlags (sf : Bool) (fl : Flags) (s t : State) : Prop := flagsOf t = if sf then fl else flagsOf s

/-- The whole effect of a branch: R15, with the mark, and nothing else. -/
def wrotePc (v : Word) (s t : State) : Prop :=
  t.pc = v ∧ t.pcAltered = true ∧ sameGprsBut [] s t ∧ t.cpsr = s.cpsr ∧ sameElsewhere s t

/-! ### Exception entry (R353) -/

/-- `t` is `s` after the entry of a kind: the table of R350, row by row. -/
def entered (kind : Exception) (s t : State) : Prop :=
  t.pc = vectorOf kind ∧ t.pcAltered = true ∧ t.cpsr.mode = targetMode kind ∧
  t.cpsr.i = true ∧ t.cpsr.f = (s.cpsr.f || decide (kind = .reset ∨ kind = .fiq)) ∧ t.cpsr.t = false ∧
  flagsOf t = flagsOf s ∧
  spsrOf (bankOf (targetMode kind)) t.spsr = some (psrWord s.cpsr) ∧
  (∀ b, b ≠ bankOf (targetMode kind) → spsrOf b t.spsr = spsrOf b s.spsr) ∧
  (kind ≠ .reset → t.gpr[phys (targetMode kind) 14#4] = if kind = .data then s.pc else s.pc - 4) ∧
  sameGprsBut (if kind = .reset then [] else [phys (targetMode kind) 14#4]) s t ∧
  t.cycles = s.cycles ∧ t.halted = s.halted ∧ t.regions = s.regions ∧ t.clockRate = s.clockRate ∧
  t.costModel = s.costModel ∧ sameBytes s t ∧ t.sched = s.sched

/-! ### Transfers -/

/-- The registers that a write-back changes. -/
def backed (s : State) (rn : Reg) (x : Access) : List (Fin 30) := if x.wb then [phys s.cpsr.mode rn] else []

/-- A load whose read succeeds, with no destination R15: the loaded value, the written-back base, and nothing else but
what a Device's code did to the Scheduler. -/
def loadsAs (i : Instr) (w : Width) (rd rn : Reg) (x : Access) (value : Word → Word) (s : State) : Prop :=
  ∀ v u, memRead s x.addr w = (some v, u) → rd ≠ 15#4 → (x.wb = true → rn ≠ 15#4) →
    ∃ t, exec i s = .next t ∧ t.gpr[phys s.cpsr.mode rd] = value v ∧
      (x.wb = true → rn ≠ rd → t.gpr[phys s.cpsr.mode rn] = x.target) ∧
      sameGprsBut (phys s.cpsr.mode rd :: backed s rn x) s t ∧
      t.pc = s.pc ∧ t.pcAltered = s.pcAltered ∧ t.cpsr = s.cpsr ∧
      sameMachine s t ∧ sameBytes s t ∧ t.sched = u.sched

/-- A load into R15 (R252): a branch to the value if it is aligned, else a fatal AlignmentError. -/
def loadsPcAs (i : Instr) (w : Width) (rn : Reg) (x : Access) (value : Word → Word) (s : State) : Prop :=
  ∀ v u, memRead s x.addr w = (some v, u) → (x.wb = true → rn ≠ 15#4) →
    (fld 0 2 (value v) ≠ 0#2 → endsFatal .alignmentError u.sched i s) ∧
    (fld 0 2 (value v) = 0#2 →
      ∃ t, exec i s = .next t ∧ t.pc = value v ∧ t.pcAltered = true ∧
        (x.wb = true → t.gpr[phys s.cpsr.mode rn] = x.target) ∧ sameGprsBut (backed s rn x) s t ∧
        t.cpsr = s.cpsr ∧ sameMachine s t ∧ sameBytes s t ∧ t.sched = u.sched)

/-- A store whose write succeeds, with no write-back to R15: the written-back base; every byte outside the stored
datum, which starts at the aligned address, reads as before, and memory is what the bus left. -/
def storesAs (i : Instr) (w : Width) (v : Word) (rn : Reg) (x : Access) (s : State) : Prop :=
  ∀ u, memWrite s x.addr w v = (u, true) → (x.wb = true → rn ≠ 15#4) →
    ∃ t, exec i s = .next t ∧ (x.wb = true → t.gpr[phys s.cpsr.mode rn] = x.target) ∧
      sameGprsBut (backed s rn x) s t ∧ t.pc = s.pc ∧ t.pcAltered = s.pcAltered ∧ t.cpsr = s.cpsr ∧
      sameMachine s t ∧ t.mem = u.mem ∧ t.sched = u.sched ∧
      ∀ a, a < (alignTo w x.addr).toNat ∨ (alignTo w x.addr).toNat + w.bytes ≤ a →
        readByte t.mem a = readByte s.mem a

/-! ### Results -/

/-- An instruction with a destination other than R15 completes: the result, the flags if S = 1, and nothing else. -/
def writesResult (i : Instr) (sf : Bool) (rd : Reg) (v : Word) (fl : Flags) (s : State) : Prop :=
  ∃ t, exec i s = .next t ∧ wroteRegister rd v s t ∧ wroteFlags sf fl s t

/-- An instruction completes with the given flags, and changes nothing else (R201). -/
def writesFlags (i : Instr) (fl : Flags) (s : State) : Prop :=
  ∃ t, exec i s = .next t ∧ flagsOf t = fl ∧ sameGprsBut [] s t ∧ t.pc = s.pc ∧ t.pcAltered = s.pcAltered ∧
    sameControl s t ∧ sameElsewhere s t

/-- A PC write of `v` by an instruction that writes nothing else (R32, R200): a branch, or a fatal AlignmentError. -/
def writesPc (i : Instr) (v : Word) (s : State) : Prop :=
  (fld 0 2 v = 0#2 → ∃ t, exec i s = .next t ∧ wrotePc v s t) ∧
  (fld 0 2 v ≠ 0#2 → endsFatal .alignmentError s.sched i s)

/-- The flags of a logical operation (R180). -/
def logicalFlags (result : Word) (sc v : Bool) : Flags := ⟨bit 31 result, decide (result = 0#32), sc, v⟩

/-- The flags of the addition family (R181). -/
def additionFlags (op1 op2 : Word) (cin : Bool) (result : Word) : Flags :=
  ⟨bit 31 result, decide (result = 0#32), decide (2 ^ 32 ≤ op1.toNat + op2.toNat + cin.toNat),
    bit 31 (~~~(op1 ^^^ op2) &&& (op1 ^^^ result))⟩

/-- The flags of the subtraction family (R182), `a` the minuend: no borrow is C = 1. -/
def subtractionFlags (a b : Word) (cin : Bool) (result : Word) : Flags :=
  ⟨bit 31 result, decide (result = 0#32), decide (b.toNat + (1 - cin.toNat) ≤ a.toNat),
    bit 31 ((a ^^^ b) &&& (a ^^^ result))⟩

/-- S, Rd and the result of the twelve data-processing instructions that have a destination (R183 to R190, R195 to
R198). -/
def dataResult (i : Instr) (s : State) : Option (Bool × Reg × Word) :=
  let cin : Word := if s.cpsr.c then 1 else 0
  match i with
  | .and _ sf rd rn o => some (sf, rd, reg s rn &&& (operand2 o s).value)
  | .eor _ sf rd rn o => some (sf, rd, reg s rn ^^^ (operand2 o s).value)
  | .sub _ sf rd rn o => some (sf, rd, reg s rn - (operand2 o s).value)
  | .rsb _ sf rd rn o => some (sf, rd, (operand2 o s).value - reg s rn)
  | .add _ sf rd rn o => some (sf, rd, reg s rn + (operand2 o s).value)
  | .adc _ sf rd rn o => some (sf, rd, reg s rn + (operand2 o s).value + cin)
  | .sbc _ sf rd rn o => some (sf, rd, reg s rn - (operand2 o s).value - (1 - cin))
  | .rsc _ sf rd rn o => some (sf, rd, (operand2 o s).value - reg s rn - (1 - cin))
  | .orr _ sf rd rn o => some (sf, rd, reg s rn ||| (operand2 o s).value)
  | .mov _ sf rd o => some (sf, rd, (operand2 o s).value)
  | .bic _ sf rd rn o => some (sf, rd, reg s rn &&& ~~~(operand2 o s).value)
  | .mvn _ sf rd o => some (sf, rd, ~~~(operand2 o s).value)
  | _ => none

/-! ### Status words -/

/-- The CPSR of a status word with a legal mode number (R35, R38). -/
def psrOf (w : Word) (m : Mode) : Psr := ⟨bit 31 w, bit 30 w, bit 29 w, bit 28 w, bit 7 w, bit 6 w, false, m⟩

/-- `LoadCpsr` refuses the word (R38, R39). -/
def badStatus (w : Word) : Prop := bit 5 w = true ∨ modeOfNumber (fld 0 5 w) = none

/-- An exception return to `v` through the status word `w` (R199, R365): CPSR first, then the PC. -/
def returnsTo (i : Instr) (w v : Word) (s : State) : Prop :=
  (badStatus w → endsFatal .unsupportedState s.sched i s) ∧
  ∀ m, bit 5 w = false → modeOfNumber (fld 0 5 w) = some m →
    (fld 0 2 v ≠ 0#2 → endsFatal .alignmentError s.sched i s) ∧
    (fld 0 2 v = 0#2 → ∃ t, exec i s = .next t ∧ t.cpsr = psrOf w m ∧ t.pc = v ∧ t.pcAltered = true ∧
      sameGprsBut [] s t ∧ sameElsewhere s t)

/-- Bit by bit, what a status word becomes when MSR writes the selected byte fields (R222). -/
def mergedStatus (fields : BitVec 4) (flagsOnly : Bool) (old operand w : Word) : Prop :=
  ∀ k, k < 32 → bit k w = if bit (k / 8) fields && (!flagsOnly || decide (24 ≤ k)) then bit k operand else bit k old

/-! ### Multiplies -/

/-- The flags of a flag-setting multiply (R237): N and Z as given, V unchanged by the short forms, C anything. -/
def multiplied (sf : Bool) (n z short : Bool) (s t : State) : Prop :=
  (sf = false → flagsOf t = flagsOf s) ∧
  (sf = true → t.cpsr.n = n ∧ t.cpsr.z = z ∧ (short = true → t.cpsr.v = s.cpsr.v))

/-- A long multiply that completes with the 64-bit value `p` (R233 to R238): the high register is written last. -/
def writesLong (i : Instr) (sf : Bool) (rdHi rdLo : Reg) (p : BitVec 64) (s : State) : Prop :=
  ∃ t, exec i s = .next t ∧
    t.gpr[phys s.cpsr.mode rdHi] = fld 32 32 p ∧
    (rdLo ≠ rdHi → t.gpr[phys s.cpsr.mode rdLo] = fld 0 32 p) ∧
    sameGprsBut [phys s.cpsr.mode rdHi, phys s.cpsr.mode rdLo] s t ∧
    t.pc = s.pc ∧ t.pcAltered = s.pcAltered ∧ sameControl s t ∧ sameElsewhere s t ∧
    multiplied sf (bit 63 p) (decide (p = 0#64)) false s t

/-- A long multiply with R15 among its destinations (R238): each write of R15 is a PC write with its check. -/
def longIntoPc (i : Instr) (sf : Bool) (rdHi rdLo : Reg) (p : BitVec 64) (s : State) : Prop :=
  let bad := (rdLo = 15#4 ∧ fld 0 2 p ≠ 0#2) ∨ (rdHi = 15#4 ∧ fld 32 2 p ≠ 0#2)
  (bad → endsFatal .alignmentError s.sched i s) ∧
  (¬bad → ∃ t, exec i s = .next t ∧ t.pc = (if rdHi = 15#4 then fld 32 32 p else fld 0 32 p) ∧ t.pcAltered = true ∧
    (rdHi ≠ 15#4 → t.gpr[phys s.cpsr.mode rdHi] = fld 32 32 p) ∧
    (rdLo ≠ 15#4 → t.gpr[phys s.cpsr.mode rdLo] = fld 0 32 p) ∧
    (∀ q : Fin 30, (rdHi = 15#4 ∨ q ≠ phys s.cpsr.mode rdHi) → (rdLo = 15#4 ∨ q ≠ phys s.cpsr.mode rdLo) →
      t.gpr[q] = s.gpr[q]) ∧ sameControl s t ∧ sameElsewhere s t ∧
    multiplied sf (bit 63 p) (decide (p = 0#64)) false s t)

/-! ### Aborts and write-back to R15 -/

/-- The states differ at most in what a Device's code did (R77). -/
def sameButDevices (s t : State) : Prop := t = { s with sched := t.sched, draws := t.draws }

/-- A read that fails aborts the instruction, with nothing written (R251); what a Device's code did stays. -/
def abortsOnRead (i : Instr) (w : Width) (x : Access) (s : State) : Prop :=
  ∀ u, memRead s x.addr w = (none, u) → sameButDevices s u ∧ ∃ t, exec i s = .next t ∧ entered .data u t

/-- A write that fails aborts the instruction, with nothing written (R251); what a Device's code did stays. -/
def abortsOnWrite (i : Instr) (w : Width) (v : Word) (x : Access) (s : State) : Prop :=
  ∀ u, memWrite s x.addr w v = (u, false) → sameButDevices s u ∧ ∃ t, exec i s = .next t ∧ entered .data u t

/-- A load that writes its base R15 back (R250): a PC write of the target, and, into R15 too, then one of the value
(R252). -/
def loadBacksPc (i : Instr) (w : Width) (rd : Reg) (x : Access) (value : Word → Word) (s : State) : Prop :=
  ∀ v u, memRead s x.addr w = (some v, u) → x.wb = true →
    (fld 0 2 x.target ≠ 0#2 ∨ (rd = 15#4 ∧ fld 0 2 (value v) ≠ 0#2) →
      endsFatal .alignmentError u.sched i s) ∧
    (fld 0 2 x.target = 0#2 → (rd = 15#4 → fld 0 2 (value v) = 0#2) →
      ∃ t, exec i s = .next t ∧ t.pc = (if rd = 15#4 then value v else x.target) ∧ t.pcAltered = true ∧
        (rd ≠ 15#4 → t.gpr[phys s.cpsr.mode rd] = value v) ∧
        sameGprsBut (if rd = 15#4 then [] else [phys s.cpsr.mode rd]) s t ∧ t.cpsr = s.cpsr ∧
        sameMachine s t ∧ sameBytes s t ∧ t.sched = u.sched)

/-- A store that writes its base R15 back: a PC write of the target (R250). -/
def storeBacksPc (i : Instr) (w : Width) (v : Word) (x : Access) (s : State) : Prop :=
  ∀ u, memWrite s x.addr w v = (u, true) → x.wb = true →
    (fld 0 2 x.target ≠ 0#2 → endsFatal .alignmentError u.sched i s) ∧
    (fld 0 2 x.target = 0#2 → ∃ t, exec i s = .next t ∧ t.pc = x.target ∧ t.pcAltered = true ∧
      sameGprsBut [] s t ∧ t.cpsr = s.cpsr ∧ sameMachine s t ∧ t.mem = u.mem ∧ t.sched = u.sched ∧
      ∀ a, a < (alignTo w x.addr).toNat ∨ (alignTo w x.addr).toNat + w.bytes ≤ a →
        readByte t.mem a = readByte s.mem a)

/-! ### Block transfers -/

/-- The addresses of a block transfer (R271). -/
def blockAddresses (p u : Bool) (rn : Reg) (list : BitVec 16) (s : State) : List Word :=
  wordAddresses (blockStart p u (reg s rn) list) (listed list).length

/-- The mode whose registers an LDM loads (R272, R275). -/
def loadMode (sBit : Bool) (list : BitVec 16) (s : State) : Mode :=
  if sBit = true ∧ bit 15 list = false then .user else s.cpsr.mode

/-- The physical registers an LDM loads; R15 is none of them. -/
def loadTargets (sBit : Bool) (list : BitVec 16) (s : State) : List (Fin 30) :=
  ((listed list).filter (fun r => r != 15#4)).map (phys (loadMode sBit list s))

/-- The registers after an LDM that read the values `vs`: each listed register has its value, the base is written back
unless it was loaded, every other register is unchanged (R272, R275, R276). -/
def loadedBlock (sBit w : Bool) (rn : Reg) (list : BitVec 16) (wbval : Word) (vs : List Word) (s t : State) : Prop :=
  (∀ (k : Nat) (r : Reg), (listed list)[k]? = some r → r ≠ 15#4 → vs[k]? = some (t.gpr[phys (loadMode sBit list s) r])) ∧
  (w = true → phys s.cpsr.mode rn ∉ loadTargets sBit list s → t.gpr[phys s.cpsr.mode rn] = wbval) ∧
  sameGprsBut (loadTargets sBit list s ++ if w then [phys s.cpsr.mode rn] else []) s t

/-- The write-back of a base R15 is a PC write that is refused (R32, R280). -/
def badBase (w : Bool) (rn : Reg) (wbval : Word) : Prop := w = true ∧ rn = 15#4 ∧ fld 0 2 wbval ≠ 0#2

/-- An LDM with R15 in its list that read the values `vs`, the last of them `target`, and goes on with the status
`psr`: a branch, or a fatal AlignmentError (R272, R280). A base R15 is written back before `target` is. -/
def blockBranches (i : Instr) (sBit w : Bool) (rn : Reg) (list : BitVec 16) (wbval : Word) (vs : List Word)
    (target : Word) (psr : Psr) (s v : State) : Prop :=
  (fld 0 2 target ≠ 0#2 → endsFatal .alignmentError v.sched i s) ∧
  (fld 0 2 target = 0#2 → ∃ t, exec i s = .next t ∧ loadedBlock sBit (w && rn != 15#4) rn list wbval vs s t ∧
    t.pc = target ∧ t.pcAltered = true ∧ t.cpsr = psr ∧ sameMachine s t ∧ sameBytes s t ∧ t.sched = v.sched)

/-- The same with S = 1: the status word `word` is loaded first (R274). -/
def blockReturns (i : Instr) (w : Bool) (rn : Reg) (list : BitVec 16) (wbval : Word) (vs : List Word)
    (target word : Word) (s v : State) : Prop :=
  (badStatus word → endsFatal .unsupportedState v.sched i s) ∧
  ∀ m, bit 5 word = false → modeOfNumber (fld 0 5 word) = some m →
    blockBranches i true w rn list wbval vs target (psrOf word m) s v

/-- What an STM writes: its addresses, each with its value (R273). -/
def storedBlock (p u sBit w : Bool) (rn : Reg) (list : BitVec 16) (s : State) : List (Word × Word) :=
  (blockAddresses p u rn list s).zip (storedValues sBit w rn list (blockWriteBack u (reg s rn) list) s)

/-! ### Images -/

/-- `after` is `before` with the images in the buffer of `r` (R66): each byte that no later image covers reads at its
place, and every byte that no image covers reads as before. -/
def imagesPlaced (r : Region) (images : List Image) (before after : Memory) : Prop :=
  (∀ (first later : List Image) (im : Image) (k : Nat), images = first ++ im :: later → k < im.bytes.length →
    (∀ q ∈ later, ¬(q.offset ≤ im.offset + k ∧ im.offset + k < q.offset + q.bytes.length)) →
    im.bytes[k]? = some (readByte after (r.base + im.offset + k))) ∧
  ∀ a, (∀ im ∈ images, ¬(r.base + im.offset ≤ a ∧ a < r.base + im.offset + im.bytes.length)) →
    readByte after a = readByte before a

/-! ### Families of instructions -/

/-- The instructions that always raise Undefined (R306 to R310). -/
def trapsUndefined : Instr → Bool
  | .undefined .. | .cdp .. | .ldc .. | .stc .. | .mrc .. | .mcr .. => true
  | _ => false

/-- The instructions that write memory (R75). -/
def stores : Instr → Bool
  | .str .. | .strb .. | .strt .. | .strbt .. | .strh .. | .stm .. | .swp .. | .swpb .. => true
  | _ => false

/-- The instructions that write a saved status register by name: MSR with R = 1 (R41). -/
def writesSaved : Instr → Bool
  | .msr _ r _ _ => r
  | .msrI _ r _ _ _ => r
  | _ => false

/-- No interrupt is taken at a sampling point in this state (R150). -/
def noInterrupt (s : State) : Prop := (s.sched.fiq && !s.cpsr.f) = false ∧ (s.sched.irq && !s.cpsr.i) = false

end Sys2Proof.Machine
end

