-- ==== Sys2Proof/Certificates/Slice0/Obligations.lean ====
section
/-!
DEFINITION. The statements about the machine, one definition each; the terms they use stand in Safety.lean.
-/

open Sys2Proof Sys2Proof.Machine

/-! ### Encoding -/

/-- The decoder reads every well-formed instruction back from its encoded bytes (30_encoding.md R100 to R123). -/
def Obligations.DecodeEncodeRoundTrip : Prop :=
  ∀ (i : Instr) (rest : List Byte), wellFormed i = true → decode (encodeBytes i ++ rest) = .ok (i, rest)

/-- Every word decodes to a well-formed instruction whose condition is bits 31 to 28 (R101, R102, R131). The words
that raise Undefined are the class-3 words with bit 4 and the coprocessor words, and no others (R306 to R310); SWI is
class 7 with bit 24 (R123). -/
def Obligations.EveryWordDecodes : Prop :=
  (∀ w : Word, wellFormed (decodeWord w) = true ∧ (decodeWord w).cond = Cond.ofCode (fld 28 4 w)) ∧
  (∀ w : Word,
    (trapsUndefined (decodeWord w) = true ↔
      (fld 25 3 w = 3#3 ∧ bit 4 w = true) ∨ fld 25 3 w = 6#3 ∨ (fld 25 3 w = 7#3 ∧ bit 24 w = false)) ∧
    ((∃ c n, decodeWord w = .swi c n) ↔ fld 25 3 w = 7#3 ∧ bit 24 w = true))

/-- Words of the spec's examples decode to the instructions they stand for. -/
def Obligations.KnownWordsDecode : Prop :=
  decodeWord 0xE0233204 = .eor .al false 3 3 (.shiftImm 4 .lsl 4) ∧
  decodeWord 0xE1800231 = .orr .al false 0 0 (.shiftReg 1 .lsr 2) ∧
  decodeWord 0xE3100102 = .tst .al 0 (.imm 1 2) ∧
  decodeWord 0xE321F0D3 = .msrI .al false 1 0 0xD3 ∧
  decodeWord 0xE0203291 = .mla .al false 0 3 2 1 ∧
  decodeWord 0xE7910102 = .ldr .al 0 ⟨true, true, false, 1, .reg 2 .lsl 2⟩ ∧
  decodeWord 0xE17100F2 = .ldrsh .al 0 ⟨true, false, true, 1, .imm 2⟩ ∧
  decodeWord 0xE8BD8010 = .ldm .al false true false true 13 0x8010 ∧
  decodeWord 0xE1420091 = .swpb .al 2 0 1 ∧
  decodeWord 0xEB00003E = .bl .al 0x3E ∧
  decodeWord 0xE12FFF1E = .bx .al 14 ∧
  decodeWord 0xE7F000F0 = .undefined .al 0xF8007 0 ∧
  decodeWord 0xEF123456 = .swi .al 0x123456 ∧
  decodeWord 0xEE100F10 = .mrc .al 0 0 0 15 0 0

/-- `EncodeImmediate` inverts the rotated immediate (R125): what it returns reconstructs the value, or its complement
only where no plain form exists; it fails only where neither has a form; the rotation is the smallest (D26, log entry
15). -/
def Obligations.EncodeImmediateInverts : Prop :=
  ∀ v : Word,
    (∀ e, encodeImmediate v = some e →
      e.rotate < 16 ∧
      rotatedImm (BitVec.ofNat 4 e.rotate) e.imm8 = (if e.negated then ~~~v else v) ∧
      (e.negated = true → ∀ rot imm8, rotatedImm rot imm8 ≠ v) ∧
      (∀ rot imm8, rotatedImm rot imm8 = (if e.negated then ~~~v else v) → e.rotate ≤ rot.toNat)) ∧
    (encodeImmediate v = none → ∀ rot imm8, rotatedImm rot imm8 ≠ v ∧ rotatedImm rot imm8 ≠ ~~~v)

/-! ### The step -/

/-- A step runs the instruction that the fetched word decodes to, in the state with R15 advanced by 8; the PC is then
rolled back unless it was written, the cost added, and the lines sampled (R140, R141, R144, R150). The first part says
so of any fetch, the second of four bytes in a readable buffer that decode to `i`. -/
def Obligations.StepRunsTheDecodedInstruction : Prop :=
  ∀ (s : State) (i : Instr), s.halted = none →
    (∀ (iw : Word) (t : State), memRead s s.pc .word = (some iw, t) → decodeWord iw = i →
      step s = thenDo (exec i { t with pc := t.pc + 8, pcAltered := false }) fun u =>
        .next (clearMark (sampleInterrupts
          (finish (cost i iw { t with pc := t.pc + 8, pcAltered := false }) u)))) ∧
    (∀ r : Region, fld 0 2 s.pc = 0#2 → regionAt s.regions s.pc.toNat = some r →
      r.kind = .ram ∨ r.kind = .noWrite →
      decode ([0, 1, 2, 3].map fun k => readByte s.mem (s.pc.toNat + k)) = .ok (i, []) →
      step s = thenDo (exec i { s with pc := s.pc + 8, pcAltered := false }) fun u =>
        .next (clearMark (sampleInterrupts
          (finish (cost i (readDatum s.mem s.pc.toNat .word) { s with pc := s.pc + 8, pcAltered := false }) u))))

/-- The truth table of the sixteen conditions, by code (R101, R142; the ARM table, from general knowledge: log entry
14). -/
def Obligations.ConditionTest : Prop :=
  ∀ p : Psr,
    (condHolds (.ofCode 0) p = true ↔ p.z = true) ∧ (condHolds (.ofCode 1) p = true ↔ p.z = false) ∧
    (condHolds (.ofCode 2) p = true ↔ p.c = true) ∧ (condHolds (.ofCode 3) p = true ↔ p.c = false) ∧
    (condHolds (.ofCode 4) p = true ↔ p.n = true) ∧ (condHolds (.ofCode 5) p = true ↔ p.n = false) ∧
    (condHolds (.ofCode 6) p = true ↔ p.v = true) ∧ (condHolds (.ofCode 7) p = true ↔ p.v = false) ∧
    (condHolds (.ofCode 8) p = true ↔ p.c = true ∧ p.z = false) ∧
    (condHolds (.ofCode 9) p = true ↔ p.c = false ∨ p.z = true) ∧
    (condHolds (.ofCode 10) p = true ↔ p.n = p.v) ∧ (condHolds (.ofCode 11) p = true ↔ p.n ≠ p.v) ∧
    (condHolds (.ofCode 12) p = true ↔ p.z = false ∧ p.n = p.v) ∧
    (condHolds (.ofCode 13) p = true ↔ p.z = true ∨ p.n ≠ p.v) ∧
    condHolds (.ofCode 14) p = true ∧ condHolds (.ofCode 15) p = true

/-- A step whose condition fails adds 4 to R15 and 1 to the cycle total and changes nothing else (R143); the meaning
of an instruction whose condition fails changes nothing. -/
def Obligations.ConditionFalse : Prop :=
  (∀ (s t : State) (iw : Word), memRead s s.pc .word = (some iw, t) →
    condHolds (Cond.ofCode (fld 28 4 iw)) t.cpsr = false →
    cpuStep s = .next { t with pc := t.pc + 4, pcAltered := false, cycles := t.cycles + 1 }) ∧
  (∀ (i : Instr) (s : State), condHolds i.cond s.cpsr = false → exec i s = .next s)

/-- A word with condition NV executes as the same word with condition AL (R146; D2, log entry 15). -/
def Obligations.NeverExecutesAsAlways : Prop :=
  ∀ (x : BitVec 28) (s : State),
    exec (decodeWord (cat 32 15#4 x)) s = exec (decodeWord (cat 32 14#4 x)) s ∧
    (s.costModel = .default → runWord (cat 32 15#4 x) s = runWord (cat 32 14#4 x) s)

/-- A step adds exactly its instruction's cost, at least 1, to the cycle total; interrupt entry adds nothing (R147,
R148). -/
def Obligations.StepAddsItsCost : Prop :=
  ∀ s t : State, step s = .next t →
    s.cycles < t.cycles ∧
    (∀ (iw : Word) (u : State), memRead s s.pc .word = (some iw, u) →
      t.cycles = s.cycles + cost (decodeWord iw) iw (enterExecute u)) ∧
    (∀ u : State, memRead s s.pc .word = (none, u) → t.cycles = s.cycles + prefetchCost s)

/-- A fetch that fails (no Region, a `NoRead` one, or a Device that answers so: log entry 26) takes the Prefetch
Abort, from R15 = A + 8 (R358; D1, log entry 15), in the state that the Device's code left. -/
def Obligations.FetchFaultTakesPrefetchAbort : Prop :=
  ∀ s u : State, memRead s s.pc .word = (none, u) → sameButDevices s u ∧
    ∃ t c, cpuStep s = .next t ∧ 0 < c ∧ t.cycles = s.cycles + c ∧
      entered .prefetch { u with pc := s.pc + 8, cycles := t.cycles } t ∧
      t.gpr[phys .abort 14#4] = s.pc + 4 ∧ t.pc = 0x0C#32

/-- The sampling point (R150, R362; the lines' access D24, log entry 15): an unmasked active FIQ is entered, and then
IRQ is not; else an unmasked active IRQ; else nothing happens. -/
def Obligations.InterruptsSampledFiqFirst : Prop :=
  ∀ s : State,
    (s.sched.fiq = true → s.cpsr.f = false → sampleInterrupts s = raiseException .fiq s) ∧
    ((s.sched.fiq = false ∨ s.cpsr.f = true) → s.sched.irq = true → s.cpsr.i = false →
      sampleInterrupts s = raiseException .irq s) ∧
    (noInterrupt s → sampleInterrupts s = s)

/-- Exception entry, for every kind and state (R353 to R357), and the vectors of the kinds (R350). Saving the status
on every entry is D4 (R356), the link `pc - 4` of IRQ and FIQ is D12 (R354), both in log entry 15. -/
def Obligations.ExceptionEntry : Prop :=
  (∀ (kind : Exception) (s : State), entered kind s (raiseException kind s)) ∧
  (vectorOf .reset = 0x00 ∧ vectorOf .undefined = 0x04 ∧ vectorOf .software = 0x08 ∧ vectorOf .prefetch = 0x0C ∧
    vectorOf .data = 0x10 ∧ vectorOf .irq = 0x18 ∧ vectorOf .fiq = 0x1C)

/-! ### Rules of the whole machine -/

/-- Exception entry is the only way to leave User mode (R371): a step that leaves it ends at a vector other than
Reset's, in that vector's mode, with IRQ masked. It rests on the model's choice for a return where there is no SPSR,
which stays in User mode (log entry 7), and on MSR writing only flags there (D22, log entry 15). -/
def Obligations.OnlyExceptionsLeaveUserMode : Prop :=
  ∀ s t : State, s.cpsr.mode = .user → step s = .next t → t.cpsr.mode ≠ .user →
    ∃ kind, kind ≠ .reset ∧ t.pc = vectorOf kind ∧ t.cpsr.mode = targetMode kind ∧ t.cpsr.i = true

/-- The invariant between steps is kept by every step: R15 stays a multiple of 4, T stays 0, memory keeps its
canonical form and lists bytes of mapped buffers only, the Regions stay disjoint and the queue ordered (R30, R34, R64,
R320). -/
def Obligations.EveryStepKeepsInvariant : Prop :=
  ∀ s t : State, s.Inv → step s = .next t → t.Inv

/-- The state after reset satisfies the invariant. -/
def Obligations.ResetSatisfiesInvariant : Prop := State.reset.Inv

/-- However the host builds the machine, it satisfies the invariant; whatever the host and the out-of-scope code do
between runs, the invariant is kept: by every action, and by every drain. -/
def Obligations.HostKeepsInvariant : Prop :=
  (∀ (o : Oracle) (a : HostAction) (s : State), s.Inv → (hostAct o a s).Inv) ∧
  (∀ (o : Oracle) (fuel : Nat) (s t : State), s.Inv → drain o fuel s = some t → t.Inv) ∧
  (∀ acts : List BuildAction, (build acts).Inv)

/-- The register file and the CPSR are changed by the Cpu and by Reset only (R28, R333): no other action of the host
and no drain touches them, and the building of the memory neither. -/
def Obligations.OutsideLeavesRegisters : Prop :=
  (∀ (o : Oracle) (a : HostAction) (s : State), a ≠ .reset →
    (hostAct o a s).gpr = s.gpr ∧ (hostAct o a s).pc = s.pc ∧ (hostAct o a s).cpsr = s.cpsr ∧
    (hostAct o a s).spsr = s.spsr ∧ (hostAct o a s).cycles = s.cycles ∧ (hostAct o a s).halted = s.halted) ∧
  (∀ (o : Oracle) (fuel : Nat) (s t : State), drain o fuel s = some t →
    t.gpr = s.gpr ∧ t.pc = s.pc ∧ t.cpsr = s.cpsr ∧ t.spsr = s.spsr ∧ t.cycles = s.cycles ∧ t.mem = s.mem ∧
    t.regions = s.regions) ∧
  (∀ acts : List BuildAction,
    build acts = { State.powerOn with mem := (build acts).mem, regions := (build acts).regions })

/-- Once the machine is built, the table of Regions changes through Device registration and unregistration only (R85):
no instruction, no step, no run with its drain and no other action of the host changes it. An instruction that is no
store leaves memory alone (R75), and so does any other action of the host. -/
def Obligations.InstructionsReachNoTable : Prop :=
  ((∀ (i : Instr) (s t : State), exec i s = .next t → t.regions = s.regions) ∧
  (∀ s t : State, step s = .next t → t.regions = s.regions)) ∧
  (∀ (i : Instr) (s t : State), stores i = false → exec i s = .next t → t.mem = s.mem) ∧
  (∀ (o : Oracle) (a : HostAction) (s : State), a.mayChangeTable = false →
    (hostAct o a s).regions = s.regions ∧ (hostAct o a s).mem = s.mem) ∧
  (∀ (o : Oracle) (fuel : Nat) (budget : Int) (s t : State),
    (∀ left, vmRun o fuel budget s = some (.done left t) → t.regions = s.regions) ∧
    (vmRun o fuel budget s = some (.halted t) → t.regions = s.regions))

/-- What instructions do to the saved status registers (R41; D4 and conflict C1, log entry 15): one is written by
exception entry, which saves the old CPSR in the target mode's, and by MSR that names it; by nothing else. The entries
of the sampling point, of a failed fetch and of Reset are other statements' (FetchFaultTakesPrefetchAbort,
InterruptsSampledFiqFirst, ExceptionEntry). -/
def Obligations.SavedStatusWriters : Prop :=
  ∀ (i : Instr) (s t : State), writesSaved i = false → exec i s = .next t →
    t.spsr = s.spsr ∨
    ∃ kind, t.pc = vectorOf kind ∧ t.cpsr.mode = targetMode kind ∧
      t.spsr = withSpsr (bankOf (targetMode kind)) (psrWord s.cpsr) s.spsr

/-- Every instruction runs: it answers a next state, or one of the two fatal errors (R375); none is refused. That the
inputs of 93_implementation_defined.md with the treatment `refuse` run is the model's choice (log entries 13 and 7).
-/
def Obligations.NoInstructionIsRefused : Prop :=
  ∀ (i : Instr) (s : State),
    (∃ t, exec i s = .next t) ∨ ∃ kind left, exec i s = .fault (.fatal kind left)

/-- The host's Reset (R391): Supervisor mode, both masks, R15 at 0, the old status saved, everything else kept; and
what State.reset holds of the values that R46 gives. The cycle total 0, the empty queue and the empty device list at
reset are D10 (R46, R392; log entry 15). -/
def Obligations.ResetEffect : Prop :=
  (∀ s : State,
    (hostReset s).pc = 0#32 ∧
    (hostReset s).cpsr = { s.cpsr with i := true, f := true, t := false, mode := .supervisor } ∧
    (hostReset s).spsr = { s.spsr with svc := psrWord s.cpsr } ∧ (hostReset s).gpr = s.gpr ∧
    (hostReset s).mem = s.mem ∧ (hostReset s).regions = s.regions ∧ (hostReset s).cycles = s.cycles ∧
    (hostReset s).sched = s.sched ∧ (hostReset s).halted = none) ∧
  (State.reset.pc = 0#32 ∧ State.reset.cpsr.mode = .supervisor ∧ State.reset.cpsr.i = true ∧
  State.reset.cpsr.f = true ∧ State.reset.cpsr.t = false ∧ State.reset.cycles = 0 ∧ State.reset.sched.queue = [] ∧
  State.reset.sched.devices = [] ∧ State.reset.halted = none)

/-! ### Registers and status -/

/-- The register view (R25; D3, log entry 15, for FIQ's R8 to R12): reading back a written register; R0 to R7 the same
in every mode, R8 to R12 in every mode but FIQ; R13 and R14 of two different banks are different registers. User and
System see the same registers (R26). -/
def Obligations.RegisterView : Prop :=
  (∀ (s : State) (r : Reg) (v : Word), r ≠ 15#4 →
    ∃ t, setReg r v s = .next t ∧ reg t r = v ∧ ∀ q, q ≠ r → reg t q = reg s q) ∧
  (∀ (m k : Mode) (r : Reg), r < 8#4 → phys m r = phys k r) ∧
  (∀ (m k : Mode) (r : Reg), r < 13#4 → m ≠ .fiq → k ≠ .fiq → phys m r = phys k r) ∧
  (∀ (m k : Mode) (r q : Reg), r ≠ 15#4 → q ≠ 15#4 → phys m r = phys k q →
    r = q ∧ (r < 8#4 ∨ (r < 13#4 ∧ (m = .fiq ↔ k = .fiq)) ∨ bankOf m = bankOf k)) ∧
  (∀ r : Reg, phys .user r = phys .system r)

/-- The layout of a status word (R35, R36, R40), the mode each exception enters (R351), both from general knowledge
(log entry 14); `LoadCpsr` (R38, R39; D6, log entry 15): a word with T = 1 or an illegal mode number is fatal, every
other word replaces the CPSR and nothing else. -/
def Obligations.StatusWords : Prop :=
  ((∀ (p : Psr) (k : Nat), k < 32 →
    bit k (psrWord p) =
      if k = 31 then p.n else if k = 30 then p.z else if k = 29 then p.c else if k = 28 then p.v
      else if k = 7 then p.i else if k = 6 then p.f else if k = 5 then p.t
      else if k < 5 then bit k (modeNumber p.mode) else false) ∧
  (∀ s : State, s.cpsr.t = false → loadCpsr (psrWord s.cpsr) s = .next s)) ∧
  (modeNumber .user = 0b10000 ∧ modeNumber .fiq = 0b10001 ∧ modeNumber .irq = 0b10010 ∧
    modeNumber .supervisor = 0b10011 ∧ modeNumber .abort = 0b10111 ∧ modeNumber .undefined = 0b11011 ∧
    modeNumber .system = 0b11111) ∧
  (targetMode .reset = .supervisor ∧ targetMode .undefined = .undefined ∧ targetMode .software = .supervisor ∧
    targetMode .prefetch = .abort ∧ targetMode .data = .abort ∧ targetMode .irq = .irq ∧ targetMode .fiq = .fiq) ∧
  (∀ (w : Word) (s : State),
    (badStatus w → loadCpsr w s = fatal .unsupportedState s) ∧
    (∀ m, bit 5 w = false → modeNumber m = fld 0 5 w → loadCpsr w s = .next { s with cpsr := psrOf w m }) ∧
    ((∀ m, modeNumber m ≠ fld 0 5 w) → loadCpsr w s = fatal .unsupportedState s))

/-! ### Operand 2 -/

/-- The immediate operand and its carry-out (R171), and a register shifted by an immediate, with the special meanings
of amount 0 (R172, R178). The carry-out of a rotated immediate is general knowledge (log entry 14), the meaning of LSR
and ASR by 0 is D21 (log entry 15). -/
def Obligations.ImmediateOperands : Prop :=
  (∀ (rot : BitVec 4) (imm8 : BitVec 8) (s : State) (k : Nat), k < 32 →
    bit k (operand2 (.imm rot imm8) s).value = bit ((k + 2 * rot.toNat) % 32) imm8 ∧
    (operand2 (.imm rot imm8) s).carry =
      if rot = 0#4 then s.cpsr.c else bit 31 (operand2 (.imm rot imm8) s).value) ∧
  (∀ (rm : Reg) (n : BitVec 5) (s : State),
    let m := reg s rm
    let op (ty : ShiftType) := operand2 (.shiftImm rm ty n) s
    (n = 0#5 →
      op .lsl = ⟨m, s.cpsr.c⟩ ∧ op .lsr = ⟨0, bit 31 m⟩ ∧
      op .asr = ⟨if bit 31 m then 0xFFFFFFFF else 0, bit 31 m⟩ ∧
      (op .ror).value.toNat = s.cpsr.c.toNat * 2 ^ 31 + m.toNat / 2 ∧ (op .ror).carry = bit 0 m) ∧
    (n ≠ 0#5 →
      (op .lsl).value.toNat = m.toNat * 2 ^ n.toNat % 2 ^ 32 ∧ (op .lsl).carry = bit (32 - n.toNat) m ∧
      (op .lsr).value.toNat = m.toNat / 2 ^ n.toNat ∧ (op .lsr).carry = bit (n.toNat - 1) m ∧
      (op .asr).value.toInt = m.toInt / 2 ^ n.toNat ∧ (op .asr).carry = bit (n.toNat - 1) m ∧
      (∀ k, k < 32 → bit k (op .ror).value = bit ((k + n.toNat) % 32) m) ∧ (op .ror).carry = bit (n.toNat - 1) m))

/-- A register shifted by a register's low byte (R173): the table of amounts is general knowledge (log entry 14) and
D21 (log entry 15). -/
def Obligations.RegisterShift : Prop :=
  ∀ (rm rs : Reg) (s : State),
    let m := reg s rm
    let n := (reg s rs).toNat % 256
    let op (ty : ShiftType) := operand2 (.shiftReg rm ty rs) s
    (n = 0 → ∀ ty, op ty = ⟨m, s.cpsr.c⟩) ∧
    (1 ≤ n → n ≤ 31 →
      (op .lsl).value.toNat = m.toNat * 2 ^ n % 2 ^ 32 ∧ (op .lsl).carry = bit (32 - n) m ∧
      (op .lsr).value.toNat = m.toNat / 2 ^ n ∧ (op .lsr).carry = bit (n - 1) m ∧
      (op .asr).value.toInt = m.toInt / 2 ^ n ∧ (op .asr).carry = bit (n - 1) m) ∧
    (n = 32 → op .lsl = ⟨0, bit 0 m⟩ ∧ op .lsr = ⟨0, bit 31 m⟩) ∧
    (32 < n → op .lsl = ⟨0, false⟩ ∧ op .lsr = ⟨0, false⟩) ∧
    (32 ≤ n → op .asr = ⟨if bit 31 m then 0xFFFFFFFF else 0, bit 31 m⟩) ∧
    (1 ≤ n → n % 32 ≠ 0 →
      (∀ k, k < 32 → bit k (op .ror).value = bit ((k + n % 32) % 32) m) ∧ (op .ror).carry = bit (n % 32 - 1) m) ∧
    (1 ≤ n → n % 32 = 0 → op .ror = ⟨m, bit 31 m⟩)

/-! ### Data processing -/

/-- AND, EOR, ORR, MOV, BIC, MVN into a register other than R15: result, flags, frame (R180, R183, R184, R195 to
R198). -/
def Obligations.LogicalResults : Prop :=
  ∀ (c : Cond) (sf : Bool) (rd rn : Reg) (o : Operand2) (s : State), condHolds c s.cpsr = true → rd ≠ 15#4 →
    let x := operand2 o s
    let fl (result : Word) := logicalFlags result x.carry s.cpsr.v
    let a := reg s rn
    writesResult (.and c sf rd rn o) sf rd (a &&& x.value) (fl (a &&& x.value)) s ∧
    writesResult (.eor c sf rd rn o) sf rd (a ^^^ x.value) (fl (a ^^^ x.value)) s ∧
    writesResult (.orr c sf rd rn o) sf rd (a ||| x.value) (fl (a ||| x.value)) s ∧
    writesResult (.mov c sf rd o) sf rd x.value (fl x.value) s ∧
    writesResult (.bic c sf rd rn o) sf rd (a &&& ~~~x.value) (fl (a &&& ~~~x.value)) s ∧
    writesResult (.mvn c sf rd o) sf rd (~~~x.value) (fl (~~~x.value)) s

/-- ADD, ADC, SUB, RSB, SBC and RSC into a register other than R15: result, flags, frame (R181, R182, R185 to R190).
-/
def Obligations.ArithmeticResults : Prop :=
  (∀ (c : Cond) (sf : Bool) (rd rn : Reg) (o : Operand2) (s : State), condHolds c s.cpsr = true → rd ≠ 15#4 →
    let a := reg s rn
    let b := (operand2 o s).value
    let sum := a + b + (if s.cpsr.c then 1 else 0)
    writesResult (.add c sf rd rn o) sf rd (a + b) (additionFlags a b false (a + b)) s ∧
    writesResult (.adc c sf rd rn o) sf rd sum (additionFlags a b s.cpsr.c sum) s) ∧
  (∀ (c : Cond) (sf : Bool) (rd rn : Reg) (o : Operand2) (s : State), condHolds c s.cpsr = true → rd ≠ 15#4 →
    let a := reg s rn
    let b := (operand2 o s).value
    let borrow : Word := if s.cpsr.c then 0 else 1
    writesResult (.sub c sf rd rn o) sf rd (a - b) (subtractionFlags a b true (a - b)) s ∧
    writesResult (.rsb c sf rd rn o) sf rd (b - a) (subtractionFlags b a true (b - a)) s ∧
    writesResult (.sbc c sf rd rn o) sf rd (a - b - borrow) (subtractionFlags a b s.cpsr.c (a - b - borrow)) s ∧
    writesResult (.rsc c sf rd rn o) sf rd (b - a - borrow) (subtractionFlags b a s.cpsr.c (b - a - borrow)) s)

/-- TST, TEQ, CMP and CMN write the flags and nothing else (R191 to R194, R201). -/
def Obligations.CompareResults : Prop :=
  ∀ (c : Cond) (rn : Reg) (o : Operand2) (s : State), condHolds c s.cpsr = true →
    let x := operand2 o s
    let a := reg s rn
    let b := x.value
    writesFlags (.tst c rn o) (logicalFlags (a &&& b) x.carry s.cpsr.v) s ∧
    writesFlags (.teq c rn o) (logicalFlags (a ^^^ b) x.carry s.cpsr.v) s ∧
    writesFlags (.cmp c rn o) (subtractionFlags a b true (a - b)) s ∧
    writesFlags (.cmn c rn o) (additionFlags a b false (a + b)) s

/-- What the flags mean: C of a subtraction is the unsigned carry-out of `a + ~b + cin` (R182, derived there), V says
exactly that the signed result does not fit (R203); after a CMP of `a` and `b`, EQ says that they are equal, CS and HI
compare them unsigned, GE and GT signed (R193, derived there). -/
def Obligations.FlagMeanings : Prop :=
  (∀ (a b : Word) (cin : Bool),
    ((additionFlags a b cin (a + b + BitVec.ofNat 32 cin.toNat)).v = true ↔
      (a + b + BitVec.ofNat 32 cin.toNat).toInt ≠ a.toInt + b.toInt + cin.toNat) ∧
    ((subtractionFlags a b cin (a - b - BitVec.ofNat 32 (1 - cin.toNat))).v = true ↔
      (a - b - BitVec.ofNat 32 (1 - cin.toNat)).toInt ≠ a.toInt - b.toInt - (1 - cin.toNat : Nat)) ∧
    ((subtractionFlags a b cin (a - b - BitVec.ofNat 32 (1 - cin.toNat))).c = true ↔
      2 ^ 32 ≤ a.toNat + (~~~b).toNat + cin.toNat)) ∧
  (∀ (c : Cond) (rn : Reg) (o : Operand2) (s : State), condHolds c s.cpsr = true →
    let a := reg s rn
    let b := (operand2 o s).value
    ∃ t, exec (.cmp c rn o) s = .next t ∧
      (condHolds .eq t.cpsr = true ↔ a = b) ∧ (condHolds .cs t.cpsr = true ↔ b.toNat ≤ a.toNat) ∧
      (condHolds .hi t.cpsr = true ↔ b.toNat < a.toNat) ∧ (condHolds .ge t.cpsr = true ↔ b.toInt ≤ a.toInt) ∧
      (condHolds .gt t.cpsr = true ↔ b.toInt < a.toInt))

/-- The twelve operations with a destination and S = 0 into R15: a branch to the result, with the alignment check
(R200). -/
def Obligations.DataProcessingIntoR15 : Prop :=
  ∀ (i : Instr) (s : State) (v : Word), condHolds i.cond s.cpsr = true →
    dataResult i s = some (false, 15#4, v) → writesPc i v s

/-- The twelve operations with S = 1 into R15, in a mode that has an SPSR: the exception return (R199, R365, from
general knowledge: log entry 14; the order D29, log entry 15). -/
def Obligations.DataProcessingReturn : Prop :=
  ∀ (i : Instr) (s : State) (v w : Word), condHolds i.cond s.cpsr = true →
    dataResult i s = some (true, 15#4, v) → spsrOf (bankOf s.cpsr.mode) s.spsr = some w → returnsTo i w v s

/-- The model's choice (log entry 7) where the mode has no SPSR: a return form goes through a free word, whose mode
field stays User in User mode; MRS puts a free word into Rd. -/
def Obligations.WithoutSavedStatus : Prop :=
  (∀ (i : Instr) (s : State) (v : Word), condHolds i.cond s.cpsr = true → dataResult i s = some (true, 15#4, v) →
    (s.cpsr.mode = .system → returnsTo i (Config.absentSpsr s.draws) v s) ∧
    (s.cpsr.mode = .user → returnsTo i (cat 32 (fld 5 27 (Config.absentSpsr s.draws)) (modeNumber .user)) v s)) ∧
  (∀ (c : Cond) (p u w : Bool) (rn : Reg) (list : BitVec 16) (s v : State) (vs : List Word) (target : Word),
    condHolds c s.cpsr = true → bit 15 list = true →
    readWords (blockAddresses p u rn list s) s = (some vs, v) → vs.getLast? = some target →
    let wbval := blockWriteBack u (reg s rn) list
    let returns (word : Word) := blockReturns (.ldm c p u true w rn list) w rn list wbval vs target word s v
    ¬badBase w rn wbval →
    (s.cpsr.mode = .system → returns (Config.absentSpsr v.draws)) ∧
    (s.cpsr.mode = .user → returns (cat 32 (fld 5 27 (Config.absentSpsr v.draws)) (modeNumber .user)))) ∧
  (∀ (c : Cond) (rd : Reg) (s : State), condHolds c s.cpsr = true → spsrOf (bankOf s.cpsr.mode) s.spsr = none →
    (rd ≠ 15#4 → ∃ t, exec (.mrs c true rd) s = .next t ∧ exec (.mrsI c true rd) s = .next t ∧
      wroteRegister rd (Config.absentSpsr s.draws) s t ∧ t.cpsr = s.cpsr) ∧
    (rd = 15#4 → writesPc (.mrs c true rd) (Config.absentSpsr s.draws) s ∧
      writesPc (.mrsI c true rd) (Config.absentSpsr s.draws) s))

/-! ### Status transfer -/

/-- MRS (R221): the CPSR word, or the SPSR of a mode that has one, into a register. That R15 as destination is a PC
write (U3), and that the class 1 word `mrsI` reads as MRS does (U20), is the model's choice (log entry 13). -/
def Obligations.MrsReadsStatus : Prop :=
  ∀ (c : Cond) (r : Bool) (rd : Reg) (s : State) (v : Word), condHolds c s.cpsr = true →
    (r = false → v = psrWord s.cpsr) → (r = true → spsrOf (bankOf s.cpsr.mode) s.spsr = some v) →
    (rd ≠ 15#4 → ∃ t, exec (.mrs c r rd) s = .next t ∧ exec (.mrsI c r rd) s = .next t ∧
      wroteRegister rd v s t ∧ t.cpsr = s.cpsr) ∧
    (rd = 15#4 → writesPc (.mrs c r rd) v s ∧ writesPc (.mrsI c r rd) v s)

/-- MSR to the CPSR (R222, R223): the selected byte fields of the operand replace those of the status word, in User
mode only the flags' (R224; D22, log entry 15); the new word is loaded, or refused for T = 1 or an illegal mode
number. In User mode it completes, writes the flags if their field is selected, and never the control byte. -/
def Obligations.MsrWritesCpsr : Prop :=
  (∀ (c : Cond) (fields : BitVec 4) (rm : Reg) (rot : BitVec 4) (imm8 : BitVec 8) (s : State) (i : Instr)
    (operand w : Word), condHolds c s.cpsr = true →
    (i = .msr c false fields rm ∧ operand = reg s rm) ∨
      (i = .msrI c false fields rot imm8 ∧ operand = rotatedImm rot imm8) →
    mergedStatus fields (s.cpsr.mode == .user) (psrWord s.cpsr) operand w →
    (badStatus w → endsFatal .unsupportedState s.sched i s) ∧
    (∀ m, bit 5 w = false → modeOfNumber (fld 0 5 w) = some m → exec i s = .next { s with cpsr := psrOf w m })) ∧
  (∀ (c : Cond) (fields : BitVec 4) (rm : Reg) (rot : BitVec 4) (imm8 : BitVec 8) (s : State) (i : Instr)
    (operand : Word), condHolds c s.cpsr = true → s.cpsr.mode = .user → s.cpsr.t = false →
    (i = .msr c false fields rm ∧ operand = reg s rm) ∨
      (i = .msrI c false fields rot imm8 ∧ operand = rotatedImm rot imm8) →
    writesFlags i (if bit 3 fields then ⟨bit 31 operand, bit 30 operand, bit 29 operand, bit 28 operand⟩
      else flagsOf s) s)

/-- MSR to the SPSR (R222, R225): the selected byte fields of the operand replace those of the saved word, and nothing
else changes; where there is no SPSR nothing changes at all. Bits 27 to 8 are kept as written (D7, log entry 15),
which U32 leaves open on read-back (log entry 13). -/
def Obligations.MsrWritesSpsr : Prop :=
  ∀ (c : Cond) (fields : BitVec 4) (rm : Reg) (rot : BitVec 4) (imm8 : BitVec 8) (s : State) (i : Instr)
    (operand : Word), condHolds c s.cpsr = true →
    (i = .msr c true fields rm ∧ operand = reg s rm) ∨
      (i = .msrI c true fields rot imm8 ∧ operand = rotatedImm rot imm8) →
    (spsrOf (bankOf s.cpsr.mode) s.spsr = none → exec i s = .next s) ∧
    (∀ old w, spsrOf (bankOf s.cpsr.mode) s.spsr = some old → mergedStatus fields false old operand w →
      exec i s = .next { s with spsr := withSpsr (bankOf s.cpsr.mode) w s.spsr })

/-! ### Multiplies -/

/-- MUL and MLA into a register other than R15 (R231, R232), with N, Z and V by R237; C is free after S = 1 (log entry
6). Rd = Rm and R15 as a source run as R238 says (D19, log entry 15; log entry 13). -/
def Obligations.ShortMultiply : Prop :=
  ∀ (c : Cond) (sf : Bool) (rd rn rs rm : Reg) (s : State), condHolds c s.cpsr = true → rd ≠ 15#4 →
    let p := reg s rm * reg s rs
    let a := p + reg s rn
    (∃ t, exec (.mul c sf rd rs rm) s = .next t ∧ wroteRegister rd p s t ∧
      multiplied sf (bit 31 p) (decide (p = 0#32)) true s t) ∧
    (∃ t, exec (.mla c sf rd rn rs rm) s = .next t ∧ wroteRegister rd a s t ∧
      multiplied sf (bit 31 a) (decide (a = 0#32)) true s t)

/-- UMULL, UMLAL, SMULL and SMLAL into registers other than R15 (R233 to R237); C and V are free after S = 1 (log
entry 6). For RdHi = RdLo the high word is written last, and equal or R15 sources run, as R238 says (D19, log entry
15; log entry 13). -/
def Obligations.LongMultiply : Prop :=
  ∀ (c : Cond) (sf : Bool) (rdHi rdLo rs rm : Reg) (s : State), condHolds c s.cpsr = true → rdHi ≠ 15#4 →
    rdLo ≠ 15#4 →
    let acc : Nat := (reg s rdHi).toNat * 2 ^ 32 + (reg s rdLo).toNat
    let u : Nat := (reg s rm).toNat * (reg s rs).toNat
    let i : Int := (reg s rm).toInt * (reg s rs).toInt
    writesLong (.umull c sf rdHi rdLo rs rm) sf rdHi rdLo (BitVec.ofNat 64 u) s ∧
    writesLong (.umlal c sf rdHi rdLo rs rm) sf rdHi rdLo (BitVec.ofNat 64 (u + acc)) s ∧
    writesLong (.smull c sf rdHi rdLo rs rm) sf rdHi rdLo (BitVec.ofInt 64 i) s ∧
    writesLong (.smlal c sf rdHi rdLo rs rm) sf rdHi rdLo (BitVec.ofInt 64 (i + acc)) s

/-- A multiply with R15 among its destinations is a PC write with its alignment check (R238; D19, log entry 15). -/
def Obligations.MultiplyIntoR15 : Prop :=
  ∀ (c : Cond) (sf : Bool) (rn rs rm rdHi rdLo : Reg) (s : State), condHolds c s.cpsr = true →
    let p := reg s rm * reg s rs
    let acc : Nat := (reg s rdHi).toNat * 2 ^ 32 + (reg s rdLo).toNat
    let u : Nat := (reg s rm).toNat * (reg s rs).toNat
    let i : Int := (reg s rm).toInt * (reg s rs).toInt
    let short (j : Instr) (v : Word) : Prop :=
      (fld 0 2 v ≠ 0#2 → endsFatal .alignmentError s.sched j s) ∧
      (fld 0 2 v = 0#2 → ∃ t, exec j s = .next t ∧ t.pc = v ∧ t.pcAltered = true ∧ sameGprsBut [] s t ∧
        sameControl s t ∧ sameElsewhere s t ∧ multiplied sf (bit 31 v) (decide (v = 0#32)) true s t)
    short (.mul c sf 15 rs rm) p ∧ short (.mla c sf 15 rn rs rm) (p + reg s rn) ∧
    (rdHi = 15#4 ∨ rdLo = 15#4 →
      longIntoPc (.umull c sf rdHi rdLo rs rm) sf rdHi rdLo (BitVec.ofNat 64 u) s ∧
      longIntoPc (.umlal c sf rdHi rdLo rs rm) sf rdHi rdLo (BitVec.ofNat 64 (u + acc)) s ∧
      longIntoPc (.smull c sf rdHi rdLo rs rm) sf rdHi rdLo (BitVec.ofInt 64 i) s ∧
      longIntoPc (.smlal c sf rdHi rdLo rs rm) sf rdHi rdLo (BitVec.ofInt 64 (i + acc)) s)

/-! ### Single transfers -/

/-- The address, the write-back value and the write-back of formats SINGLE and HALFWORD (R241, R253). -/
def Obligations.AddressForms : Prop :=
  (∀ (a : Address) (s : State),
    let offset : Word := match a.off with
      | .imm off => BitVec.ofNat 32 off.toNat
      | .reg rm ty n => (operand2 (.shiftImm rm ty n) s).value
    let x := singleAccess a s
    x.target = (if a.u then reg s a.rn + offset else reg s a.rn - offset) ∧
    x.addr = (if a.p then x.target else reg s a.rn) ∧ (x.wb = true ↔ a.p = false ∨ a.w = true)) ∧
  (∀ (a : HalfAddress) (s : State),
    let offset : Word := match a.off with
      | .imm off => BitVec.ofNat 32 off.toNat
      | .reg rm => reg s rm
    let x := halfAccess a s
    x.target = (if a.u then reg s a.rn + offset else reg s a.rn - offset) ∧
    x.addr = (if a.p then x.target else reg s a.rn) ∧ (x.wb = true ↔ a.p = false ∨ a.w = true)) ∧
  (∀ (u : Bool) (rn : Reg) (off : Offset) (s : State),
    translatedAccess u rn off s = singleAccess ⟨false, u, true, rn, off⟩ s)

/-- The seven loads into a register other than R15 (R242, R243, R246, R247, R250, R254, R256, R257): a word is rotated
by its address (D11, log entry 15), a byte or halfword is extended, the base is written back first. Choices, beside
the rotation: where Rd is the written-back base it runs and the loaded value wins (R250: D19, log entry 15; U7, log
entry 13); LDRT and LDRBT are the post-indexed plain forms (R246: D23, log entry 15). Rd = R15 is LoadsIntoR15's, a
written-back base R15 WriteBackToR15's. -/
def Obligations.LoadsIntoRegisters : Prop :=
  ∀ (c : Cond) (rd : Reg) (a : Address) (h : HalfAddress) (u : Bool) (rn : Reg) (off : Offset) (s : State),
    condHolds c s.cpsr = true →
    let x := singleAccess a s
    let y := translatedAccess u rn off s
    let z := halfAccess h s
    loadsAs (.ldr c rd a) .word rd a.rn x (fun v => v.rotateRight (8 * (x.addr.toNat % 4))) s ∧
    loadsAs (.ldrb c rd a) .byte rd a.rn x id s ∧
    loadsAs (.ldrt c rd u rn off) .word rd rn y (fun v => v.rotateRight (8 * (y.addr.toNat % 4))) s ∧
    loadsAs (.ldrbt c rd u rn off) .byte rd rn y id s ∧
    loadsAs (.ldrh c rd h) .halfword rd h.rn z id s ∧
    loadsAs (.ldrsb c rd h) .byte rd h.rn z (fun v => (v.setWidth 8).signExtend 32) s ∧
    loadsAs (.ldrsh c rd h) .halfword rd h.rn z (fun v => (v.setWidth 16).signExtend 32) s

/-- The seven loads into R15 (R252): a branch to the loaded value, with the alignment check; the CPSR is unchanged.
The rotation of a word is D11 (log entry 15); that byte, halfword and T loads into R15 run (U7) is the model's choice
(log entry 13). -/
def Obligations.LoadsIntoR15 : Prop :=
  ∀ (c : Cond) (a : Address) (h : HalfAddress) (u : Bool) (rn : Reg) (off : Offset) (s : State),
    condHolds c s.cpsr = true →
    let x := singleAccess a s
    let y := translatedAccess u rn off s
    let z := halfAccess h s
    loadsPcAs (.ldr c 15 a) .word a.rn x (fun v => v.rotateRight (8 * (x.addr.toNat % 4))) s ∧
    loadsPcAs (.ldrb c 15 a) .byte a.rn x id s ∧
    loadsPcAs (.ldrt c 15 u rn off) .word rn y (fun v => v.rotateRight (8 * (y.addr.toNat % 4))) s ∧
    loadsPcAs (.ldrbt c 15 u rn off) .byte rn y id s ∧
    loadsPcAs (.ldrh c 15 h) .halfword h.rn z id s ∧
    loadsPcAs (.ldrsb c 15 h) .byte h.rn z (fun v => (v.setWidth 8).signExtend 32) s ∧
    loadsPcAs (.ldrsh c 15 h) .halfword h.rn z (fun v => (v.setWidth 16).signExtend 32) s

/-- The five stores (R244, R245, R248 to R250, R255): the register's value goes to the bus; then the base is written
back; no byte outside the stored datum changes. Choices: a stored R15 is A + 8 (D28, log entry 15); where Rd is the
written-back base it runs and the value stored is that before the write-back (R250: D19, log entry 15; U7, log entry
13); STRT and STRBT are the post-indexed plain forms (R246, R248, R249: D23, log entry 15). A written-back base R15 is
WriteBackToR15's. -/
def Obligations.StoresToMemory : Prop :=
  ∀ (c : Cond) (rd : Reg) (a : Address) (h : HalfAddress) (u : Bool) (rn : Reg) (off : Offset) (s : State),
    condHolds c s.cpsr = true →
    storesAs (.str c rd a) .word (reg s rd) a.rn (singleAccess a s) s ∧
    storesAs (.strb c rd a) .byte (reg s rd) a.rn (singleAccess a s) s ∧
    storesAs (.strt c rd u rn off) .word (reg s rd) rn (translatedAccess u rn off s) s ∧
    storesAs (.strbt c rd u rn off) .byte (reg s rd) rn (translatedAccess u rn off s) s ∧
    storesAs (.strh c rd h) .halfword (reg s rd) h.rn (halfAccess h s) s

/-- A single transfer whose access fails takes the Data Abort with nothing written (R251; D13, log entry 15), in the
state that a Device's code left. -/
def Obligations.TransferAborts : Prop :=
  ∀ (c : Cond) (rd : Reg) (a : Address) (h : HalfAddress) (u : Bool) (rn : Reg) (off : Offset) (s : State),
    condHolds c s.cpsr = true →
    let x := singleAccess a s
    let y := translatedAccess u rn off s
    let z := halfAccess h s
    (abortsOnRead (.ldr c rd a) .word x s ∧ abortsOnRead (.ldrb c rd a) .byte x s ∧
      abortsOnRead (.ldrt c rd u rn off) .word y s ∧ abortsOnRead (.ldrbt c rd u rn off) .byte y s ∧
      abortsOnRead (.ldrh c rd h) .halfword z s ∧ abortsOnRead (.ldrsb c rd h) .byte z s ∧
      abortsOnRead (.ldrsh c rd h) .halfword z s) ∧
    (abortsOnWrite (.str c rd a) .word (reg s rd) x s ∧ abortsOnWrite (.strb c rd a) .byte (reg s rd) x s ∧
      abortsOnWrite (.strt c rd u rn off) .word (reg s rd) y s ∧
      abortsOnWrite (.strbt c rd u rn off) .byte (reg s rd) y s ∧
      abortsOnWrite (.strh c rd h) .halfword (reg s rd) z s)

/-- A transfer that writes its base R15 back makes a PC write of the value (R250, R280; D19, log entry 15). -/
def Obligations.WriteBackToR15 : Prop :=
  (∀ (c : Cond) (rd : Reg) (a : Address) (h : HalfAddress) (u : Bool) (off : Offset) (s : State),
    condHolds c s.cpsr = true → a.rn = 15#4 → h.rn = 15#4 →
    let x := singleAccess a s
    let y := translatedAccess u 15#4 off s
    let z := halfAccess h s
    (loadBacksPc (.ldr c rd a) .word rd x (fun v => v.rotateRight (8 * (x.addr.toNat % 4))) s ∧
      loadBacksPc (.ldrb c rd a) .byte rd x id s ∧
      loadBacksPc (.ldrt c rd u 15#4 off) .word rd y (fun v => v.rotateRight (8 * (y.addr.toNat % 4))) s ∧
      loadBacksPc (.ldrbt c rd u 15#4 off) .byte rd y id s ∧ loadBacksPc (.ldrh c rd h) .halfword rd z id s ∧
      loadBacksPc (.ldrsb c rd h) .byte rd z (fun v => (v.setWidth 8).signExtend 32) s ∧
      loadBacksPc (.ldrsh c rd h) .halfword rd z (fun v => (v.setWidth 16).signExtend 32) s) ∧
    (storeBacksPc (.str c rd a) .word (reg s rd) x s ∧ storeBacksPc (.strb c rd a) .byte (reg s rd) x s ∧
      storeBacksPc (.strt c rd u 15#4 off) .word (reg s rd) y s ∧
      storeBacksPc (.strbt c rd u 15#4 off) .byte (reg s rd) y s ∧
      storeBacksPc (.strh c rd h) .halfword (reg s rd) z s)) ∧
  (∀ (c : Cond) (p u sBit : Bool) (list : BitVec 16) (s v : State), condHolds c s.cpsr = true →
    let wbval := blockWriteBack u s.pc list
    (∀ vs, bit 15 list = false → readWords (blockAddresses p u 15#4 list s) s = (some vs, v) →
      (fld 0 2 wbval ≠ 0#2 → endsFatal .alignmentError v.sched (.ldm c p u sBit true 15#4 list) s) ∧
      (fld 0 2 wbval = 0#2 → ∃ t, exec (.ldm c p u sBit true 15#4 list) s = .next t ∧ t.pc = wbval ∧
        t.pcAltered = true ∧ loadedBlock sBit false 15#4 list wbval vs s t ∧ t.cpsr = s.cpsr ∧
        sameMachine s t ∧ sameBytes s t ∧ t.sched = v.sched)) ∧
    (writeWords (storedBlock p u sBit true 15#4 list s) s = (v, true) →
      (fld 0 2 wbval ≠ 0#2 → endsFatal .alignmentError v.sched (.stm c p u sBit true 15#4 list) s) ∧
      (fld 0 2 wbval = 0#2 → ∃ t, exec (.stm c p u sBit true 15#4 list) s = .next t ∧ t.pc = wbval ∧
        t.pcAltered = true ∧ sameGprsBut [] s t ∧ t.cpsr = s.cpsr ∧ sameMachine s t ∧ t.mem = v.mem ∧
        t.sched = v.sched)))

/-- The halfword words that are no instruction change nothing (R258 (a); D34, log entry 15). -/
def Obligations.HalfwordNoOperation : Prop :=
  ∀ (c : Cond) (rd : Reg) (a : HalfAddress) (s : State),
    exec (.halfwordL0Sh2 c rd a) s = .next s ∧ exec (.halfwordL0Sh3 c rd a) s = .next s

/-! ### Block transfers -/

/-- The addresses of a block transfer (R270, R271): the listed registers in ascending order, one word each from the
start on, and the write-back value. The reads of an LDM over readable buffers answer the aligned words, unrotated, and
change nothing (R279). -/
def Obligations.BlockAddresses : Prop :=
  (∀ (p u : Bool) (rn : Reg) (list : BitVec 16) (s : State),
    let base := reg s rn
    let n := (listed list).length
    (∀ r : Reg, r ∈ listed list ↔ bit r.toNat list = true) ∧
    (listed list).Pairwise (fun r q => r.toNat < q.toNat) ∧
    (blockAddresses p u rn list s).length = n ∧
    (∀ k, k < n → (blockAddresses p u rn list s)[k]? = some (blockStart p u base list + BitVec.ofNat 32 (4 * k))) ∧
    blockStart false true base list = base ∧ blockStart true true base list = base + 4 ∧
    blockStart false false base list = base - BitVec.ofNat 32 (4 * n) + 4 ∧
    blockStart true false base list = base - BitVec.ofNat 32 (4 * n) ∧
    blockWriteBack true base list = base + BitVec.ofNat 32 (4 * n) ∧
    blockWriteBack false base list = base - BitVec.ofNat 32 (4 * n)) ∧
  (∀ (addrs : List Word) (s : State),
    (∀ a ∈ addrs, ∃ r, regionAt s.regions (alignTo .word a).toNat = some r ∧ (r.kind = .ram ∨ r.kind = .noWrite)) →
    readWords addrs s = (some (addrs.map fun a => readDatum s.mem (alignTo .word a).toNat .word), s))

/-- LDM without R15 in the list (R272, R275, R276, R277; D30, log entry 15): the base is written back, the listed
registers are loaded, of the bank usr for S = 1, and nothing else changes. -/
def Obligations.LdmLoadsRegisters : Prop :=
  ∀ (c : Cond) (p u sBit w : Bool) (rn : Reg) (list : BitVec 16) (s v : State) (vs : List Word),
    condHolds c s.cpsr = true → bit 15 list = false → (w = true → rn ≠ 15#4) →
    readWords (blockAddresses p u rn list s) s = (some vs, v) →
    ∃ t, exec (.ldm c p u sBit w rn list) s = .next t ∧
      loadedBlock sBit w rn list (blockWriteBack u (reg s rn) list) vs s t ∧
      t.pc = s.pc ∧ t.pcAltered = s.pcAltered ∧ t.cpsr = s.cpsr ∧ sameMachine s t ∧ sameBytes s t ∧
      t.sched = v.sched

/-- LDM with R15 in the list (R272, R274, R280; D29, log entry 15): for S = 0 a branch to the last word, with the
alignment check; for S = 1, in a mode that has an SPSR, the exception return, which loads the registers of the old
mode. Choices, beside D29: a base R15 reads as A + 8 (D28, log entry 15) and its write-back is a PC write, which is
the fatal AlignmentError where the value (`badBase`) is misaligned (R280: D19, log entry 15; U17, log entry 13); a
listed base keeps the loaded value (R276: D30, log entry 15). Modes that have no SPSR are WithoutSavedStatus's. -/
def Obligations.LdmIntoR15 : Prop :=
  ∀ (c : Cond) (p u w : Bool) (rn : Reg) (list : BitVec 16) (s v : State) (vs : List Word) (target : Word),
    condHolds c s.cpsr = true → bit 15 list = true →
    readWords (blockAddresses p u rn list s) s = (some vs, v) → vs.getLast? = some target →
    let wbval := blockWriteBack u (reg s rn) list
    (badBase w rn wbval → ∀ sBit, endsFatal .alignmentError v.sched (.ldm c p u sBit w rn list) s) ∧
    (¬badBase w rn wbval →
      blockBranches (.ldm c p u false w rn list) false w rn list wbval vs target s.cpsr s v ∧
      ∀ word, spsrOf (bankOf s.cpsr.mode) s.spsr = some word →
        blockReturns (.ldm c p u true w rn list) w rn list wbval vs target word s v)

/-- STM (R273): the listed registers' values go to the block's addresses in ascending order, then the base is written
back; no byte outside the block changes. The values (D28, D30, log entry 15): R15 as A + 8 (R280), the bank usr for S
= 1 (R275), the written-back base where the base is listed but not first (R276). -/
def Obligations.StmStores : Prop :=
  (∀ (c : Cond) (p u sBit w : Bool) (rn : Reg) (list : BitVec 16) (s v : State),
    condHolds c s.cpsr = true → (w = true → rn ≠ 15#4) →
    writeWords (storedBlock p u sBit w rn list s) s = (v, true) →
    ∃ t, exec (.stm c p u sBit w rn list) s = .next t ∧
      (w = true → t.gpr[phys s.cpsr.mode rn] = blockWriteBack u (reg s rn) list) ∧
      sameGprsBut (if w then [phys s.cpsr.mode rn] else []) s t ∧
      t.pc = s.pc ∧ t.pcAltered = s.pcAltered ∧ t.cpsr = s.cpsr ∧ sameMachine s t ∧ t.mem = v.mem ∧
      t.sched = v.sched ∧
      ∀ a, (∀ b ∈ blockAddresses p u rn list s,
          a < (alignTo .word b).toNat ∨ (alignTo .word b).toNat + 4 ≤ a) →
        readByte t.mem a = readByte s.mem a) ∧
  (∀ (sBit w : Bool) (rn : Reg) (list : BitVec 16) (wbval : Word) (s : State) (k : Nat) (r : Reg),
    (listed list)[k]? = some r →
    (storedValues sBit w rn list wbval s)[k]? = some (
      if r = rn ∧ w = true ∧ 0 < k then wbval
      else if r = 15#4 then s.pc
      else if sBit then s.gpr[phys .user r]
      else s.gpr[phys s.cpsr.mode r]))

/-- A block transfer whose access fails (R278; D13, log entry 15): the writes stop there and the earlier ones stay;
the Data Abort is taken from the state they left; an LDM has written no register, an STM has not written its base
back. -/
def Obligations.BlockAborts : Prop :=
  (∀ (c : Cond) (p u sBit w : Bool) (rn : Reg) (list : BitVec 16) (s v : State), condHolds c s.cpsr = true →
    (readWords (blockAddresses p u rn list s) s = (none, v) →
      ∃ t, exec (.ldm c p u sBit w rn list) s = .next t ∧ entered .data v t ∧
        v = { s with sched := v.sched, draws := v.draws }) ∧
    (writeWords (storedBlock p u sBit w rn list s) s = (v, false) →
      ∃ t, exec (.stm c p u sBit w rn list) s = .next t ∧ entered .data v t ∧ t.mem = v.mem ∧
        v = { s with mem := v.mem, sched := v.sched, draws := v.draws })) ∧
  (∀ (done rest : List (Word × Word)) (a x : Word) (s v : State), writeWords done s = (v, true) →
    ∀ u, memWrite v a .word x = (u, false) →
      sameButDevices v u ∧ writeWords (done ++ (a, x) :: rest) s = (u, false))

/-! ### Swaps -/

/-- SWP and SWPB (R290, R291): the read, then the write of the same datum, then Rd; the rotation of a word is D11 (log
entry 15). If the read or the write fails, the Data Abort: memory is unchanged and Rd is not written, and what a
Device did in either access stays (R292, R408; D13, log entry 15). That R15 as destination is a PC write (U18) is the
model's choice (log entry 13). -/
def Obligations.Swaps : Prop :=
  (∀ (c : Cond) (rn rd rm : Reg) (s : State), condHolds c s.cpsr = true →
    let addr := reg s rn
    let swaps (i : Instr) (w : Width) (value : Word → Word) : Prop :=
      ∀ v s1 s2, memRead s addr w = (some v, s1) → memWrite s1 addr w (reg s rm) = (s2, true) →
        (rd ≠ 15#4 → ∃ t, exec i s = .next t ∧ t.gpr[phys s.cpsr.mode rd] = value v ∧
          sameGprsBut [phys s.cpsr.mode rd] s t ∧ t.pc = s.pc ∧ t.pcAltered = s.pcAltered ∧ t.cpsr = s.cpsr ∧
          sameMachine s t ∧ t.mem = s2.mem ∧ t.sched = s2.sched ∧
          ∀ a, a < (alignTo w addr).toNat ∨ (alignTo w addr).toNat + w.bytes ≤ a →
            readByte t.mem a = readByte s.mem a) ∧
        (rd = 15#4 → fld 0 2 (value v) ≠ 0#2 → endsFatal .alignmentError s2.sched i s) ∧
        (rd = 15#4 → fld 0 2 (value v) = 0#2 → ∃ t, exec i s = .next t ∧ t.pc = value v ∧ t.pcAltered = true ∧
          sameGprsBut [] s t ∧ t.cpsr = s.cpsr ∧ sameMachine s t ∧ t.mem = s2.mem ∧ t.sched = s2.sched)
    swaps (.swp c rn rd rm) .word (fun v => v.rotateRight (8 * (addr.toNat % 4))) ∧
    swaps (.swpb c rn rd rm) .byte id) ∧
  (∀ (c : Cond) (rn rd rm : Reg) (s : State), condHolds c s.cpsr = true →
    let aborts (i : Instr) (w : Width) : Prop :=
      (∀ s1, memRead s (reg s rn) w = (none, s1) →
        sameButDevices s s1 ∧ ∃ t, exec i s = .next t ∧ entered .data s1 t ∧ t.mem = s.mem) ∧
      (∀ v s1 s2, memRead s (reg s rn) w = (some v, s1) → memWrite s1 (reg s rn) w (reg s rm) = (s2, false) →
        sameButDevices s s2 ∧ ∃ t, exec i s = .next t ∧ entered .data s2 t ∧ t.mem = s.mem)
    aborts (.swp c rn rd rm) .word ∧ aborts (.swpb c rn rd rm) .byte)

/-! ### Branches and traps -/

/-- B and BL from an aligned R15 (R295, R296): the target is R15 + 4 * offset, R15 being A + 8; BL writes A + 4 to
R14. BX (R297 to R299): an odd address is fatal UnsupportedState, one that is 2 modulo 4 fatal AlignmentError, an
aligned one a branch. That B's write of R15 never fails is the spec's derivation, and that a branch to A + 8 or to A +
4 is one like any other its decision (R295: D8, log entry 15); BX of R15, a branch to A + 8, is an input that it lets
a model refuse and this one runs (R297: D19, log entry 15; U19, log entry 13). -/
def Obligations.Branches : Prop :=
  (∀ (c : Cond) (offset24 : BitVec 24) (s : State), condHolds c s.cpsr = true → s.pc.toNat % 4 = 0 →
    let target := BitVec.ofInt 32 (s.pc.toNat + 4 * offset24.toInt)
    (∃ t, exec (.b c offset24) s = .next t ∧ wrotePc target s t) ∧
    (∃ t, exec (.bl c offset24) s = .next t ∧ t.pc = target ∧ t.pcAltered = true ∧
      t.gpr[phys s.cpsr.mode 14#4] = s.pc - 4 ∧ sameGprsBut [phys s.cpsr.mode 14#4] s t ∧ t.cpsr = s.cpsr ∧
      sameElsewhere s t)) ∧
  (∀ (c : Cond) (rm : Reg) (s : State), condHolds c s.cpsr = true →
    (bit 0 (reg s rm) = true → endsFatal .unsupportedState s.sched (.bx c rm) s) ∧
    (bit 0 (reg s rm) = false → bit 1 (reg s rm) = true → endsFatal .alignmentError s.sched (.bx c rm) s) ∧
    (fld 0 2 (reg s rm) = 0#2 → ∃ t, exec (.bx c rm) s = .next t ∧ wrotePc (reg s rm) s t))

/-- SWI takes the Software exception (R305, R381), the undefined space and every coprocessor instruction the Undefined
exception, whatever their fields (R306 to R310), with the address of the next instruction in R14 of the new mode. -/
def Obligations.TrappingInstructions : Prop :=
  (∀ (c : Cond) (comment : BitVec 24) (s : State), condHolds c s.cpsr = true →
    ∃ t, exec (.swi c comment) s = .next t ∧ entered .software s t ∧ t.gpr[phys .supervisor 14#4] = s.pc - 4 ∧
      t.pc = 0x08#32 ∧ t.cpsr.mode = .supervisor ∧ t.cpsr.f = s.cpsr.f) ∧
  (∀ (i : Instr) (s : State), condHolds i.cond s.cpsr = true → trapsUndefined i = true →
    ∃ t, exec i s = .next t ∧ entered .undefined s t ∧ t.gpr[phys .undefined 14#4] = s.pc - 4 ∧
      t.pc = 0x04#32 ∧ t.cpsr.mode = .undefined ∧ t.cpsr.f = s.cpsr.f)

/-! ### The bus and the Regions -/

/-- What answers an access at the aligned address (R61 to R65). No Region, or one that forbids the direction: it fails
and nothing changes. A buffer: it reads or writes there and does nothing else. A Device (R73, R77; D17, log entry 15):
it is asked at the Region-local offset; its value is masked to the width, the value written is masked before; or it
fails the access; its code's facade calls are applied in either case, and no register, status, cycle or byte of memory
changes. Its answers are free values (log entries 8, 24 and 26). -/
def Obligations.BusAccess : Prop :=
  ∀ (s : State) (addr v : Word) (w : Width),
    let a := addr.toNat - addr.toNat % w.bytes
    ((∀ r ∈ s.regions, ¬(r.base ≤ a ∧ a < r.base + r.size)) →
      memRead s addr w = (none, s) ∧ memWrite s addr w v = (s, false)) ∧
    (∀ r, regionsInv s.regions → r ∈ s.regions → r.base ≤ a ∧ a < r.base + r.size →
      (r.kind = .noRead → memRead s addr w = (none, s)) ∧ (r.kind = .noWrite → memWrite s addr w v = (s, false)) ∧
      (r.kind = .ram ∨ r.kind = .noWrite → memRead s addr w = (some (readDatum s.mem a w), s)) ∧
      (r.kind = .ram ∨ r.kind = .noRead → memWrite s addr w v = ({ s with mem := writeDatum s.mem a w v }, true)) ∧
      (∀ id, r.kind = .device id →
        let offset := BitVec.ofNat 32 (a - r.base)
        let reply := Config.deviceRead s.draws s.cycles id offset w.bytes
        let receipt :=
          Config.deviceWrite s.draws s.cycles id offset w.bytes (BitVec.ofNat 32 (v.toNat % 2 ^ (8 * w.bytes)))
        (∃ t, memRead s addr w = (reply.value.map fun x => BitVec.ofNat 32 (x.toNat % 2 ^ (8 * w.bytes)), t) ∧
          t.sched = (facadeCalls reply.calls s).sched ∧ sameButDevices s t) ∧
        (∃ t, memWrite s addr w v = (t, receipt.accepted) ∧ t.sched = (facadeCalls receipt.calls s).sched ∧
          sameButDevices s t)))

/-- Byte order (R70): a written word is read back whole, its halves and bytes little-endian; a narrower write places
the low bytes and leaves every other byte. -/
def Obligations.LittleEndianMemory : Prop :=
  ∀ (m : Memory) (a : Nat) (v : Word), Memory.wf m = true →
    Memory.wf (writeDatum m a .word v) = true ∧
    readDatum (writeDatum m a .word v) a .word = v ∧
    (∀ k, k < 4 → readByte (writeDatum m a .word v) (a + k) = fld (8 * k) 8 v) ∧
    readDatum (writeDatum m a .word v) a .halfword = BitVec.ofNat 32 (v.toNat % 2 ^ 16) ∧
    readDatum (writeDatum m a .word v) (a + 2) .halfword = BitVec.ofNat 32 (v.toNat / 2 ^ 16) ∧
    readDatum (writeDatum m a .halfword v) a .halfword = BitVec.ofNat 32 (v.toNat % 2 ^ 16) ∧
    readDatum (writeDatum m a .byte v) a .byte = BitVec.ofNat 32 (v.toNat % 2 ^ 8) ∧
    (∀ (w : Width) (b : Nat), b < a ∨ a + w.bytes ≤ b → readByte (writeDatum m a w v) b = readByte m b)

/-- `Map` and `Unmap` (R68, R69): a Region that overlaps a mapped one is refused and nothing changes, another is
appended; a mapped Region is removed, another is not. The images of a buffer are placed in it byte by byte (R66), also
by a load into a mapped one, which is the model's choice (log entry 12), and no other byte changes; an unmapped Region
takes its own bytes only. The Region and its images are ones that R66 and R67 allow. -/
def Obligations.MapAndUnmap : Prop :=
  ∀ (r : Region) (images : List Image) (s : State), goodGeometry r = true → imagesFit r images = true →
    ((∃ q ∈ s.regions, r.base < q.base + q.size ∧ q.base < r.base + r.size) → mapRegion r images s = (false, s)) ∧
    ((∀ q ∈ s.regions, ¬(r.base < q.base + q.size ∧ q.base < r.base + r.size)) →
      ∃ t, mapRegion r images s = (true, t) ∧ t = { s with regions := s.regions ++ [r], mem := t.mem } ∧
        (buffered r.kind = true → Memory.wf s.mem = true → imagesPlaced r images s.mem t.mem) ∧
        (buffered r.kind = false → t.mem = s.mem)) ∧
    (r ∈ s.regions → buffered r.kind = true → Memory.wf s.mem = true →
      imagesPlaced r images s.mem (loadImages r images s).mem) ∧
    (r ∈ s.regions →
      ∃ t, unmapRegion r s = (true, t) ∧ t = { s with regions := s.regions.erase r, mem := t.mem } ∧
        ∀ a, a < r.base ∨ r.base + r.size ≤ a → readByte t.mem a = readByte s.mem a) ∧
    (r ∉ s.regions → unmapRegion r s = (false, s))

/-! ### The Scheduler -/

/-- `RegisterCallback` (R322) puts the new record after the last one that is due no later, in an ordered queue; a
cancelled handle is live no more (R323; D36, log entry 15). -/
def Obligations.CallbackQueue : Prop :=
  (∀ (timeout : Rat) (periodic : Bool) (handler : Nat) (s : State), 0 ≤ timeout → schedInv s.sched →
    let added : Callback := ⟨s.sched.nextHandle, now s + timeout, timeout, periodic, handler, false⟩
    ∃ before after, s.sched.queue = before ++ after ∧
      (registerCallback timeout periodic handler s).sched.queue = before ++ added :: after ∧
      (∀ q ∈ before, q.dueTime ≤ added.dueTime) ∧ (∀ q ∈ after, added.dueTime < q.dueTime)) ∧
  (∀ (handle : Nat) (s : State),
    ((unregisterCallback handle s).1 = true ↔
      ∃ r ∈ s.sched.queue ++ s.sched.again, r.handle = handle ∧ r.cancelled = false) ∧
    live handle (unregisterCallback handle s).2 = false ∧
    ∀ h, h ≠ handle → live h (unregisterCallback handle s).2 = live h s)

/-- The drain (R324, R326 to R329; D25, log entry 15). One turn of its loop: a due head is popped; if it is live, its
handler's calls are applied, and it waits for re-registration if and only if it is periodic; if it is cancelled, it is
dropped and nothing else happens; with no due head the loop ends. The head is due no later than any other record, a
handler neither puts its record back nor takes one out of those that wait, and when the loop ends every queued record
is in the future. Then the waiting records that are not cancelled are queued again, with their handles, at `now +
span`, in firing order, each after those that are due no later. If no handler registers a callback, the drain ends. -/
def Obligations.DrainEmptiesTheDuePrefix : Prop :=
  (∀ (o : Oracle) (due : Rat) (fuel : Nat) (s : State), schedInv s.sched →
    (∀ head rest, s.sched.queue = head :: rest → head.dueTime ≤ due →
      (∀ r ∈ rest, head.dueTime ≤ r.dueTime) ∧
      (head.cancelled = false →
        let waiting := if head.periodic then s.sched.again ++ [head] else s.sched.again
        let popped : State :=
          { s with sched := { s.sched with queue := rest, again := waiting }, draws := s.draws + 1 }
        let called := facadeCalls (o.callback s.draws s.cycles head.handler) popped
        drainLoop o due (fuel + 1) s = drainLoop o due fuel called ∧
        called.sched.again.map (·.handle) = waiting.map (·.handle) ∧
        ∀ r ∈ called.sched.queue, r.handle ≠ head.handle) ∧
      (head.cancelled = true →
        drainLoop o due (fuel + 1) s = drainLoop o due fuel { s with sched := { s.sched with queue := rest } })) ∧
    ((∀ head, s.sched.queue.head? = some head → due < head.dueTime) → drainLoop o due fuel s = some s) ∧
    (∀ t, drainLoop o due fuel s = some t → ∀ r ∈ t.sched.queue, due < r.dueTime)) ∧
  (∀ (o : Oracle) (fuel : Nat) (s t : State), drain o fuel s = some t →
    ∃ u, drainLoop o (now s) fuel s = some u ∧ t = reregister (now s) u ∧ now t = now s) ∧
  (∀ (due : Rat) (s : State) (waiting : List Callback) (q : Callback), schedInv s.sched →
    s.sched.again = waiting ++ [q] →
    let before := (reregister due { s with sched := { s.sched with again := waiting } }).sched.queue
    (q.cancelled = true → (reregister due s).sched.queue = before) ∧
    (q.cancelled = false → ∃ earlier later, before = earlier ++ later ∧
      (reregister due s).sched.queue = earlier ++ { q with dueTime := due + q.span } :: later ∧
      (∀ p ∈ earlier, p.dueTime ≤ due + q.span) ∧ (∀ p ∈ later, due + q.span < p.dueTime))) ∧
  (∀ (due : Rat) (s : State), reregister due s =
      { s with sched := { s.sched with queue := (reregister due s).sched.queue, again := [] } } ∧
    (s.sched.again = [] → (reregister due s).sched.queue = s.sched.queue)) ∧
  (∀ (o : Oracle) (fuel : Nat) (s : State),
    (∀ draw cycles handler, ∀ call ∈ o.callback draw cycles handler, ∀ timeout periodic h,
      call ≠ .registerCallback timeout periodic h) →
    s.sched.queue.length ≤ fuel → ∃ t, drain o fuel s = some t)

/-- `Cpu.Run` (R149, R151, R152; D15, log entry 15): a budget of at most 0 runs nothing; another is used up, and what
is returned is the budget less the cycles consumed. The loop repeats the step (R149): after a step, which is `Step()`
and the sampling (log entry 19), the run is the run of the budget less the step's cycles; so what is said of a run's
first step holds of each. A fatal step ends it with no cycles for that step, in a machine that is halted with its kind
(R153, R375; D31, log entry 15); a halted machine has no step and runs nothing, and `Vm.Run` drains after a run that
did not end so, and only then; so it drains also for a budget of at most 0 in a machine that was halted before (the
model's choice: log entry 27). -/
def Obligations.CpuRunLeftover : Prop :=
  (∀ (budget : Int) (s : State),
    (budget ≤ 0 → cpuRun budget s = .done budget s) ∧
    (0 < budget → ∀ left t, cpuRun budget s = .done left t →
      left ≤ 0 ∧ left = budget - ((t.cycles : Int) - s.cycles) ∧ s.cycles < t.cycles)) ∧
  (∀ (budget : Int) (s t : State), 0 < budget → step s = .next t →
    cpuRun budget s = cpuRun (budget - ((t.cycles : Int) - s.cycles)) t) ∧
  (∀ (budget : Int) (s : State), 0 < budget → ∀ kind, s.halted = some kind → cpuRun budget s = .halted s) ∧
  (∀ (budget : Int) (s : State), 0 < budget → ∀ kind left, step s = .fault (.fatal kind left) →
    ∃ t, cpuRun budget s = .halted t ∧ t.halted = some kind ∧ t.cycles = s.cycles) ∧
  (∀ (o : Oracle) (fuel : Nat) (budget : Int) (s : State),
    (∀ t, cpuRun budget s = .halted t → (∃ kind, t.halted = some kind ∧ step t = .fault (.halted kind)) ∧
      vmRun o fuel budget s = some (.halted t)) ∧
    (∀ left t, cpuRun budget s = .done left t → vmRun o fuel budget s = (drain o fuel t).map (RunResult.done left)))

/-- Device registration (R337; D37, log entry 15): a listed Device is refused, an accepted one is listed; removal
needs a listed Device. -/
def Obligations.DeviceRegistration : Prop :=
  ∀ (o : Oracle) (dev : Nat) (s : State),
    (dev ∈ s.sched.devices → registerDevice o dev s = (false, s)) ∧
    (dev ∉ s.sched.devices →
      (registerDevice o dev s).1 = (o.onRegister s.draws s.cycles dev).accepted ∧
      ((registerDevice o dev s).1 = true → (registerDevice o dev s).2.sched.devices = s.sched.devices ++ [dev]) ∧
      ((registerDevice o dev s).1 = false → (registerDevice o dev s).2.sched.devices = s.sched.devices)) ∧
    (dev ∉ s.sched.devices → unregisterDevice o dev s = (false, s)) ∧
    (dev ∈ s.sched.devices → (unregisterDevice o dev s).1 = true ∧
      (unregisterDevice o dev s).2.sched.devices = s.sched.devices.erase dev)
end

