-- ==== Sys2Proof/Laws/Memory.lean ====
section
/-!
SUPPORT. The laws of memory: reading back what was written, every other address as before, and the canonical form
kept by every memory operation. Region facts follow: a datum that starts in a Region lies in it (spec R67).
-/

namespace Sys2Proof.Machine

/-! ### Bytes -/

theorem readByte_of_all_lt {m : Memory} {a : Nat} (h : m.all (fun c => a < c.1) = true) :
    readByte m a = Config.unlistedByte := by
  induction m with
  | nil => rfl
  | cons c rest ih =>
    obtain ⟨k, x⟩ := c
    simp only [List.all_cons, Bool.and_eq_true, decide_eq_true_eq] at h
    rw [readByte, if_neg (by omega)]
    exact ih h.2

theorem all_lt_writeByte {m : Memory} {k a : Nat} {b : Byte} (h : m.all (fun c => k < c.1) = true) (ha : k < a) :
    (writeByte m a b).all (fun c => k < c.1) = true := by
  induction m with
  | nil => simp only [writeByte]; split <;> simp [ha]
  | cons c rest ih =>
    obtain ⟨j, x⟩ := c
    simp only [List.all_cons, Bool.and_eq_true, decide_eq_true_eq] at h
    simp only [writeByte]
    split
    · simp [h.1, ih h.2]
    · split
      · split
        · exact h.2
        · simp [ha, h.2]
      · split
        · simp [h.1, h.2]
        · simp [ha, h.1, h.2]

theorem wf_writeByte {m : Memory} (h : Memory.wf m = true) (a : Nat) (b : Byte) :
    Memory.wf (writeByte m a b) = true := by
  induction m with
  | nil => simp only [writeByte]; split <;> simp_all [Memory.wf]
  | cons c rest ih =>
    obtain ⟨k, x⟩ := c
    have hc := h
    simp only [Memory.wf, Bool.and_eq_true, bne_iff_ne, ne_eq] at h
    obtain ⟨⟨hx, hall⟩, hwf⟩ := h
    simp only [writeByte]
    split
    · simp [Memory.wf, hx, ih hwf, all_lt_writeByte hall ‹k < a›]
    · split
      · subst k
        split
        · exact hwf
        · simp only [Memory.wf, hwf, hall, Bool.and_true, bne_iff_ne]
          assumption
      · split
        · exact hc
        · have hka : a < k := by omega
          have hall' : rest.all (fun c => a < c.1) = true := by
            simp only [List.all_eq_true, decide_eq_true_eq] at hall ⊢
            intro c hcm
            exact Nat.lt_trans hka (hall c hcm)
          rw [Memory.wf, Memory.wf, hwf, hall]
          simp only [List.all_cons, hall', hka, decide_true, Bool.and_true, Bool.and_eq_true,
            bne_iff_ne]
          exact ⟨‹_›, hx⟩

theorem readByte_writeByte_same {m : Memory} (h : Memory.wf m = true) (a : Nat) (b : Byte) :
    readByte (writeByte m a b) a = b := by
  induction m with
  | nil => simp only [writeByte]; split <;> simp_all [readByte]
  | cons c rest ih =>
    obtain ⟨k, x⟩ := c
    simp only [Memory.wf, Bool.and_eq_true, bne_iff_ne, ne_eq] at h
    obtain ⟨⟨hx, hall⟩, hwf⟩ := h
    simp only [writeByte]
    split
    · rw [readByte, if_neg (by omega), ih hwf]
    · split
      · subst k
        split
        · rw [readByte_of_all_lt hall]; simp_all
        · simp [readByte]
      · split
        · rename_i hb
          rw [readByte, if_neg ‹_›, hb]
          apply readByte_of_all_lt
          simp only [List.all_eq_true, decide_eq_true_eq] at hall ⊢
          intro c hcm
          have := hall c hcm
          omega
        · simp [readByte]

theorem readByte_writeByte_ne (m : Memory) {a a' : Nat} (b : Byte) (h : a' ≠ a) :
    readByte (writeByte m a b) a' = readByte m a' := by
  induction m with
  | nil => simp only [writeByte]; split <;> simp [readByte, Ne.symm h]
  | cons c rest ih =>
    obtain ⟨k, x⟩ := c
    simp only [writeByte]
    split
    · simp only [readByte]; split <;> simp [ih]
    · split
      · subst k
        split <;> simp [readByte, Ne.symm h]
      · split
        · rfl
        · simp [readByte, Ne.symm h]

theorem mem_writeByte {m : Memory} {a : Nat} {b : Byte} {c : Host.Cell} (h : c ∈ writeByte m a b) :
    c ∈ m ∨ c.1 = a := by
  induction m with
  | nil => simp only [writeByte] at h; split at h <;> simp_all
  | cons d rest ih =>
    obtain ⟨k, x⟩ := d
    simp only [writeByte] at h
    split at h
    · rcases List.mem_cons.1 h with h | h
      · simp [h]
      · rcases ih h with h | h <;> simp [h]
    · split at h
      · split at h
        · exact .inl (List.mem_cons_of_mem _ h)
        · rcases List.mem_cons.1 h with h | h <;> simp_all
      · split at h
        · exact .inl h
        · rcases List.mem_cons.1 h with h | h <;> simp_all

/-! ### Lists of bytes -/

theorem wf_writeBytes {m : Memory} (h : Memory.wf m = true) (a : Nat) (bs : List Byte) :
    Memory.wf (writeBytes m a bs) = true := by
  induction bs generalizing m a with
  | nil => exact h
  | cons b rest ih => exact ih (wf_writeByte h a b) (a + 1)

theorem readByte_writeBytes_outside (m : Memory) (a : Nat) (bs : List Byte) {a' : Nat}
    (h : a' < a ∨ a + bs.length ≤ a') : readByte (writeBytes m a bs) a' = readByte m a' := by
  induction bs generalizing m a with
  | nil => rfl
  | cons b rest ih =>
    simp only [List.length_cons] at h
    rw [writeBytes, ih _ _ (by omega), readByte_writeByte_ne _ _ (by omega)]

theorem readByte_writeBytes_inside {m : Memory} (h : Memory.wf m = true) (a : Nat) (bs : List Byte) (k : Nat)
    (hk : k < bs.length) : readByte (writeBytes m a bs) (a + k) = bs[k] := by
  induction bs generalizing m a k with
  | nil => exact absurd hk (Nat.not_lt_zero k)
  | cons b rest ih =>
    cases k with
    | zero =>
      rw [Nat.add_zero, writeBytes, readByte_writeBytes_outside _ _ _ (by omega), readByte_writeByte_same h]
      rfl
    | succ k =>
      rw [writeBytes, show a + (k + 1) = a + 1 + k by omega,
        ih (wf_writeByte h a b) (a + 1) k (by simpa using hk)]
      rfl

theorem mem_writeBytes {m : Memory} {a : Nat} {bs : List Byte} {c : Host.Cell} (h : c ∈ writeBytes m a bs) :
    c ∈ m ∨ (a ≤ c.1 ∧ c.1 < a + bs.length) := by
  induction bs generalizing m a with
  | nil => exact .inl h
  | cons b rest ih =>
    simp only [List.length_cons]
    rcases ih h with h | h
    · rcases mem_writeByte h with h | h
      · exact .inl h
      · exact .inr (by omega)
    · exact .inr (by omega)

/-! ### The widths -/

theorem Width.bytes_le (w : Width) : w.bytes ≤ 4 := by cases w <;> decide

theorem length_datum (w : Width) (v : Word) : ((bytesOfWord v).take w.bytes).length = w.bytes := by
  cases w <;> rfl

theorem wf_writeDatum {m : Memory} (h : Memory.wf m = true) (a : Nat) (w : Width) (v : Word) :
    Memory.wf (writeDatum m a w v) = true := wf_writeBytes h _ _

theorem readByte_writeDatum_outside (m : Memory) (a : Nat) (w : Width) (v : Word) {a' : Nat}
    (h : a' < a ∨ a + w.bytes ≤ a') : readByte (writeDatum m a w v) a' = readByte m a' :=
  readByte_writeBytes_outside _ _ _ (by rw [length_datum]; exact h)

theorem mem_writeDatum {m : Memory} {a : Nat} {w : Width} {v : Word} {c : Host.Cell}
    (h : c ∈ writeDatum m a w v) : c ∈ m ∨ (a ≤ c.1 ∧ c.1 < a + w.bytes) := by
  have := mem_writeBytes h
  rwa [length_datum] at this

/-- The bytes of an aligned word, in little-endian order, make the word again (R70). -/
theorem wordOfBytes_fld (v : Word) : wordOfBytes (fld 0 8 v) (fld 8 8 v) (fld 16 8 v) (fld 24 8 v) = v := by
  apply BitVec.eq_of_getLsbD_eq
  intro i hi
  simp only [wordOfBytes, cat, fld, BitVec.getLsbD_setWidth, BitVec.getLsbD_append, BitVec.getLsbD_extractLsb']
  interval_cases i <;> simp

/-- A word written is the word read (R70). -/
theorem readDatum_writeDatum_word {m : Memory} (h : Memory.wf m = true) (a : Nat) (v : Word) :
    readDatum (writeDatum m a .word v) a .word = v := by
  have hb := readByte_writeBytes_inside h a ((bytesOfWord v).take 4)
  have h0 := hb 0 (by simp [bytesOfWord])
  have h1 := hb 1 (by simp [bytesOfWord])
  have h2 := hb 2 (by simp [bytesOfWord])
  have h3 := hb 3 (by simp [bytesOfWord])
  simp only [Nat.add_zero] at h0
  simp only [readDatum, writeDatum, Width.bytes, h0, h1, h2, h3]
  exact wordOfBytes_fld v

theorem readDatum_writeDatum_outside (m : Memory) (a : Nat) (w : Width) (v : Word) (a' : Nat) (w' : Width)
    (h : a' + w'.bytes ≤ a ∨ a + w.bytes ≤ a') : readDatum (writeDatum m a w v) a' w' = readDatum m a' w' := by
  have hb (k : Nat) (hk : k < w'.bytes) : readByte (writeDatum m a w v) (a' + k) = readByte m (a' + k) :=
    readByte_writeDatum_outside _ _ _ _ (by omega)
  cases w' <;> simp only [Width.bytes] at hb
  · have h0 := hb 0 (by decide)
    simp only [Nat.add_zero] at h0
    simp [readDatum, h0]
  · have h0 := hb 0 (by decide)
    simp only [Nat.add_zero] at h0
    simp [readDatum, h0, hb 1 (by decide)]
  · have h0 := hb 0 (by decide)
    simp only [Nat.add_zero] at h0
    simp [readDatum, h0, hb 1 (by decide), hb 2 (by decide), hb 3 (by decide)]

/-! ### Extents -/

theorem wf_filter {m : Memory} (h : Memory.wf m = true) (p : Host.Cell → Bool) :
    Memory.wf (m.filter p) = true := by
  induction m with
  | nil => exact h
  | cons c rest ih =>
    obtain ⟨k, x⟩ := c
    simp only [Memory.wf, Bool.and_eq_true] at h
    rw [List.filter_cons]
    split
    · simp only [Memory.wf, Bool.and_eq_true, ih h.2, and_true, h.1.1, true_and, List.all_eq_true]
      intro c hc
      exact (List.all_eq_true.1 h.1.2) c (List.mem_filter.1 hc).1
    · exact ih h.2

/-- Dropping cells of other addresses leaves the byte at an address alone. -/
theorem readByte_filter (m : Memory) (p : Host.Cell → Bool) {a : Nat} (h : ∀ c : Host.Cell, c.1 = a → p c = true) :
    readByte (m.filter p) a = readByte m a := by
  induction m with
  | nil => rfl
  | cons c rest ih =>
    obtain ⟨k, x⟩ := c
    rw [List.filter_cons]
    split
    · simp [readByte, ih]
    · rename_i hn
      rw [readByte, if_neg (fun e => hn (h _ e)), ih]

theorem wf_clearExtent {m : Memory} (h : Memory.wf m = true) (base size : Nat) :
    Memory.wf (clearExtent m base size) = true := wf_filter h _

theorem wf_placeImages (r : Region) (images : List Image) {m : Memory} (h : Memory.wf m = true) :
    Memory.wf (placeImages r images m) = true := by
  induction images generalizing m with
  | nil => exact h
  | cons im rest ih => exact ih (wf_writeBytes h _ _)

theorem mem_placeImages {r : Region} {images : List Image} {m : Memory} {c : Host.Cell}
    (hfit : imagesFit r images = true) (h : c ∈ placeImages r images m) : c ∈ m ∨ regionHolds r c.1 = true := by
  induction images generalizing m with
  | nil => exact .inl h
  | cons im rest ih =>
    simp only [imagesFit, List.all_cons, Bool.and_eq_true, decide_eq_true_eq] at hfit
    rcases ih (by simpa [imagesFit] using hfit.2) h with h | h
    · rcases mem_writeBytes h with h | h
      · exact .inl h
      · exact .inr (by simp only [regionHolds, Bool.and_eq_true, decide_eq_true_eq]; omega)
    · exact .inr h

/-! ### Alignment -/

theorem toNat_alignTo (w : Width) (addr : Word) :
    (alignTo w addr).toNat = addr.toNat - addr.toNat % w.bytes := by
  have key (k : Nat) (hk : k ≤ 32) : (addr &&& ~~~(BitVec.ofNat 32 (2 ^ k - 1))) = (addr >>> k) <<< k := by
    apply BitVec.eq_of_getLsbD_eq
    intro i hi
    simp only [BitVec.getLsbD_and, BitVec.getLsbD_not, BitVec.getLsbD_ofNat, Nat.testBit_two_pow_sub_one,
      BitVec.getLsbD_shiftLeft, BitVec.getLsbD_ushiftRight, hi, decide_true, Bool.true_and]
    by_cases h : i < k
    · simp [h]
    · simp [h, show k + (i - k) = i by omega]
  have fin (k : Nat) (hk : k ≤ 32) : ((addr >>> k) <<< k).toNat = addr.toNat - addr.toNat % 2 ^ k := by
    rw [BitVec.toNat_shiftLeft, BitVec.toNat_ushiftRight, Nat.shiftRight_eq_div_pow, Nat.shiftLeft_eq,
      Nat.mod_eq_of_lt]
    · have := Nat.div_add_mod addr.toNat (2 ^ k)
      rw [Nat.mul_comm]
      omega
    · have := Nat.div_mul_le_self addr.toNat (2 ^ k)
      have := addr.isLt
      omega
  cases w with
  | byte => rw [alignTo, show BitVec.ofNat 32 (Width.byte.bytes - 1) = BitVec.ofNat 32 (2 ^ 0 - 1) from rfl,
      key 0 (by decide), fin 0 (by decide)]; rfl
  | halfword => rw [alignTo, show BitVec.ofNat 32 (Width.halfword.bytes - 1) = BitVec.ofNat 32 (2 ^ 1 - 1) from rfl,
      key 1 (by decide), fin 1 (by decide)]; rfl
  | word => rw [alignTo, show BitVec.ofNat 32 (Width.word.bytes - 1) = BitVec.ofNat 32 (2 ^ 2 - 1) from rfl,
      key 2 (by decide), fin 2 (by decide)]; rfl

/-- The mask of a width is the value modulo its power of two (R61, R62). -/
theorem maskTo_eq (w : Width) (v : Word) : maskTo w v = BitVec.ofNat 32 (v.toNat % 2 ^ (8 * w.bytes)) := by
  unfold maskTo
  apply BitVec.eq_of_getLsbD_eq
  intro i hi
  simp only [BitVec.getLsbD_and, BitVec.getLsbD_ofNat, Nat.testBit_mod_two_pow, Nat.testBit_two_pow_sub_one, hi]
  simp [BitVec.getLsbD, Bool.and_comm]

/-! ### Regions -/

theorem regionAt_holds {regions : List Region} {a : Nat} {r : Region} (h : regionAt regions a = some r) :
    r ∈ regions ∧ regionHolds r a = true :=
  ⟨List.mem_of_find?_eq_some h, by simpa using List.find?_some h⟩

/-- The bytes of an aligned datum all resolve to the Region of its first byte (R67). -/
theorem regionAt_add {regions : List Region} (hg : ∀ r ∈ regions, goodGeometry r = true) {w : Width} {a k : Nat}
    (ha : a % w.bytes = 0) (hk : k < w.bytes) : regionAt regions (a + k) = regionAt regions a := by
  unfold regionAt
  induction regions with
  | nil => rfl
  | cons r rest ih =>
    have hr := hg r (List.mem_cons_self ..)
    simp only [goodGeometry, Bool.and_eq_true, decide_eq_true_eq] at hr
    have hsame : regionHolds r (a + k) = regionHolds r a := by
      simp only [regionHolds]
      cases w <;> simp only [Width.bytes] at ha hk <;>
        (congr 1 <;> apply decide_eq_decide.2 <;> omega)
    simp only [List.find?_cons, hsame]
    split
    · rfl
    · exact ih fun q hq => hg q (List.mem_cons_of_mem _ hq)

end Sys2Proof.Machine
end

