-- ==== Sys2Proof/Laws/State.lean ====
section
/-!
SUPPORT. One lemma per field and update of State: what every shared operation leaves alone, and what it writes.
-/

namespace Sys2Proof.Machine

/-! #### setGpr -/

@[simp] theorem setGpr_pc (p : Fin 30) (v : Word) (s : State) : (setGpr p v s).pc = s.pc := rfl
@[simp] theorem setGpr_pcAltered (p : Fin 30) (v : Word) (s : State) : (setGpr p v s).pcAltered = s.pcAltered := rfl
@[simp] theorem setGpr_cpsr (p : Fin 30) (v : Word) (s : State) : (setGpr p v s).cpsr = s.cpsr := rfl
@[simp] theorem setGpr_spsr (p : Fin 30) (v : Word) (s : State) : (setGpr p v s).spsr = s.spsr := rfl
@[simp] theorem setGpr_cycles (p : Fin 30) (v : Word) (s : State) : (setGpr p v s).cycles = s.cycles := rfl
@[simp] theorem setGpr_halted (p : Fin 30) (v : Word) (s : State) : (setGpr p v s).halted = s.halted := rfl
@[simp] theorem setGpr_mem (p : Fin 30) (v : Word) (s : State) : (setGpr p v s).mem = s.mem := rfl
@[simp] theorem setGpr_regions (p : Fin 30) (v : Word) (s : State) : (setGpr p v s).regions = s.regions := rfl
@[simp] theorem setGpr_sched (p : Fin 30) (v : Word) (s : State) : (setGpr p v s).sched = s.sched := rfl
@[simp] theorem setGpr_clockRate (p : Fin 30) (v : Word) (s : State) : (setGpr p v s).clockRate = s.clockRate := rfl
@[simp] theorem setGpr_costModel (p : Fin 30) (v : Word) (s : State) : (setGpr p v s).costModel = s.costModel := rfl
@[simp] theorem setGpr_draws (p : Fin 30) (v : Word) (s : State) : (setGpr p v s).draws = s.draws := rfl
@[simp] theorem setGpr_gpr (p : Fin 30) (v : Word) (s : State) : (setGpr p v s).gpr = s.gpr.set p v := rfl

/-! #### setFlags -/

@[simp] theorem setFlags_gpr (fl : Flags) (s : State) : (setFlags fl s).gpr = s.gpr := rfl
@[simp] theorem setFlags_pc (fl : Flags) (s : State) : (setFlags fl s).pc = s.pc := rfl
@[simp] theorem setFlags_pcAltered (fl : Flags) (s : State) : (setFlags fl s).pcAltered = s.pcAltered := rfl
@[simp] theorem setFlags_spsr (fl : Flags) (s : State) : (setFlags fl s).spsr = s.spsr := rfl
@[simp] theorem setFlags_cycles (fl : Flags) (s : State) : (setFlags fl s).cycles = s.cycles := rfl
@[simp] theorem setFlags_halted (fl : Flags) (s : State) : (setFlags fl s).halted = s.halted := rfl
@[simp] theorem setFlags_mem (fl : Flags) (s : State) : (setFlags fl s).mem = s.mem := rfl
@[simp] theorem setFlags_regions (fl : Flags) (s : State) : (setFlags fl s).regions = s.regions := rfl
@[simp] theorem setFlags_sched (fl : Flags) (s : State) : (setFlags fl s).sched = s.sched := rfl
@[simp] theorem setFlags_clockRate (fl : Flags) (s : State) : (setFlags fl s).clockRate = s.clockRate := rfl
@[simp] theorem setFlags_costModel (fl : Flags) (s : State) : (setFlags fl s).costModel = s.costModel := rfl
@[simp] theorem setFlags_draws (fl : Flags) (s : State) : (setFlags fl s).draws = s.draws := rfl
@[simp] theorem setFlags_cpsr_n (fl : Flags) (s : State) : (setFlags fl s).cpsr.n = fl.n := rfl
@[simp] theorem setFlags_cpsr_z (fl : Flags) (s : State) : (setFlags fl s).cpsr.z = fl.z := rfl
@[simp] theorem setFlags_cpsr_c (fl : Flags) (s : State) : (setFlags fl s).cpsr.c = fl.c := rfl
@[simp] theorem setFlags_cpsr_v (fl : Flags) (s : State) : (setFlags fl s).cpsr.v = fl.v := rfl
@[simp] theorem setFlags_cpsr_i (fl : Flags) (s : State) : (setFlags fl s).cpsr.i = s.cpsr.i := rfl
@[simp] theorem setFlags_cpsr_f (fl : Flags) (s : State) : (setFlags fl s).cpsr.f = s.cpsr.f := rfl
@[simp] theorem setFlags_cpsr_t (fl : Flags) (s : State) : (setFlags fl s).cpsr.t = s.cpsr.t := rfl
@[simp] theorem setFlags_cpsr_mode (fl : Flags) (s : State) : (setFlags fl s).cpsr.mode = s.cpsr.mode := rfl

/-! #### setFlagsIf -/

@[simp] theorem setFlagsIf_gpr (sf : Bool) (fl : Flags) (s : State) : (setFlagsIf sf fl s).gpr = s.gpr := by cases sf <;> rfl
@[simp] theorem setFlagsIf_pc (sf : Bool) (fl : Flags) (s : State) : (setFlagsIf sf fl s).pc = s.pc := by cases sf <;> rfl
@[simp] theorem setFlagsIf_pcAltered (sf : Bool) (fl : Flags) (s : State) : (setFlagsIf sf fl s).pcAltered = s.pcAltered := by cases sf <;> rfl
@[simp] theorem setFlagsIf_spsr (sf : Bool) (fl : Flags) (s : State) : (setFlagsIf sf fl s).spsr = s.spsr := by cases sf <;> rfl
@[simp] theorem setFlagsIf_cycles (sf : Bool) (fl : Flags) (s : State) : (setFlagsIf sf fl s).cycles = s.cycles := by cases sf <;> rfl
@[simp] theorem setFlagsIf_halted (sf : Bool) (fl : Flags) (s : State) : (setFlagsIf sf fl s).halted = s.halted := by cases sf <;> rfl
@[simp] theorem setFlagsIf_mem (sf : Bool) (fl : Flags) (s : State) : (setFlagsIf sf fl s).mem = s.mem := by cases sf <;> rfl
@[simp] theorem setFlagsIf_regions (sf : Bool) (fl : Flags) (s : State) : (setFlagsIf sf fl s).regions = s.regions := by cases sf <;> rfl
@[simp] theorem setFlagsIf_sched (sf : Bool) (fl : Flags) (s : State) : (setFlagsIf sf fl s).sched = s.sched := by cases sf <;> rfl
@[simp] theorem setFlagsIf_clockRate (sf : Bool) (fl : Flags) (s : State) : (setFlagsIf sf fl s).clockRate = s.clockRate := by cases sf <;> rfl
@[simp] theorem setFlagsIf_costModel (sf : Bool) (fl : Flags) (s : State) : (setFlagsIf sf fl s).costModel = s.costModel := by cases sf <;> rfl
@[simp] theorem setFlagsIf_draws (sf : Bool) (fl : Flags) (s : State) : (setFlagsIf sf fl s).draws = s.draws := by cases sf <;> rfl
@[simp] theorem setFlagsIf_cpsr_i (sf : Bool) (fl : Flags) (s : State) : (setFlagsIf sf fl s).cpsr.i = s.cpsr.i := by cases sf <;> rfl
@[simp] theorem setFlagsIf_cpsr_f (sf : Bool) (fl : Flags) (s : State) : (setFlagsIf sf fl s).cpsr.f = s.cpsr.f := by cases sf <;> rfl
@[simp] theorem setFlagsIf_cpsr_t (sf : Bool) (fl : Flags) (s : State) : (setFlagsIf sf fl s).cpsr.t = s.cpsr.t := by cases sf <;> rfl
@[simp] theorem setFlagsIf_cpsr_mode (sf : Bool) (fl : Flags) (s : State) : (setFlagsIf sf fl s).cpsr.mode = s.cpsr.mode := by cases sf <;> rfl

/-! #### setSpsr -/

@[simp] theorem setSpsr_gpr (w : Word) (s : State) : (setSpsr w s).gpr = s.gpr := rfl
@[simp] theorem setSpsr_pc (w : Word) (s : State) : (setSpsr w s).pc = s.pc := rfl
@[simp] theorem setSpsr_pcAltered (w : Word) (s : State) : (setSpsr w s).pcAltered = s.pcAltered := rfl
@[simp] theorem setSpsr_cpsr (w : Word) (s : State) : (setSpsr w s).cpsr = s.cpsr := rfl
@[simp] theorem setSpsr_cycles (w : Word) (s : State) : (setSpsr w s).cycles = s.cycles := rfl
@[simp] theorem setSpsr_halted (w : Word) (s : State) : (setSpsr w s).halted = s.halted := rfl
@[simp] theorem setSpsr_mem (w : Word) (s : State) : (setSpsr w s).mem = s.mem := rfl
@[simp] theorem setSpsr_regions (w : Word) (s : State) : (setSpsr w s).regions = s.regions := rfl
@[simp] theorem setSpsr_sched (w : Word) (s : State) : (setSpsr w s).sched = s.sched := rfl
@[simp] theorem setSpsr_clockRate (w : Word) (s : State) : (setSpsr w s).clockRate = s.clockRate := rfl
@[simp] theorem setSpsr_costModel (w : Word) (s : State) : (setSpsr w s).costModel = s.costModel := rfl
@[simp] theorem setSpsr_draws (w : Word) (s : State) : (setSpsr w s).draws = s.draws := rfl
@[simp] theorem setSpsr_spsr (w : Word) (s : State) : (setSpsr w s).spsr = withSpsr (bankOf s.cpsr.mode) w s.spsr := rfl

/-! #### enterExecute -/

@[simp] theorem enterExecute_gpr (s : State) : (enterExecute s).gpr = s.gpr := rfl
@[simp] theorem enterExecute_cpsr (s : State) : (enterExecute s).cpsr = s.cpsr := rfl
@[simp] theorem enterExecute_spsr (s : State) : (enterExecute s).spsr = s.spsr := rfl
@[simp] theorem enterExecute_cycles (s : State) : (enterExecute s).cycles = s.cycles := rfl
@[simp] theorem enterExecute_halted (s : State) : (enterExecute s).halted = s.halted := rfl
@[simp] theorem enterExecute_mem (s : State) : (enterExecute s).mem = s.mem := rfl
@[simp] theorem enterExecute_regions (s : State) : (enterExecute s).regions = s.regions := rfl
@[simp] theorem enterExecute_sched (s : State) : (enterExecute s).sched = s.sched := rfl
@[simp] theorem enterExecute_clockRate (s : State) : (enterExecute s).clockRate = s.clockRate := rfl
@[simp] theorem enterExecute_costModel (s : State) : (enterExecute s).costModel = s.costModel := rfl
@[simp] theorem enterExecute_draws (s : State) : (enterExecute s).draws = s.draws := rfl
@[simp] theorem enterExecute_pc (s : State) : (enterExecute s).pc = s.pc + 8 := rfl
@[simp] theorem enterExecute_pcAltered (s : State) : (enterExecute s).pcAltered = false := rfl

/-! #### finish -/

@[simp] theorem finish_gpr (cost : Nat) (s : State) : (finish cost s).gpr = s.gpr := rfl
@[simp] theorem finish_pcAltered (cost : Nat) (s : State) : (finish cost s).pcAltered = s.pcAltered := rfl
@[simp] theorem finish_cpsr (cost : Nat) (s : State) : (finish cost s).cpsr = s.cpsr := rfl
@[simp] theorem finish_spsr (cost : Nat) (s : State) : (finish cost s).spsr = s.spsr := rfl
@[simp] theorem finish_halted (cost : Nat) (s : State) : (finish cost s).halted = s.halted := rfl
@[simp] theorem finish_mem (cost : Nat) (s : State) : (finish cost s).mem = s.mem := rfl
@[simp] theorem finish_regions (cost : Nat) (s : State) : (finish cost s).regions = s.regions := rfl
@[simp] theorem finish_sched (cost : Nat) (s : State) : (finish cost s).sched = s.sched := rfl
@[simp] theorem finish_clockRate (cost : Nat) (s : State) : (finish cost s).clockRate = s.clockRate := rfl
@[simp] theorem finish_costModel (cost : Nat) (s : State) : (finish cost s).costModel = s.costModel := rfl
@[simp] theorem finish_draws (cost : Nat) (s : State) : (finish cost s).draws = s.draws := rfl
@[simp] theorem finish_pc (cost : Nat) (s : State) : (finish cost s).pc = if s.pcAltered then s.pc else s.pc - 4 := rfl
@[simp] theorem finish_cycles (cost : Nat) (s : State) : (finish cost s).cycles = s.cycles + cost := rfl

/-! #### clearMark -/

@[simp] theorem clearMark_gpr (s : State) : (clearMark s).gpr = s.gpr := rfl
@[simp] theorem clearMark_pc (s : State) : (clearMark s).pc = s.pc := rfl
@[simp] theorem clearMark_cpsr (s : State) : (clearMark s).cpsr = s.cpsr := rfl
@[simp] theorem clearMark_spsr (s : State) : (clearMark s).spsr = s.spsr := rfl
@[simp] theorem clearMark_cycles (s : State) : (clearMark s).cycles = s.cycles := rfl
@[simp] theorem clearMark_halted (s : State) : (clearMark s).halted = s.halted := rfl
@[simp] theorem clearMark_mem (s : State) : (clearMark s).mem = s.mem := rfl
@[simp] theorem clearMark_regions (s : State) : (clearMark s).regions = s.regions := rfl
@[simp] theorem clearMark_sched (s : State) : (clearMark s).sched = s.sched := rfl
@[simp] theorem clearMark_clockRate (s : State) : (clearMark s).clockRate = s.clockRate := rfl
@[simp] theorem clearMark_costModel (s : State) : (clearMark s).costModel = s.costModel := rfl
@[simp] theorem clearMark_draws (s : State) : (clearMark s).draws = s.draws := rfl
@[simp] theorem clearMark_pcAltered (s : State) : (clearMark s).pcAltered = false := rfl

/-! #### raiseException -/

@[simp] theorem raiseException_cycles (kind : Exception) (s : State) : (raiseException kind s).cycles = s.cycles := by cases kind <;> rfl
@[simp] theorem raiseException_halted (kind : Exception) (s : State) : (raiseException kind s).halted = s.halted := by cases kind <;> rfl
@[simp] theorem raiseException_mem (kind : Exception) (s : State) : (raiseException kind s).mem = s.mem := by cases kind <;> rfl
@[simp] theorem raiseException_regions (kind : Exception) (s : State) : (raiseException kind s).regions = s.regions := by cases kind <;> rfl
@[simp] theorem raiseException_sched (kind : Exception) (s : State) : (raiseException kind s).sched = s.sched := by cases kind <;> rfl
@[simp] theorem raiseException_clockRate (kind : Exception) (s : State) : (raiseException kind s).clockRate = s.clockRate := by cases kind <;> rfl
@[simp] theorem raiseException_costModel (kind : Exception) (s : State) : (raiseException kind s).costModel = s.costModel := by cases kind <;> rfl
@[simp] theorem raiseException_draws (kind : Exception) (s : State) : (raiseException kind s).draws = s.draws := by cases kind <;> rfl
@[simp] theorem raiseException_pc (kind : Exception) (s : State) : (raiseException kind s).pc = vectorOf kind := rfl
@[simp] theorem raiseException_pcAltered (kind : Exception) (s : State) : (raiseException kind s).pcAltered = true := rfl
@[simp] theorem raiseException_cpsr (kind : Exception) (s : State) : (raiseException kind s).cpsr = entryPsr kind s.cpsr := rfl
@[simp] theorem raiseException_spsr (kind : Exception) (s : State) : (raiseException kind s).spsr = withSpsr (bankOf (targetMode kind)) (psrWord s.cpsr) s.spsr := by cases kind <;> rfl

/-! #### setFiqLine -/

@[simp] theorem setFiqLine_gpr (b : Bool) (s : State) : (setFiqLine b s).gpr = s.gpr := rfl
@[simp] theorem setFiqLine_pc (b : Bool) (s : State) : (setFiqLine b s).pc = s.pc := rfl
@[simp] theorem setFiqLine_pcAltered (b : Bool) (s : State) : (setFiqLine b s).pcAltered = s.pcAltered := rfl
@[simp] theorem setFiqLine_cpsr (b : Bool) (s : State) : (setFiqLine b s).cpsr = s.cpsr := rfl
@[simp] theorem setFiqLine_spsr (b : Bool) (s : State) : (setFiqLine b s).spsr = s.spsr := rfl
@[simp] theorem setFiqLine_cycles (b : Bool) (s : State) : (setFiqLine b s).cycles = s.cycles := rfl
@[simp] theorem setFiqLine_halted (b : Bool) (s : State) : (setFiqLine b s).halted = s.halted := rfl
@[simp] theorem setFiqLine_mem (b : Bool) (s : State) : (setFiqLine b s).mem = s.mem := rfl
@[simp] theorem setFiqLine_regions (b : Bool) (s : State) : (setFiqLine b s).regions = s.regions := rfl
@[simp] theorem setFiqLine_clockRate (b : Bool) (s : State) : (setFiqLine b s).clockRate = s.clockRate := rfl
@[simp] theorem setFiqLine_costModel (b : Bool) (s : State) : (setFiqLine b s).costModel = s.costModel := rfl
@[simp] theorem setFiqLine_draws (b : Bool) (s : State) : (setFiqLine b s).draws = s.draws := rfl

/-! #### setIrqLine -/

@[simp] theorem setIrqLine_gpr (b : Bool) (s : State) : (setIrqLine b s).gpr = s.gpr := rfl
@[simp] theorem setIrqLine_pc (b : Bool) (s : State) : (setIrqLine b s).pc = s.pc := rfl
@[simp] theorem setIrqLine_pcAltered (b : Bool) (s : State) : (setIrqLine b s).pcAltered = s.pcAltered := rfl
@[simp] theorem setIrqLine_cpsr (b : Bool) (s : State) : (setIrqLine b s).cpsr = s.cpsr := rfl
@[simp] theorem setIrqLine_spsr (b : Bool) (s : State) : (setIrqLine b s).spsr = s.spsr := rfl
@[simp] theorem setIrqLine_cycles (b : Bool) (s : State) : (setIrqLine b s).cycles = s.cycles := rfl
@[simp] theorem setIrqLine_halted (b : Bool) (s : State) : (setIrqLine b s).halted = s.halted := rfl
@[simp] theorem setIrqLine_mem (b : Bool) (s : State) : (setIrqLine b s).mem = s.mem := rfl
@[simp] theorem setIrqLine_regions (b : Bool) (s : State) : (setIrqLine b s).regions = s.regions := rfl
@[simp] theorem setIrqLine_clockRate (b : Bool) (s : State) : (setIrqLine b s).clockRate = s.clockRate := rfl
@[simp] theorem setIrqLine_costModel (b : Bool) (s : State) : (setIrqLine b s).costModel = s.costModel := rfl
@[simp] theorem setIrqLine_draws (b : Bool) (s : State) : (setIrqLine b s).draws = s.draws := rfl

/-! #### subscribe -/

@[simp] theorem subscribe_gpr (name handler : Nat) (s : State) : (subscribe name handler s).gpr = s.gpr := rfl
@[simp] theorem subscribe_pc (name handler : Nat) (s : State) : (subscribe name handler s).pc = s.pc := rfl
@[simp] theorem subscribe_pcAltered (name handler : Nat) (s : State) : (subscribe name handler s).pcAltered = s.pcAltered := rfl
@[simp] theorem subscribe_cpsr (name handler : Nat) (s : State) : (subscribe name handler s).cpsr = s.cpsr := rfl
@[simp] theorem subscribe_spsr (name handler : Nat) (s : State) : (subscribe name handler s).spsr = s.spsr := rfl
@[simp] theorem subscribe_cycles (name handler : Nat) (s : State) : (subscribe name handler s).cycles = s.cycles := rfl
@[simp] theorem subscribe_halted (name handler : Nat) (s : State) : (subscribe name handler s).halted = s.halted := rfl
@[simp] theorem subscribe_mem (name handler : Nat) (s : State) : (subscribe name handler s).mem = s.mem := rfl
@[simp] theorem subscribe_regions (name handler : Nat) (s : State) : (subscribe name handler s).regions = s.regions := rfl
@[simp] theorem subscribe_clockRate (name handler : Nat) (s : State) : (subscribe name handler s).clockRate = s.clockRate := rfl
@[simp] theorem subscribe_costModel (name handler : Nat) (s : State) : (subscribe name handler s).costModel = s.costModel := rfl
@[simp] theorem subscribe_draws (name handler : Nat) (s : State) : (subscribe name handler s).draws = s.draws := rfl

/-! #### raiseEvent -/

@[simp] theorem raiseEvent_gpr (name sender : Nat) (args : List Word) (s : State) : (raiseEvent name sender args s).gpr = s.gpr := rfl
@[simp] theorem raiseEvent_pc (name sender : Nat) (args : List Word) (s : State) : (raiseEvent name sender args s).pc = s.pc := rfl
@[simp] theorem raiseEvent_pcAltered (name sender : Nat) (args : List Word) (s : State) : (raiseEvent name sender args s).pcAltered = s.pcAltered := rfl
@[simp] theorem raiseEvent_cpsr (name sender : Nat) (args : List Word) (s : State) : (raiseEvent name sender args s).cpsr = s.cpsr := rfl
@[simp] theorem raiseEvent_spsr (name sender : Nat) (args : List Word) (s : State) : (raiseEvent name sender args s).spsr = s.spsr := rfl
@[simp] theorem raiseEvent_cycles (name sender : Nat) (args : List Word) (s : State) : (raiseEvent name sender args s).cycles = s.cycles := rfl
@[simp] theorem raiseEvent_halted (name sender : Nat) (args : List Word) (s : State) : (raiseEvent name sender args s).halted = s.halted := rfl
@[simp] theorem raiseEvent_mem (name sender : Nat) (args : List Word) (s : State) : (raiseEvent name sender args s).mem = s.mem := rfl
@[simp] theorem raiseEvent_regions (name sender : Nat) (args : List Word) (s : State) : (raiseEvent name sender args s).regions = s.regions := rfl
@[simp] theorem raiseEvent_clockRate (name sender : Nat) (args : List Word) (s : State) : (raiseEvent name sender args s).clockRate = s.clockRate := rfl
@[simp] theorem raiseEvent_costModel (name sender : Nat) (args : List Word) (s : State) : (raiseEvent name sender args s).costModel = s.costModel := rfl
@[simp] theorem raiseEvent_draws (name sender : Nat) (args : List Word) (s : State) : (raiseEvent name sender args s).draws = s.draws := rfl

/-! #### registerCallback -/

@[simp] theorem registerCallback_gpr (timeout : Rat) (periodic : Bool) (handler : Nat) (s : State) : (registerCallback timeout periodic handler s).gpr = s.gpr := by
  unfold registerCallback; split <;> rfl
@[simp] theorem registerCallback_pc (timeout : Rat) (periodic : Bool) (handler : Nat) (s : State) : (registerCallback timeout periodic handler s).pc = s.pc := by
  unfold registerCallback; split <;> rfl
@[simp] theorem registerCallback_pcAltered (timeout : Rat) (periodic : Bool) (handler : Nat) (s : State) : (registerCallback timeout periodic handler s).pcAltered = s.pcAltered := by
  unfold registerCallback; split <;> rfl
@[simp] theorem registerCallback_cpsr (timeout : Rat) (periodic : Bool) (handler : Nat) (s : State) : (registerCallback timeout periodic handler s).cpsr = s.cpsr := by
  unfold registerCallback; split <;> rfl
@[simp] theorem registerCallback_spsr (timeout : Rat) (periodic : Bool) (handler : Nat) (s : State) : (registerCallback timeout periodic handler s).spsr = s.spsr := by
  unfold registerCallback; split <;> rfl
@[simp] theorem registerCallback_cycles (timeout : Rat) (periodic : Bool) (handler : Nat) (s : State) : (registerCallback timeout periodic handler s).cycles = s.cycles := by
  unfold registerCallback; split <;> rfl
@[simp] theorem registerCallback_halted (timeout : Rat) (periodic : Bool) (handler : Nat) (s : State) : (registerCallback timeout periodic handler s).halted = s.halted := by
  unfold registerCallback; split <;> rfl
@[simp] theorem registerCallback_mem (timeout : Rat) (periodic : Bool) (handler : Nat) (s : State) : (registerCallback timeout periodic handler s).mem = s.mem := by
  unfold registerCallback; split <;> rfl
@[simp] theorem registerCallback_regions (timeout : Rat) (periodic : Bool) (handler : Nat) (s : State) : (registerCallback timeout periodic handler s).regions = s.regions := by
  unfold registerCallback; split <;> rfl
@[simp] theorem registerCallback_clockRate (timeout : Rat) (periodic : Bool) (handler : Nat) (s : State) : (registerCallback timeout periodic handler s).clockRate = s.clockRate := by
  unfold registerCallback; split <;> rfl
@[simp] theorem registerCallback_costModel (timeout : Rat) (periodic : Bool) (handler : Nat) (s : State) : (registerCallback timeout periodic handler s).costModel = s.costModel := by
  unfold registerCallback; split <;> rfl
@[simp] theorem registerCallback_draws (timeout : Rat) (periodic : Bool) (handler : Nat) (s : State) : (registerCallback timeout periodic handler s).draws = s.draws := by
  unfold registerCallback; split <;> rfl

/-! #### unregisterCallback -/

@[simp] theorem unregisterCallback_gpr (handle : Nat) (s : State) : ((unregisterCallback handle s).2).gpr = s.gpr := rfl
@[simp] theorem unregisterCallback_pc (handle : Nat) (s : State) : ((unregisterCallback handle s).2).pc = s.pc := rfl
@[simp] theorem unregisterCallback_pcAltered (handle : Nat) (s : State) : ((unregisterCallback handle s).2).pcAltered = s.pcAltered := rfl
@[simp] theorem unregisterCallback_cpsr (handle : Nat) (s : State) : ((unregisterCallback handle s).2).cpsr = s.cpsr := rfl
@[simp] theorem unregisterCallback_spsr (handle : Nat) (s : State) : ((unregisterCallback handle s).2).spsr = s.spsr := rfl
@[simp] theorem unregisterCallback_cycles (handle : Nat) (s : State) : ((unregisterCallback handle s).2).cycles = s.cycles := rfl
@[simp] theorem unregisterCallback_halted (handle : Nat) (s : State) : ((unregisterCallback handle s).2).halted = s.halted := rfl
@[simp] theorem unregisterCallback_mem (handle : Nat) (s : State) : ((unregisterCallback handle s).2).mem = s.mem := rfl
@[simp] theorem unregisterCallback_regions (handle : Nat) (s : State) : ((unregisterCallback handle s).2).regions = s.regions := rfl
@[simp] theorem unregisterCallback_clockRate (handle : Nat) (s : State) : ((unregisterCallback handle s).2).clockRate = s.clockRate := rfl
@[simp] theorem unregisterCallback_costModel (handle : Nat) (s : State) : ((unregisterCallback handle s).2).costModel = s.costModel := rfl
@[simp] theorem unregisterCallback_draws (handle : Nat) (s : State) : ((unregisterCallback handle s).2).draws = s.draws := rfl

/-! #### facadeCall -/

@[simp] theorem facadeCall_gpr (c : FacadeCall) (s : State) : (facadeCall c s).gpr = s.gpr := by cases c <;> simp [facadeCall]
@[simp] theorem facadeCall_pc (c : FacadeCall) (s : State) : (facadeCall c s).pc = s.pc := by cases c <;> simp [facadeCall]
@[simp] theorem facadeCall_pcAltered (c : FacadeCall) (s : State) : (facadeCall c s).pcAltered = s.pcAltered := by cases c <;> simp [facadeCall]
@[simp] theorem facadeCall_cpsr (c : FacadeCall) (s : State) : (facadeCall c s).cpsr = s.cpsr := by cases c <;> simp [facadeCall]
@[simp] theorem facadeCall_spsr (c : FacadeCall) (s : State) : (facadeCall c s).spsr = s.spsr := by cases c <;> simp [facadeCall]
@[simp] theorem facadeCall_cycles (c : FacadeCall) (s : State) : (facadeCall c s).cycles = s.cycles := by cases c <;> simp [facadeCall]
@[simp] theorem facadeCall_halted (c : FacadeCall) (s : State) : (facadeCall c s).halted = s.halted := by cases c <;> simp [facadeCall]
@[simp] theorem facadeCall_mem (c : FacadeCall) (s : State) : (facadeCall c s).mem = s.mem := by cases c <;> simp [facadeCall]
@[simp] theorem facadeCall_regions (c : FacadeCall) (s : State) : (facadeCall c s).regions = s.regions := by cases c <;> simp [facadeCall]
@[simp] theorem facadeCall_clockRate (c : FacadeCall) (s : State) : (facadeCall c s).clockRate = s.clockRate := by cases c <;> simp [facadeCall]
@[simp] theorem facadeCall_costModel (c : FacadeCall) (s : State) : (facadeCall c s).costModel = s.costModel := by cases c <;> simp [facadeCall]
@[simp] theorem facadeCall_draws (c : FacadeCall) (s : State) : (facadeCall c s).draws = s.draws := by cases c <;> simp [facadeCall]

/-! #### facadeCalls -/

@[simp] theorem facadeCalls_gpr (calls : List FacadeCall) (s : State) : (facadeCalls calls s).gpr = s.gpr := by
  induction calls generalizing s with
  | nil => rfl
  | cons c rest ih => exact (ih (facadeCall c s)).trans (by simp)
@[simp] theorem facadeCalls_pc (calls : List FacadeCall) (s : State) : (facadeCalls calls s).pc = s.pc := by
  induction calls generalizing s with
  | nil => rfl
  | cons c rest ih => exact (ih (facadeCall c s)).trans (by simp)
@[simp] theorem facadeCalls_pcAltered (calls : List FacadeCall) (s : State) : (facadeCalls calls s).pcAltered = s.pcAltered := by
  induction calls generalizing s with
  | nil => rfl
  | cons c rest ih => exact (ih (facadeCall c s)).trans (by simp)
@[simp] theorem facadeCalls_cpsr (calls : List FacadeCall) (s : State) : (facadeCalls calls s).cpsr = s.cpsr := by
  induction calls generalizing s with
  | nil => rfl
  | cons c rest ih => exact (ih (facadeCall c s)).trans (by simp)
@[simp] theorem facadeCalls_spsr (calls : List FacadeCall) (s : State) : (facadeCalls calls s).spsr = s.spsr := by
  induction calls generalizing s with
  | nil => rfl
  | cons c rest ih => exact (ih (facadeCall c s)).trans (by simp)
@[simp] theorem facadeCalls_cycles (calls : List FacadeCall) (s : State) : (facadeCalls calls s).cycles = s.cycles := by
  induction calls generalizing s with
  | nil => rfl
  | cons c rest ih => exact (ih (facadeCall c s)).trans (by simp)
@[simp] theorem facadeCalls_halted (calls : List FacadeCall) (s : State) : (facadeCalls calls s).halted = s.halted := by
  induction calls generalizing s with
  | nil => rfl
  | cons c rest ih => exact (ih (facadeCall c s)).trans (by simp)
@[simp] theorem facadeCalls_mem (calls : List FacadeCall) (s : State) : (facadeCalls calls s).mem = s.mem := by
  induction calls generalizing s with
  | nil => rfl
  | cons c rest ih => exact (ih (facadeCall c s)).trans (by simp)
@[simp] theorem facadeCalls_regions (calls : List FacadeCall) (s : State) : (facadeCalls calls s).regions = s.regions := by
  induction calls generalizing s with
  | nil => rfl
  | cons c rest ih => exact (ih (facadeCall c s)).trans (by simp)
@[simp] theorem facadeCalls_clockRate (calls : List FacadeCall) (s : State) : (facadeCalls calls s).clockRate = s.clockRate := by
  induction calls generalizing s with
  | nil => rfl
  | cons c rest ih => exact (ih (facadeCall c s)).trans (by simp)
@[simp] theorem facadeCalls_costModel (calls : List FacadeCall) (s : State) : (facadeCalls calls s).costModel = s.costModel := by
  induction calls generalizing s with
  | nil => rfl
  | cons c rest ih => exact (ih (facadeCall c s)).trans (by simp)
@[simp] theorem facadeCalls_draws (calls : List FacadeCall) (s : State) : (facadeCalls calls s).draws = s.draws := by
  induction calls generalizing s with
  | nil => rfl
  | cons c rest ih => exact (ih (facadeCall c s)).trans (by simp)

/-! #### popQueue -/

@[simp] theorem popQueue_gpr (rest : List Callback) (s : State) : (popQueue rest s).gpr = s.gpr := rfl
@[simp] theorem popQueue_pc (rest : List Callback) (s : State) : (popQueue rest s).pc = s.pc := rfl
@[simp] theorem popQueue_pcAltered (rest : List Callback) (s : State) : (popQueue rest s).pcAltered = s.pcAltered := rfl
@[simp] theorem popQueue_cpsr (rest : List Callback) (s : State) : (popQueue rest s).cpsr = s.cpsr := rfl
@[simp] theorem popQueue_spsr (rest : List Callback) (s : State) : (popQueue rest s).spsr = s.spsr := rfl
@[simp] theorem popQueue_cycles (rest : List Callback) (s : State) : (popQueue rest s).cycles = s.cycles := rfl
@[simp] theorem popQueue_halted (rest : List Callback) (s : State) : (popQueue rest s).halted = s.halted := rfl
@[simp] theorem popQueue_mem (rest : List Callback) (s : State) : (popQueue rest s).mem = s.mem := rfl
@[simp] theorem popQueue_regions (rest : List Callback) (s : State) : (popQueue rest s).regions = s.regions := rfl
@[simp] theorem popQueue_clockRate (rest : List Callback) (s : State) : (popQueue rest s).clockRate = s.clockRate := rfl
@[simp] theorem popQueue_costModel (rest : List Callback) (s : State) : (popQueue rest s).costModel = s.costModel := rfl
@[simp] theorem popQueue_draws (rest : List Callback) (s : State) : (popQueue rest s).draws = s.draws := rfl

/-! #### keepAgain -/

@[simp] theorem keepAgain_gpr (rec : Callback) (s : State) : (keepAgain rec s).gpr = s.gpr := by unfold keepAgain; split <;> rfl
@[simp] theorem keepAgain_pc (rec : Callback) (s : State) : (keepAgain rec s).pc = s.pc := by unfold keepAgain; split <;> rfl
@[simp] theorem keepAgain_pcAltered (rec : Callback) (s : State) : (keepAgain rec s).pcAltered = s.pcAltered := by unfold keepAgain; split <;> rfl
@[simp] theorem keepAgain_cpsr (rec : Callback) (s : State) : (keepAgain rec s).cpsr = s.cpsr := by unfold keepAgain; split <;> rfl
@[simp] theorem keepAgain_spsr (rec : Callback) (s : State) : (keepAgain rec s).spsr = s.spsr := by unfold keepAgain; split <;> rfl
@[simp] theorem keepAgain_cycles (rec : Callback) (s : State) : (keepAgain rec s).cycles = s.cycles := by unfold keepAgain; split <;> rfl
@[simp] theorem keepAgain_halted (rec : Callback) (s : State) : (keepAgain rec s).halted = s.halted := by unfold keepAgain; split <;> rfl
@[simp] theorem keepAgain_mem (rec : Callback) (s : State) : (keepAgain rec s).mem = s.mem := by unfold keepAgain; split <;> rfl
@[simp] theorem keepAgain_regions (rec : Callback) (s : State) : (keepAgain rec s).regions = s.regions := by unfold keepAgain; split <;> rfl
@[simp] theorem keepAgain_clockRate (rec : Callback) (s : State) : (keepAgain rec s).clockRate = s.clockRate := by unfold keepAgain; split <;> rfl
@[simp] theorem keepAgain_costModel (rec : Callback) (s : State) : (keepAgain rec s).costModel = s.costModel := by unfold keepAgain; split <;> rfl
@[simp] theorem keepAgain_draws (rec : Callback) (s : State) : (keepAgain rec s).draws = s.draws := by unfold keepAgain; split <;> rfl

/-! #### runHandler -/

@[simp] theorem runHandler_gpr (o : Oracle) (rec : Callback) (s : State) : (runHandler o rec s).gpr = s.gpr := by simp [runHandler]
@[simp] theorem runHandler_pc (o : Oracle) (rec : Callback) (s : State) : (runHandler o rec s).pc = s.pc := by simp [runHandler]
@[simp] theorem runHandler_pcAltered (o : Oracle) (rec : Callback) (s : State) : (runHandler o rec s).pcAltered = s.pcAltered := by simp [runHandler]
@[simp] theorem runHandler_cpsr (o : Oracle) (rec : Callback) (s : State) : (runHandler o rec s).cpsr = s.cpsr := by simp [runHandler]
@[simp] theorem runHandler_spsr (o : Oracle) (rec : Callback) (s : State) : (runHandler o rec s).spsr = s.spsr := by simp [runHandler]
@[simp] theorem runHandler_cycles (o : Oracle) (rec : Callback) (s : State) : (runHandler o rec s).cycles = s.cycles := by simp [runHandler]
@[simp] theorem runHandler_halted (o : Oracle) (rec : Callback) (s : State) : (runHandler o rec s).halted = s.halted := by simp [runHandler]
@[simp] theorem runHandler_mem (o : Oracle) (rec : Callback) (s : State) : (runHandler o rec s).mem = s.mem := by simp [runHandler]
@[simp] theorem runHandler_regions (o : Oracle) (rec : Callback) (s : State) : (runHandler o rec s).regions = s.regions := by simp [runHandler]
@[simp] theorem runHandler_clockRate (o : Oracle) (rec : Callback) (s : State) : (runHandler o rec s).clockRate = s.clockRate := by simp [runHandler]
@[simp] theorem runHandler_costModel (o : Oracle) (rec : Callback) (s : State) : (runHandler o rec s).costModel = s.costModel := by simp [runHandler]

/-! #### reregister -/

@[simp] theorem reregister_gpr (due : Rat) (s : State) : (reregister due s).gpr = s.gpr := rfl
@[simp] theorem reregister_pc (due : Rat) (s : State) : (reregister due s).pc = s.pc := rfl
@[simp] theorem reregister_pcAltered (due : Rat) (s : State) : (reregister due s).pcAltered = s.pcAltered := rfl
@[simp] theorem reregister_cpsr (due : Rat) (s : State) : (reregister due s).cpsr = s.cpsr := rfl
@[simp] theorem reregister_spsr (due : Rat) (s : State) : (reregister due s).spsr = s.spsr := rfl
@[simp] theorem reregister_cycles (due : Rat) (s : State) : (reregister due s).cycles = s.cycles := rfl
@[simp] theorem reregister_halted (due : Rat) (s : State) : (reregister due s).halted = s.halted := rfl
@[simp] theorem reregister_mem (due : Rat) (s : State) : (reregister due s).mem = s.mem := rfl
@[simp] theorem reregister_regions (due : Rat) (s : State) : (reregister due s).regions = s.regions := rfl
@[simp] theorem reregister_clockRate (due : Rat) (s : State) : (reregister due s).clockRate = s.clockRate := rfl
@[simp] theorem reregister_costModel (due : Rat) (s : State) : (reregister due s).costModel = s.costModel := rfl
@[simp] theorem reregister_draws (due : Rat) (s : State) : (reregister due s).draws = s.draws := rfl

/-! #### haltState -/

@[simp] theorem haltState_cycles (kind : Fatal) (left : Outside) (s : State) : (haltState kind left s).cycles = s.cycles := rfl
@[simp] theorem haltState_halted (kind : Fatal) (left : Outside) (s : State) : (haltState kind left s).halted = some kind := rfl
@[simp] theorem haltState_regions (kind : Fatal) (left : Outside) (s : State) : (haltState kind left s).regions = s.regions := rfl
@[simp] theorem haltState_sched (kind : Fatal) (left : Outside) (s : State) : (haltState kind left s).sched = left.sched := rfl
@[simp] theorem haltState_clockRate (kind : Fatal) (left : Outside) (s : State) : (haltState kind left s).clockRate = s.clockRate := rfl
@[simp] theorem haltState_costModel (kind : Fatal) (left : Outside) (s : State) : (haltState kind left s).costModel = s.costModel := rfl
@[simp] theorem haltState_pcAltered (kind : Fatal) (left : Outside) (s : State) : (haltState kind left s).pcAltered = false := rfl
@[simp] theorem haltState_draws (kind : Fatal) (left : Outside) (s : State) : (haltState kind left s).draws = left.draws + 1 := rfl

end Sys2Proof.Machine
end

