-- ==== Sys2Proof/Laws/Scheduler.lean ====
section
/-!
SUPPORT. The laws of the scheduler's functions: insertion by due time (spec 49_scheduler.md R322, R328),
cancellation (R323), and the queue's invariant kept by every facade call.
-/

namespace Sys2Proof.Machine

/-! ### Insertion -/

theorem insertDue_perm (rec : Callback) (q : List Callback) : (insertDue rec q).Perm (rec :: q) := by
  induction q with
  | nil => exact .refl _
  | cons p rest ih =>
    rw [insertDue]
    split
    · exact (ih.cons p).trans (.swap ..)
    · exact .refl _

theorem mem_insertDue {rec r : Callback} {q : List Callback} : r ∈ insertDue rec q ↔ r = rec ∨ r ∈ q := by
  rw [(insertDue_perm rec q).mem_iff, List.mem_cons]

theorem sorted_insertDue (rec : Callback) {q : List Callback} (h : q.Pairwise (fun a b => a.dueTime ≤ b.dueTime)) :
    (insertDue rec q).Pairwise (fun a b => a.dueTime ≤ b.dueTime) := by
  induction q with
  | nil => simp [insertDue]
  | cons p rest ih =>
    rw [List.pairwise_cons] at h
    rw [insertDue]
    split
    · rename_i hp
      refine List.pairwise_cons.2 ⟨fun r hr => ?_, ih h.2⟩
      rcases mem_insertDue.1 hr with rfl | hr
      · exact hp
      · exact h.1 r hr
    · rename_i hp
      have hp : rec.dueTime ≤ p.dueTime := (Rat.not_le.1 hp).le
      refine List.pairwise_cons.2 ⟨fun r hr => ?_, List.pairwise_cons.2 h⟩
      rcases List.mem_cons.1 hr with rfl | hr
      · exact hp
      · exact hp.trans (h.1 r hr)

/-- Where a record goes in an ordered queue: after those that are due no later (R322, R328). -/
theorem insertDue_split (rec : Callback) {q : List Callback} (h : q.Pairwise (fun a b => a.dueTime ≤ b.dueTime)) :
    ∃ earlier later, q = earlier ++ later ∧ insertDue rec q = earlier ++ rec :: later ∧
      (∀ p ∈ earlier, p.dueTime ≤ rec.dueTime) ∧ ∀ p ∈ later, rec.dueTime < p.dueTime := by
  induction q with
  | nil => exact ⟨[], [], rfl, rfl, by simp, by simp⟩
  | cons p rest ih =>
    rw [List.pairwise_cons] at h
    rw [insertDue]
    split
    · rename_i hp
      obtain ⟨a, b, e1, e2, h1, h2⟩ := ih h.2
      exact ⟨p :: a, b, by rw [e1]; rfl, by rw [e2]; rfl, List.forall_mem_cons.2 ⟨hp, h1⟩, h2⟩
    · rename_i hp
      exact ⟨[], p :: rest, rfl, rfl, by simp,
        List.forall_mem_cons.2 ⟨Rat.not_le.1 hp, fun x hx => lt_of_lt_of_le (Rat.not_le.1 hp) (h.1 x hx)⟩⟩

/-! ### Cancellation -/

theorem cancel_handle (handle : Nat) (q : List Callback) : (cancel handle q).map (·.handle) = q.map (·.handle) := by
  induction q with
  | nil => rfl
  | cons p rest ih =>
    simp only [cancel, List.map_cons, List.map_map] at ih ⊢
    rw [ih]
    split <;> rfl

theorem cancel_dueTime (handle : Nat) (q : List Callback) :
    (cancel handle q).map (·.dueTime) = q.map (·.dueTime) := by
  induction q with
  | nil => rfl
  | cons p rest ih =>
    simp only [cancel, List.map_cons, List.map_map] at ih ⊢
    rw [ih]
    split <;> rfl

/-! ### The invariant of the queue -/

/-- The invariant speaks of due times and handles only. -/
theorem schedInv_iff (d : Scheduler) : schedInv d ↔
    (d.queue.map (·.dueTime)).Pairwise (· ≤ ·) ∧
    (d.queue.map (·.handle) ++ d.again.map (·.handle)).Pairwise (· ≠ ·) ∧
    ∀ h ∈ d.queue.map (·.handle) ++ d.again.map (·.handle), h < d.nextHandle := by
  unfold schedInv
  rw [← List.map_append, List.pairwise_map, List.pairwise_map]
  simp only [List.mem_map, forall_exists_index, and_imp, forall_apply_eq_imp_iff₂]

theorem schedInv_registerCallback {timeout : Rat} {periodic : Bool} {handler : Nat} {s : State}
    (h : schedInv s.sched) : schedInv (registerCallback timeout periodic handler s).sched := by
  unfold registerCallback
  split
  · exact h
  · obtain ⟨hs, hd, hn⟩ := h
    refine ⟨sorted_insertDue _ hs, ?_, ?_⟩
    · have hp : (insertDue ⟨s.sched.nextHandle, now s + timeout, timeout, periodic, handler, false⟩ s.sched.queue
          ++ s.sched.again).Perm (⟨s.sched.nextHandle, now s + timeout, timeout, periodic, handler, false⟩
            :: (s.sched.queue ++ s.sched.again)) := (insertDue_perm _ _).append_right _
      refine (hp.pairwise_iff (fun {a b} hab => Ne.symm hab)).2 (List.pairwise_cons.2 ⟨fun r hr => ?_, hd⟩)
      exact Nat.ne_of_gt (hn r hr)
    · intro r hr
      rcases List.mem_append.1 hr with hr | hr
      · rcases mem_insertDue.1 hr with rfl | hr
        · exact Nat.lt_succ_self _
        · exact Nat.lt_succ_of_lt (hn r (List.mem_append_left _ hr))
      · exact Nat.lt_succ_of_lt (hn r (List.mem_append_right _ hr))

theorem schedInv_unregisterCallback {handle : Nat} {s : State} (h : schedInv s.sched) :
    schedInv (unregisterCallback handle s).2.sched := by
  rw [schedInv_iff] at h ⊢
  simpa [unregisterCallback, cancel_handle, cancel_dueTime] using h

theorem schedInv_facadeCall {c : FacadeCall} {s : State} (h : schedInv s.sched) :
    schedInv (facadeCall c s).sched := by
  cases c with
  | registerCallback timeout periodic handler => exact schedInv_registerCallback h
  | unregisterCallback handle => exact schedInv_unregisterCallback h
  | setFiq active => exact h
  | setIrq active => exact h
  | raiseEvent name sender args => exact h

theorem schedInv_facadeCalls {calls : List FacadeCall} {s : State} (h : schedInv s.sched) :
    schedInv (facadeCalls calls s).sched := by
  induction calls generalizing s with
  | nil => exact h
  | cons c rest ih => exact ih (schedInv_facadeCall h)

/-- No facade call puts a record by for re-registration. -/
theorem again_facadeCall {c : FacadeCall} {s : State} (h : s.sched.again = []) :
    (facadeCall c s).sched.again = [] := by
  cases c with
  | registerCallback timeout periodic handler =>
    simp only [facadeCall, registerCallback]; split <;> exact h
  | unregisterCallback handle => simp [facadeCall, unregisterCallback, cancel, h]
  | setFiq active => exact h
  | setIrq active => exact h
  | raiseEvent name sender args => exact h

theorem again_facadeCalls {calls : List FacadeCall} {s : State} (h : s.sched.again = []) :
    (facadeCalls calls s).sched.again = [] := by
  induction calls generalizing s with
  | nil => exact h
  | cons c rest ih => exact ih (again_facadeCall h)

/-- Facade calls change the Scheduler and nothing else (R333, R336). -/
theorem facadeCalls_eq (calls : List FacadeCall) (s : State) :
    facadeCalls calls s = { s with sched := (facadeCalls calls s).sched } := by
  apply State.ext <;> simp

/-- What facade calls do to the Scheduler depends on the Scheduler and on `now` only (R336). -/
theorem facadeCall_sched_congr {s t : State} (c : FacadeCall) (h1 : t.sched = s.sched) (h2 : t.cycles = s.cycles)
    (h3 : t.clockRate = s.clockRate) : (facadeCall c t).sched = (facadeCall c s).sched := by
  cases c <;> simp [facadeCall, setFiqLine, setIrqLine, registerCallback, unregisterCallback, raiseEvent, subscribers,
    now, h1, h2, h3]
  split <;> simp [h1]

theorem facadeCalls_sched_congr {s t : State} (calls : List FacadeCall) (h1 : t.sched = s.sched)
    (h2 : t.cycles = s.cycles) (h3 : t.clockRate = s.clockRate) :
    (facadeCalls calls t).sched = (facadeCalls calls s).sched := by
  induction calls generalizing s t with
  | nil => exact h1
  | cons c rest ih => exact ih (facadeCall_sched_congr c h1 h2 h3) (by simp [h2]) (by simp [h3])

/-- Facade calls mark records that wait for re-registration, and neither add one nor take one away (R323, R329). -/
theorem facadeCall_again_handles (c : FacadeCall) (s : State) :
    (facadeCall c s).sched.again.map (·.handle) = s.sched.again.map (·.handle) := by
  cases c with
  | registerCallback timeout periodic handler => simp only [facadeCall, registerCallback]; split <;> rfl
  | unregisterCallback handle => exact cancel_handle handle _
  | setFiq active => rfl
  | setIrq active => rfl
  | raiseEvent name sender args => rfl

theorem facadeCalls_again_handles (calls : List FacadeCall) (s : State) :
    (facadeCalls calls s).sched.again.map (·.handle) = s.sched.again.map (·.handle) := by
  induction calls generalizing s with
  | nil => rfl
  | cons c rest ih => exact (ih _).trans (facadeCall_again_handles c s)

/-- What a turn of the drain with a live head does, in one update and the handler's calls (R324). -/
theorem runHandler_keepAgain_popQueue (o : Oracle) (head : Callback) (rest : List Callback) (s : State) :
    runHandler o head (keepAgain head (popQueue rest s)) =
      facadeCalls (o.callback s.draws s.cycles head.handler)
        { s with
          sched := { s.sched with
            queue := rest
            again := if head.periodic then s.sched.again ++ [head] else s.sched.again }
          draws := s.draws + 1 } := by
  unfold runHandler keepAgain popQueue
  cases head.periodic <;> rfl

/-! ### The loop of `Cpu.Run` -/

/-- Where every step costs a cycle (R147), the loop's bound on its turns does not matter once it reaches the budget
(R149). -/
theorem cpuLoop_turns (paid : ∀ s t, step s = .next t → s.cycles < t.cycles) {n m : Nat} {left : Int} {s : State}
    (hn : left.toNat ≤ n) (hm : left.toNat ≤ m) : cpuLoop n left s = cpuLoop m left s := by
  induction n generalizing m left s with
  | zero =>
    cases m with
    | zero => rfl
    | succ m => rw [cpuLoop, cpuLoop, if_neg (by omega)]
  | succ n ih =>
    cases m with
    | zero => rw [cpuLoop, cpuLoop, if_neg (by omega)]
    | succ m =>
      rw [cpuLoop, cpuLoop]
      split
      · split
        · rename_i t ht
          have := paid s t ht
          exact ih (by omega) (by omega)
        · rfl
        · rfl
        · rfl
      · rfl

end Sys2Proof.Machine
end

