-- ==== Sys2Proof/Laws/Bus.lean ====
section
/-!
SUPPORT. The laws of the bus (spec 20_memory.md R61, R62): what a read and a write of the Cpu can change, whether or
not they succeed, and what each kind of Region answers.
-/

namespace Sys2Proof.Machine

/-! ### Reads -/

/-- Everything a read can do: nothing at all, or the facade calls of a Device's code (R77). -/
theorem memRead_cases (s : State) (addr : Word) (w : Width) :
    (memRead s addr w).2 = s ∨ ∃ calls, (memRead s addr w).2 = facadeCalls calls { s with draws := s.draws + 1 } := by
  simp only [memRead]
  split
  · exact .inl rfl
  · split
    · exact .inl rfl
    · exact .inl rfl
    · exact .inl rfl
    · exact .inr ⟨_, rfl⟩

/-- A read changes the Scheduler (by a Device's calls) and the counter of free values, and nothing else (R77). -/
theorem memRead_frame {s t : State} {addr : Word} {w : Width} {v : Option Word} (h : memRead s addr w = (v, t)) :
    t = { s with sched := t.sched, draws := t.draws } := by
  have hc := memRead_cases s addr w
  rw [h] at hc
  rcases hc with rfl | ⟨calls, rfl⟩
  · rfl
  · rw [facadeCalls_eq]

/-- What a read leaves of the Scheduler comes from facade calls. -/
theorem memRead_sched {s t : State} {addr : Word} {w : Width} {v : Option Word} (h : memRead s addr w = (v, t)) :
    (schedInv s.sched → schedInv t.sched) ∧ (s.sched.again = [] → t.sched.again = []) := by
  have hc := memRead_cases s addr w
  rw [h] at hc
  rcases hc with rfl | ⟨calls, rfl⟩
  · exact ⟨id, id⟩
  · exact ⟨fun hs => schedInv_facadeCalls (s := { s with draws := s.draws + 1 }) hs,
      fun hs => again_facadeCalls (s := { s with draws := s.draws + 1 }) hs⟩

/-- A read of a readable buffer answers the datum at the aligned address and changes nothing (R61, R65). -/
theorem memRead_buffer {s : State} {addr : Word} {w : Width} {r : Region}
    (hr : regionAt s.regions (alignTo w addr).toNat = some r) (hk : r.kind = .ram ∨ r.kind = .noWrite) :
    memRead s addr w = (some (readDatum s.mem (alignTo w addr).toNat w), s) := by
  rcases hk with hk | hk <;> simp [memRead, hr, hk]

/-- A read where no Region answers, or a `NoRead` one, fails and changes nothing (R63). -/
theorem memRead_fails {s : State} {addr : Word} {w : Width}
    (h : ∀ r, regionAt s.regions (alignTo w addr).toNat = some r → r.kind = .noRead) : memRead s addr w = (none, s) := by
  simp only [memRead]
  split
  · rfl
  · rename_i r hr
    simp [h r hr]

/-! ### Writes -/

/-- Everything a write can do: fail with nothing done; place the datum in a writable buffer; or the facade calls of a
Device's code, whatever its answer. -/
theorem memWrite_cases (s : State) (addr : Word) (w : Width) (v : Word) :
    memWrite s addr w v = (s, false) ∨
    (memWrite s addr w v = ({ s with mem := writeDatum s.mem (alignTo w addr).toNat w v }, true) ∧
      ∃ r, regionAt s.regions (alignTo w addr).toNat = some r ∧ buffered r.kind = true) ∨
    ∃ calls, (memWrite s addr w v).1 = facadeCalls calls { s with draws := s.draws + 1 } := by
  simp only [memWrite]
  split
  · exact .inl rfl
  · rename_i r hr
    split
    · exact .inl rfl
    · exact .inr (.inl ⟨rfl, r, hr, by simp [buffered, *]⟩)
    · exact .inr (.inl ⟨rfl, r, hr, by simp [buffered, *]⟩)
    · exact .inr (.inr ⟨_, rfl⟩)

/-- A write changes memory, the Scheduler and the counter of free values, and nothing else. -/
theorem memWrite_frame {s t : State} {addr v : Word} {w : Width} {ok : Bool} (h : memWrite s addr w v = (t, ok)) :
    t = { s with mem := t.mem, sched := t.sched, draws := t.draws } := by
  have hc := memWrite_cases s addr w v
  rw [h] at hc
  rcases hc with e | ⟨e, -⟩ | ⟨calls, e⟩
  · cases e; rfl
  · cases e; rfl
  · rw [show t = _ from e, facadeCalls_eq]

theorem memWrite_sched {s t : State} {addr v : Word} {w : Width} {ok : Bool} (h : memWrite s addr w v = (t, ok)) :
    (schedInv s.sched → schedInv t.sched) ∧ (s.sched.again = [] → t.sched.again = []) := by
  have hc := memWrite_cases s addr w v
  rw [h] at hc
  rcases hc with e | ⟨e, -⟩ | ⟨calls, e⟩
  · cases e; exact ⟨id, id⟩
  · cases e; exact ⟨id, id⟩
  · rw [show t = _ from e]
    exact ⟨fun hs => schedInv_facadeCalls (s := { s with draws := s.draws + 1 }) hs,
      fun hs => again_facadeCalls (s := { s with draws := s.draws + 1 }) hs⟩

/-- A write of a writable buffer places the datum at the aligned address (R62, R65). -/
theorem memWrite_buffer {s : State} {addr v : Word} {w : Width} {r : Region}
    (hr : regionAt s.regions (alignTo w addr).toNat = some r) (hk : r.kind = .ram ∨ r.kind = .noRead) :
    memWrite s addr w v = ({ s with mem := writeDatum s.mem (alignTo w addr).toNat w v }, true) := by
  rcases hk with hk | hk <;> simp [memWrite, hr, hk]

/-- A write where no Region answers, or a `NoWrite` one, fails and changes nothing (R63, R65). -/
theorem memWrite_fails {s : State} {addr v : Word} {w : Width}
    (h : ∀ r, regionAt s.regions (alignTo w addr).toNat = some r → r.kind = .noWrite) :
    memWrite s addr w v = (s, false) := by
  simp only [memWrite]
  split
  · rfl
  · rename_i r hr
    simp [h r hr]

/-- Whatever answers a write, memory is the datum's bytes placed at the aligned address, or unchanged. -/
theorem memWrite_mem {s t : State} {addr v : Word} {w : Width} {ok : Bool} (h : memWrite s addr w v = (t, ok)) :
    t.mem = s.mem ∨
      (ok = true ∧ t.mem = writeDatum s.mem (alignTo w addr).toNat w v ∧
        ∃ r, regionAt s.regions (alignTo w addr).toNat = some r ∧ buffered r.kind = true) := by
  have hc := memWrite_cases s addr w v
  rw [h] at hc
  rcases hc with e | ⟨e, hr⟩ | ⟨calls, e⟩
  · cases e; exact .inl rfl
  · cases e; exact .inr ⟨rfl, rfl, hr⟩
  · rw [show t = _ from e]; exact .inl (by simp)

/-- A failed write leaves memory alone (R63). -/
theorem memWrite_failed_mem {s t : State} {addr v : Word} {w : Width} (h : memWrite s addr w v = (t, false)) :
    t.mem = s.mem := by
  rcases memWrite_mem h with e | ⟨e, -⟩
  · exact e
  · cases e

/-- Every byte outside the aligned datum reads as before. -/
theorem memWrite_outside {s t : State} {addr v : Word} {w : Width} {ok : Bool} (h : memWrite s addr w v = (t, ok))
    {a : Nat} (ha : a < (alignTo w addr).toNat ∨ (alignTo w addr).toNat + w.bytes ≤ a) :
    readByte t.mem a = readByte s.mem a := by
  rcases memWrite_mem h with e | ⟨-, e, -⟩
  · rw [e]
  · rw [e, readByte_writeDatum_outside _ _ _ _ ha]

/-- A write keeps the canonical form, and lists bytes of mapped buffers only. -/
theorem memoryInv_memWrite {s t : State} {addr v : Word} {w : Width} {ok : Bool} (h : memWrite s addr w v = (t, ok))
    (hg : ∀ r ∈ s.regions, goodGeometry r = true) (hm : memoryInv s.mem s.regions) :
    memoryInv t.mem t.regions := by
  have hreg : t.regions = s.regions := by rw [memWrite_frame h]
  rw [hreg]
  rcases memWrite_mem h with e | ⟨-, e, r, hr, hk⟩
  · rw [e]; exact hm
  · rw [e]
    refine ⟨wf_writeDatum hm.1 _ _ _, fun c hc => ?_⟩
    rcases mem_writeDatum hc with hc | hc
    · exact hm.2 c hc
    · refine ⟨r, ?_, hk⟩
      have ha : (alignTo w addr).toNat % w.bytes = 0 := by
        rw [toNat_alignTo]
        have := Nat.div_add_mod addr.toNat w.bytes
        rw [show addr.toNat - addr.toNat % w.bytes = w.bytes * (addr.toNat / w.bytes) by omega]
        exact Nat.mul_mod_right _ _
      obtain ⟨k, hk⟩ : ∃ k, c.1 = (alignTo w addr).toNat + k := ⟨c.1 - (alignTo w addr).toNat, by omega⟩
      rw [hk, regionAt_add hg ha (by omega), hr]

end Sys2Proof.Machine
end

