-- ==== Sys2Proof/Laws/Registers.lean ====
section
/-!
SUPPORT. The laws of register access: which physical register a name selects (spec 10_state.md R25), what a write
can answer (R32, R38), and the reading back of what was written.
-/

namespace Sys2Proof.Machine

/-! ### Sequencing -/

@[simp] theorem thenDo_next (s : State) (k : State → Result) : thenDo (.next s) k = k s := rfl

@[simp] theorem thenDo_fatal (kind : Fatal) (s : State) (k : State → Result) :
    thenDo (fatal kind s) k = fatal kind s := rfl

/-- What a sequence that answers a next state did. -/
theorem thenDo_eq_next {r : Result} {k : State → Result} {t : State} :
    thenDo r k = .next t ↔ ∃ u, r = .next u ∧ k u = .next t := by
  cases r <;> simp [thenDo]

theorem fatal_ne_next (kind : Fatal) (s t : State) : fatal kind s ≠ .next t := by simp [fatal]

/-- A guarded body that answers a next state ran, or its condition failed and nothing changed (R143). -/
theorem guarded_eq_next {c : Cond} {s t : State} {body : State → Result} :
    guarded c s body = .next t ↔
      (condHolds c s.cpsr = true ∧ body s = .next t) ∨ (condHolds c s.cpsr = false ∧ t = s) := by
  unfold guarded
  cases condHolds c s.cpsr <;> simp [eq_comm]

theorem guarded_of_holds {c : Cond} {s : State} {body : State → Result} (h : condHolds c s.cpsr = true) :
    guarded c s body = body s := by simp [guarded, h]

theorem guarded_of_fails {c : Cond} {s : State} {body : State → Result} (h : condHolds c s.cpsr = false) :
    guarded c s body = .next s := by simp [guarded, h]

/-! ### Physical registers -/

/-- Two names of one mode are two registers (R22, R25). -/
theorem phys_injective : ∀ (m : Mode) (r q : Reg), r ≠ 15#4 → q ≠ 15#4 → phys m r = phys m q → r = q := by
  intro m; cases m <;> decide

/-- User and System see the same registers (R26). -/
theorem phys_system (r : Reg) : phys .system r = phys .user r := rfl

/-- R8 to R12 of the bank fiq are seen in FIQ mode only (R25). -/
theorem phys_fiq_private : ∀ (m : Mode) (r q : Reg), m ≠ .fiq → r ≠ 15#4 → q ≠ 15#4 → 8 ≤ q.toNat →
    phys m r ≠ phys .fiq q := by
  intro m; cases m <;> decide

@[simp] theorem setGpr_gpr_same (p : Fin 30) (v : Word) (s : State) : (setGpr p v s).gpr[p] = v := by
  simp [setGpr]

theorem setGpr_gpr_ne {p q : Fin 30} (v : Word) (s : State) (h : q ≠ p) : (setGpr p v s).gpr[q] = s.gpr[q] := by
  have : p.val ≠ q.val := fun e => h (Fin.ext e.symm)
  simp [setGpr, Vector.getElem_set_ne, this]

theorem reg_of_ne {s : State} {r : Reg} (h : r ≠ 15#4) : reg s r = s.gpr[phys s.cpsr.mode r] := by simp [reg, h]

@[simp] theorem reg_pc (s : State) : reg s 15#4 = s.pc := rfl

theorem reg_setGpr_same {s : State} {r : Reg} (v : Word) (h : r ≠ 15#4) :
    reg (setGpr (phys s.cpsr.mode r) v s) r = v := by simp [reg, h]

theorem reg_setGpr_ne {s : State} {r q : Reg} (v : Word) (hr : r ≠ 15#4) (h : q ≠ r) :
    reg (setGpr (phys s.cpsr.mode r) v s) q = reg s q := by
  by_cases hq : q = 15#4
  · subst hq; rfl
  · rw [reg_of_ne hq, reg_of_ne hq]
    exact setGpr_gpr_ne _ _ fun e => h (phys_injective _ _ _ hq hr e)

/-! ### Writes of R15 and of a register -/

theorem writePc_of_aligned {v : Word} (s : State) (h : fld 0 2 v = 0#2) :
    writePc v s = .next { s with pc := v, pcAltered := true } := by simp [writePc, h]

theorem writePc_of_misaligned {v : Word} (s : State) (h : fld 0 2 v ≠ 0#2) :
    writePc v s = fatal .alignmentError s := by simp [writePc, h]

theorem writePc_eq_next {v : Word} {s t : State} :
    writePc v s = .next t ↔ fld 0 2 v = 0#2 ∧ t = { s with pc := v, pcAltered := true } := by
  by_cases h : fld 0 2 v = 0#2
  · simp [writePc, h, eq_comm]
  · simp [writePc, h, fatal]

theorem setReg_of_ne {r : Reg} (v : Word) (s : State) (h : r ≠ 15#4) :
    setReg r v s = .next (setGpr (phys s.cpsr.mode r) v s) := by simp [setReg, h]

@[simp] theorem setReg_pc (v : Word) (s : State) : setReg 15#4 v s = writePc v s := rfl

theorem setReg_eq_next {r : Reg} {v : Word} {s t : State} :
    setReg r v s = .next t ↔
      (r = 15#4 ∧ fld 0 2 v = 0#2 ∧ t = { s with pc := v, pcAltered := true }) ∨
      (r ≠ 15#4 ∧ t = setGpr (phys s.cpsr.mode r) v s) := by
  by_cases h : r = 15#4
  · subst h; simp [writePc_eq_next]
  · simp [setReg, h, eq_comm]

/-! ### Status registers -/

theorem modeOfNumber_modeNumber (m : Mode) : modeOfNumber (modeNumber m) = some m := by cases m <;> rfl

/-- `LoadCpsr` answers a next state exactly for T = 0 and a legal mode number (R38, R39). -/
theorem loadCpsr_eq_next {w : Word} {s t : State} :
    loadCpsr w s = .next t ↔ bit 5 w = false ∧ ∃ m, modeOfNumber (fld 0 5 w) = some m ∧
      t = { s with cpsr := ⟨bit 31 w, bit 30 w, bit 29 w, bit 28 w, bit 7 w, bit 6 w, false, m⟩ } := by
  unfold loadCpsr
  cases bit 5 w
  · cases modeOfNumber (fld 0 5 w) <;> simp [fatal, eq_comm]
  · simp [fatal]

/-- A read of the SPSR changes at most the counter of free values. -/
theorem readSpsr_state (s : State) : (readSpsr s).2 = s ∨ (readSpsr s).2 = { s with draws := s.draws + 1 } := by
  unfold readSpsr
  split
  · exact .inl rfl
  · exact .inr rfl

theorem readSpsr_of_some {s : State} {w : Word} (h : spsrOf (bankOf s.cpsr.mode) s.spsr = some w) :
    readSpsr s = (w, s) := by simp [readSpsr, h]

theorem spsrOf_withSpsr {b : Bank} (h : b ≠ .usr) (w : Word) (p : SavedPsrs) :
    spsrOf b (withSpsr b w p) = some w := by cases b <;> simp_all [spsrOf, withSpsr]

theorem spsrOf_withSpsr_ne {b d : Bank} (h : b ≠ d) (w : Word) (p : SavedPsrs) :
    spsrOf b (withSpsr d w p) = spsrOf b p := by cases b <;> cases d <;> simp_all [spsrOf, withSpsr]

/-- An exception return that answers a next state changed the CPSR, and at most the counter besides (R365). -/
theorem restoreCpsr_eq_next {s t : State} (h : restoreCpsr s = .next t) :
    ∃ u, (u = s ∨ u = { s with draws := s.draws + 1 }) ∧ t.cpsr.t = false ∧ t = { u with cpsr := t.cpsr } := by
  obtain ⟨-, m, -, ht⟩ := loadCpsr_eq_next.1 h
  exact ⟨_, readSpsr_state s, by rw [ht], by rw [ht]⟩

/-- A return in User mode stays there (R371). -/
theorem restoreCpsr_user {s t : State} (hu : s.cpsr.mode = .user) (h : restoreCpsr s = .next t) :
    t.cpsr.mode = .user := by
  obtain ⟨-, m, hm, ht⟩ := loadCpsr_eq_next.1 h
  have : fld 0 5 (returnWord s.cpsr.mode (readSpsr s).1) = 0b10000#5 := by
    apply BitVec.eq_of_getLsbD_eq
    intro i hi
    simp only [returnWord, hu, if_true, cat, fld, modeNumber, BitVec.getLsbD_extractLsb', BitVec.getLsbD_setWidth,
      BitVec.getLsbD_append, Nat.zero_add, hi, decide_true, Bool.true_and]
    simp [show i < 32 by omega]
  rw [this] at hm
  cases hm
  rw [ht]

/-- In a mode that has an SPSR, the return loads exactly its word (R365). -/
theorem restoreCpsr_of_some {s : State} {w : Word} (h : spsrOf (bankOf s.cpsr.mode) s.spsr = some w) :
    restoreCpsr s = loadCpsr w s := by
  have hm : s.cpsr.mode ≠ .user := by
    intro e
    simp [e, bankOf, spsrOf] at h
  simp [restoreCpsr, readSpsr_of_some h, returnWord, hm]

/-! ### Exception entry -/

theorem raiseException_gpr_of_link {kind : Exception} {v : Word} {s : State} (h : linkValue kind s.pc = some v) :
    (raiseException kind s).gpr = s.gpr.set (phys (targetMode kind) 14#4) v := by simp [raiseException, h]

theorem raiseException_gpr_reset (s : State) : (raiseException .reset s).gpr = s.gpr := rfl

end Sys2Proof.Machine
end

