-- ==== Sys2Proof/Laws/Block.lean ====
section
/-!
SUPPORT. The laws of the block transfers' loops (spec 45_block_transfer.md R272, R273, R278): what the reads, the writes
and the loading of registers leave alone.
-/

namespace Sys2Proof.Machine

/-- The reads of an LDM change what Devices do, and nothing else. -/
theorem readWords_frame (l : List Word) (s : State) :
    (readWords l s).2 = { s with sched := (readWords l s).2.sched, draws := (readWords l s).2.draws } := by
  induction l generalizing s with
  | nil => rfl
  | cons a rest ih =>
    simp only [readWords]
    split
    · rename_i s1 hm
      exact memRead_frame hm
    · rename_i v s1 hm
      have h1 := memRead_frame hm
      have h2 := ih s1
      split
      · rename_i s2 hr
        rw [hr] at h2
        rw [h2, h1]
      · rename_i vs s2 hr
        rw [hr] at h2
        rw [h2, h1]

theorem readWords_eq_frame {l : List Word} {s v : State} {o : Option (List Word)} (h : readWords l s = (o, v)) :
    v = { s with sched := v.sched, draws := v.draws } := by
  have := readWords_frame l s
  rw [h] at this
  exact this

/-- A read block has one value for each address. -/
theorem readWords_length {l : List Word} {s : State} {vs : List Word} (h : (readWords l s).1 = some vs) :
    vs.length = l.length := by
  induction l generalizing s vs with
  | nil => cases h; rfl
  | cons a rest ih =>
    simp only [readWords] at h
    split at h
    · cases h
    · rename_i v s1 hm
      split at h
      · cases h
      · rename_i us s2 hr
        cases h
        simp [ih (s := s1) (vs := us) (by rw [hr])]

/-- The writes of an STM change memory and what Devices do, and nothing else. -/
theorem writeWords_frame (l : List (Word × Word)) (s : State) :
    (writeWords l s).1 =
      { s with mem := (writeWords l s).1.mem, sched := (writeWords l s).1.sched, draws := (writeWords l s).1.draws } := by
  induction l generalizing s with
  | nil => rfl
  | cons a rest ih =>
    obtain ⟨a, v⟩ := a
    simp only [writeWords]
    split
    · rename_i s1 hm
      exact memWrite_frame hm
    · rename_i s1 hm
      have h1 := memWrite_frame hm
      have h2 := ih s1
      rw [h2, h1]

theorem writeWords_eq_frame {l : List (Word × Word)} {s v : State} {b : Bool} (h : writeWords l s = (v, b)) :
    v = { s with mem := v.mem, sched := v.sched, draws := v.draws } := by
  have := writeWords_frame l s
  rw [h] at this
  exact this

/-- Every byte outside the written words reads as before. -/
theorem writeWords_outside (l : List (Word × Word)) (s : State) {a : Nat}
    (ha : ∀ p ∈ l, a < (alignTo .word p.1).toNat ∨ (alignTo .word p.1).toNat + 4 ≤ a) :
    readByte (writeWords l s).1.mem a = readByte s.mem a := by
  induction l generalizing s with
  | nil => rfl
  | cons q rest ih =>
    obtain ⟨q, v⟩ := q
    simp only [writeWords]
    split
    · rename_i s1 hm
      exact memWrite_outside hm (ha (q, v) List.mem_cons_self)
    · rename_i s1 hm
      rw [ih s1 fun p hp => ha p (List.mem_cons_of_mem _ hp)]
      exact memWrite_outside hm (ha (q, v) List.mem_cons_self)

/-- Loading registers changes general registers, and nothing else. -/
theorem loadRegisters_frame (m : Mode) (l : List (Reg × Word)) (s : State) :
    loadRegisters m l s = { s with gpr := (loadRegisters m l s).gpr } := by
  induction l generalizing s with
  | nil => rfl
  | cons q rest ih =>
    obtain ⟨r, v⟩ := q
    simp only [loadRegisters]
    split
    · exact ih s
    · rw [ih]; rfl

/-- A register that is not listed keeps its value. -/
theorem loadRegisters_gpr_ne (m : Mode) (l : List (Reg × Word)) (s : State) {p : Fin 30}
    (hp : ∀ q ∈ l, q.1 ≠ 15#4 → p ≠ phys m q.1) : (loadRegisters m l s).gpr[p] = s.gpr[p] := by
  induction l generalizing s with
  | nil => rfl
  | cons q rest ih =>
    obtain ⟨r, v⟩ := q
    simp only [loadRegisters]
    rw [ih _ fun q hq => hp q (List.mem_cons_of_mem _ hq)]
    split
    · rfl
    · rename_i h
      exact setGpr_gpr_ne _ _ (hp (r, v) List.mem_cons_self h)

/-- A listed register ends with its value; no register is listed twice. -/
theorem loadRegisters_gpr {m : Mode} {l : List (Reg × Word)} {s : State}
    (hd : (l.map Prod.fst).Pairwise (· ≠ ·)) {k : Nat} {r : Reg} {v : Word} (hk : l[k]? = some (r, v))
    (hr : r ≠ 15#4) : (loadRegisters m l s).gpr[phys m r] = v := by
  induction l generalizing s k with
  | nil => simp at hk
  | cons q rest ih =>
    obtain ⟨r', v'⟩ := q
    simp only [List.map_cons, List.pairwise_cons] at hd
    simp only [loadRegisters]
    cases k with
    | zero =>
      simp at hk
      obtain ⟨rfl, rfl⟩ := hk
      refine (loadRegisters_gpr_ne _ _ _ ?_).trans ?_
      · intro q hq h15 he
        exact hd.1 q.1 (List.mem_map_of_mem hq) (phys_injective _ _ _ hr h15 he)
      · simp [hr]
    | succ k => exact ih hd.2 (by simpa using hk)

end Sys2Proof.Machine
end

