-- ==== Sys2Proof/Laws/Decode.lean ====
section
/-!
SUPPORT. How the fields of a built word are read back: `fld` and `bit` of `cat`, which is all that a proof about
`decodeWord (encode i)` needs.
-/

namespace Sys2Proof

@[simp] theorem fld_cat_lo {a b k lo len : Nat} (x : BitVec a) (y : BitVec b) (h : lo + len ≤ b)
    (hk : lo + len ≤ k) : fld lo len (cat k x y) = fld lo len y := by
  apply BitVec.eq_of_getLsbD_eq
  intro i hi
  simp only [fld, cat, BitVec.getLsbD_extractLsb', BitVec.getLsbD_setWidth, BitVec.getLsbD_append]
  simp [show lo + i < b by omega, show lo + i < k by omega]

@[simp] theorem fld_cat_hi {a b k lo len : Nat} (x : BitVec a) (y : BitVec b) (h : b ≤ lo) (hk : lo + len ≤ k) :
    fld lo len (cat k x y) = fld (lo - b) len x := by
  apply BitVec.eq_of_getLsbD_eq
  intro i hi
  simp only [fld, cat, BitVec.getLsbD_extractLsb', BitVec.getLsbD_setWidth, BitVec.getLsbD_append]
  simp [show ¬ lo + i < b by omega, show lo + i < k by omega, show lo + i - b = lo - b + i by omega]

@[simp] theorem bit_cat_lo {a b k i : Nat} (x : BitVec a) (y : BitVec b) (h : i < b) (hk : i < k) :
    bit i (cat k x y) = bit i y := by
  simp [bit, cat, BitVec.getLsbD_append, h, hk, -BitVec.append_eq]

@[simp] theorem bit_cat_hi {a b k i : Nat} (x : BitVec a) (y : BitVec b) (h : b ≤ i) (hk : i < k) :
    bit i (cat k x y) = bit (i - b) x := by
  simp [bit, cat, BitVec.getLsbD_append, hk, show ¬ i < b by omega]

@[simp] theorem fld_all {k : Nat} (w : BitVec k) : fld 0 k w = w := by simp [fld]

@[simp] theorem bit_flag (b : Bool) : bit 0 (flag b) = b := by cases b <;> rfl

/-- A bit of a literal. -/
@[simp] theorem bit_literal (n x i : Nat) :
    bit i (BitVec.ofNat n x) = (decide (i < n) && decide (x / 2 ^ i % 2 = 1)) := by
  simp [bit, BitVec.getLsbD_ofNat, Nat.testBit_eq_decide_div_mod_eq]

/-- A field of a literal. -/
@[simp] theorem fld_literal (n x lo len : Nat) :
    fld lo len (BitVec.ofNat n x) = BitVec.ofNat len ((x % 2 ^ n) >>> lo) := rfl

@[simp] theorem cond_ofCode_code (c : Cond) : Cond.ofCode c.code = c := by cases c <;> rfl

@[simp] theorem shiftType_ofCode_code (t : ShiftType) : ShiftType.ofCode t.code = t := by cases t <;> rfl

/-- The condition field of a built word (R100). -/
theorem fld_cond (c : Cond) (x : BitVec 28) : fld 28 4 (cat 32 c.code x) = c.code :=
  (fld_cat_hi c.code x (Nat.le_refl 28) (Nat.le_refl 32)).trans (fld_all c.code)

/-- A field of a field. -/
theorem fld_fld {k lo len lo' len' : Nat} (w : BitVec k) (h : lo' + len' ≤ len) :
    fld lo' len' (fld lo len w) = fld (lo + lo') len' w := by
  apply BitVec.eq_of_getLsbD_eq
  intro i hi
  simp [fld, show lo' + i < len by omega, Nat.add_assoc, hi]

/-- A bit of a field. -/
theorem bit_fld {k lo len i : Nat} (w : BitVec k) (h : i < len) : bit i (fld lo len w) = bit (lo + i) w := by
  simp [bit, fld, h]

/-- Two halves of a field make the field. -/
theorem cat_fld_fld {k a b : Nat} (w : BitVec k) (lo : Nat) :
    cat (a + b) (fld (lo + b) a w) (fld lo b w) = fld lo (a + b) w := by
  apply BitVec.eq_of_getLsbD_eq
  intro i hi
  simp only [fld, cat, BitVec.getLsbD_extractLsb', BitVec.getLsbD_setWidth, BitVec.getLsbD_append, hi]
  by_cases h : i < b
  · simp [h]
  · simp [h, show i - b < a by omega, show lo + b + (i - b) = lo + i by omega]

/-- The two halves of the offset of format HALFWORD make the offset (R118). -/
@[simp] theorem cat_halves (off : BitVec 8) : cat 8 (fld 4 4 off) (fld 0 4 off) = off :=
  (cat_fld_fld (a := 4) (b := 4) off 0).trans (fld_all off)

/-- What the key of BX says of the other formats' fields (R102, R117). -/
theorem bxKey_fields {iw : Word} (h : bxKey iw = true) :
    bit 24 iw = true ∧ bit 23 iw = false ∧ bit 21 iw = true ∧ bit 20 iw = false ∧ fld 8 4 iw = 15#4 ∧ bit 7 iw = false := by
  have e : fld 4 21 iw = 0x12FFF1#21 := by simpa [bxKey] using h
  refine ⟨?_, ?_, ?_, ?_, ?_, ?_⟩
  · rw [← bit_fld (lo := 4) (i := 20) (len := 21) iw (by decide), e]; rfl
  · rw [← bit_fld (lo := 4) (i := 19) (len := 21) iw (by decide), e]; rfl
  · rw [← bit_fld (lo := 4) (i := 17) (len := 21) iw (by decide), e]; rfl
  · rw [← bit_fld (lo := 4) (i := 16) (len := 21) iw (by decide), e]; rfl
  · rw [← fld_fld (lo := 4) (lo' := 4) (len := 21) (len' := 4) iw (by decide), e]; rfl
  · rw [← bit_fld (lo := 4) (i := 3) (len := 21) iw (by decide), e]; rfl

/-- The bytes of a word, read back in their order, are the word (R70). -/
theorem wordOfBytes_bytesOfWord (w : Word) :
    wordOfBytes (fld 0 8 w) (fld 8 8 w) (fld 16 8 w) (fld 24 8 w) = w := by
  rw [wordOfBytes, cat_fld_fld (a := 8) (b := 8) w 0, cat_fld_fld (a := 8) (b := 16) w 0,
    cat_fld_fld (a := 8) (b := 24) w 0, fld_all]

/-- Decoding the bytes of a word is decoding the word. -/
theorem decode_bytesOfWord (w : Word) (rest : List Byte) :
    decode (bytesOfWord w ++ rest) = .ok (decodeWord w, rest) := by
  simp only [bytesOfWord, List.cons_append, List.nil_append, decode, wordOfBytes_bytesOfWord]

end Sys2Proof
end

