-- ==== Sys2Proof/Laws/Exec.lean ====
section
/-!
SUPPORT. What each arm of `exec` is: its meaning, unfolded once, so that no later proof unfolds the dispatch.
-/

namespace Sys2Proof.Machine

theorem exec_bx (c : Cond) (rm : Reg) (s : State) :
    exec (.bx c rm) s =
      guarded c s (fun s => if bit 0 (reg s rm) then fatal .unsupportedState s else writePc (reg s rm) s) := rfl

theorem exec_swp (c : Cond) (rn rd rm : Reg) (s : State) :
    exec (.swp c rn rd rm) s =
      guarded c s (fun s => swapTransfer .word rotateByAddress rn rd rm s) := rfl

theorem exec_swpb (c : Cond) (rn rd rm : Reg) (s : State) :
    exec (.swpb c rn rd rm) s =
      guarded c s (fun s => swapTransfer .byte (fun _ v => v) rn rd rm s) := rfl

theorem exec_mul (c : Cond) (sf : Bool) (rd rs rm : Reg) (s : State) :
    exec (.mul c sf rd rs rm) s =
      guarded c s (fun s => writeShort sf rd rs rm (reg s rm * reg s rs) s) := rfl

theorem exec_mla (c : Cond) (sf : Bool) (rd rn rs rm : Reg) (s : State) :
    exec (.mla c sf rd rn rs rm) s =
      guarded c s (fun s => writeShort sf rd rs rm (reg s rm * reg s rs + reg s rn) s) := rfl

theorem exec_umull (c : Cond) (sf : Bool) (rdHi rdLo rs rm : Reg) (s : State) :
    exec (.umull c sf rdHi rdLo rs rm) s =
      guarded c s (fun s =>
          writeLong sf rdHi rdLo rs rm (BitVec.ofNat 64 ((reg s rm).toNat * (reg s rs).toNat)) s) := rfl

theorem exec_umlal (c : Cond) (sf : Bool) (rdHi rdLo rs rm : Reg) (s : State) :
    exec (.umlal c sf rdHi rdLo rs rm) s =
      guarded c s (fun s =>
          writeLong sf rdHi rdLo rs rm
            (BitVec.ofNat 64 ((reg s rm).toNat * (reg s rs).toNat + accumulator rdHi rdLo s)) s) := rfl

theorem exec_smull (c : Cond) (sf : Bool) (rdHi rdLo rs rm : Reg) (s : State) :
    exec (.smull c sf rdHi rdLo rs rm) s =
      guarded c s (fun s =>
          writeLong sf rdHi rdLo rs rm (BitVec.ofInt 64 ((reg s rm).toInt * (reg s rs).toInt)) s) := rfl

theorem exec_smlal (c : Cond) (sf : Bool) (rdHi rdLo rs rm : Reg) (s : State) :
    exec (.smlal c sf rdHi rdLo rs rm) s =
      guarded c s (fun s =>
          writeLong sf rdHi rdLo rs rm
            (BitVec.ofInt 64 ((reg s rm).toInt * (reg s rs).toInt + (accumulator rdHi rdLo s : Int))) s) := rfl

theorem exec_ldrh (c : Cond) (rd : Reg) (a : HalfAddress) (s : State) :
    exec (.ldrh c rd a) s =
      guarded c s (fun s => loadTransfer .halfword plainValue rd a.rn (halfAccess a s) s) := rfl

theorem exec_strh (c : Cond) (rd : Reg) (a : HalfAddress) (s : State) :
    exec (.strh c rd a) s =
      guarded c s (fun s => storeTransfer .halfword (reg s rd) a.rn (halfAccess a s) s) := rfl

theorem exec_ldrsb (c : Cond) (rd : Reg) (a : HalfAddress) (s : State) :
    exec (.ldrsb c rd a) s =
      guarded c s (fun s => loadTransfer .byte (fun _ v => sext8 v) rd a.rn (halfAccess a s) s) := rfl

theorem exec_ldrsh (c : Cond) (rd : Reg) (a : HalfAddress) (s : State) :
    exec (.ldrsh c rd a) s =
      guarded c s (fun s => loadTransfer .halfword (fun _ v => sext16 v) rd a.rn (halfAccess a s) s) := rfl

theorem exec_halfwordL0Sh2 (c : Cond) (rd : Reg) (a : HalfAddress) (s : State) :
    exec (.halfwordL0Sh2 c rd a) s =
      guarded c s (fun s => .next s) := rfl

theorem exec_halfwordL0Sh3 (c : Cond) (rd : Reg) (a : HalfAddress) (s : State) :
    exec (.halfwordL0Sh3 c rd a) s =
      guarded c s (fun s => .next s) := rfl

theorem exec_mrs (c : Cond) (r : Bool) (rd : Reg) (s : State) :
    exec (.mrs c r rd) s =
      guarded c s (fun s => moveFromStatus r rd s) := rfl

theorem exec_msr (c : Cond) (r : Bool) (fields : BitVec 4) (rm : Reg) (s : State) :
    exec (.msr c r fields rm) s =
      guarded c s (fun s => moveToStatus r fields (reg s rm) s) := rfl

theorem exec_mrsI (c : Cond) (r : Bool) (rd : Reg) (s : State) :
    exec (.mrsI c r rd) s =
      guarded c s (fun s => moveFromStatus r rd s) := rfl

theorem exec_msrI (c : Cond) (r : Bool) (fields : BitVec 4) (rot : BitVec 4) (imm8 : BitVec 8) (s : State) :
    exec (.msrI c r fields rot imm8) s =
      guarded c s (fun s => moveToStatus r fields (rotatedImm rot imm8) s) := rfl

theorem exec_and (c : Cond) (sf : Bool) (rd rn : Reg) (o : Operand2) (s : State) :
    exec (.and c sf rd rn o) s =
      guarded c s (fun s =>
          let x := operand2 o s
          writeAlu sf rd (logical (reg s rn &&& x.value) x.carry s.cpsr) s) := rfl

theorem exec_eor (c : Cond) (sf : Bool) (rd rn : Reg) (o : Operand2) (s : State) :
    exec (.eor c sf rd rn o) s =
      guarded c s (fun s =>
          let x := operand2 o s
          writeAlu sf rd (logical (reg s rn ^^^ x.value) x.carry s.cpsr) s) := rfl

theorem exec_sub (c : Cond) (sf : Bool) (rd rn : Reg) (o : Operand2) (s : State) :
    exec (.sub c sf rd rn o) s =
      guarded c s (fun s => writeAlu sf rd (subWith (reg s rn) (operand2 o s).value true) s) := rfl

theorem exec_rsb (c : Cond) (sf : Bool) (rd rn : Reg) (o : Operand2) (s : State) :
    exec (.rsb c sf rd rn o) s =
      guarded c s (fun s => writeAlu sf rd (subWith (operand2 o s).value (reg s rn) true) s) := rfl

theorem exec_add (c : Cond) (sf : Bool) (rd rn : Reg) (o : Operand2) (s : State) :
    exec (.add c sf rd rn o) s =
      guarded c s (fun s => writeAlu sf rd (addWith (reg s rn) (operand2 o s).value false) s) := rfl

theorem exec_adc (c : Cond) (sf : Bool) (rd rn : Reg) (o : Operand2) (s : State) :
    exec (.adc c sf rd rn o) s =
      guarded c s (fun s => writeAlu sf rd (addWith (reg s rn) (operand2 o s).value s.cpsr.c) s) := rfl

theorem exec_sbc (c : Cond) (sf : Bool) (rd rn : Reg) (o : Operand2) (s : State) :
    exec (.sbc c sf rd rn o) s =
      guarded c s (fun s => writeAlu sf rd (subWith (reg s rn) (operand2 o s).value s.cpsr.c) s) := rfl

theorem exec_rsc (c : Cond) (sf : Bool) (rd rn : Reg) (o : Operand2) (s : State) :
    exec (.rsc c sf rd rn o) s =
      guarded c s (fun s => writeAlu sf rd (subWith (operand2 o s).value (reg s rn) s.cpsr.c) s) := rfl

theorem exec_tst (c : Cond) (rn : Reg) (o : Operand2) (s : State) :
    exec (.tst c rn o) s =
      guarded c s (fun s =>
          let x := operand2 o s
          writeCompare (logical (reg s rn &&& x.value) x.carry s.cpsr) s) := rfl

theorem exec_teq (c : Cond) (rn : Reg) (o : Operand2) (s : State) :
    exec (.teq c rn o) s =
      guarded c s (fun s =>
          let x := operand2 o s
          writeCompare (logical (reg s rn ^^^ x.value) x.carry s.cpsr) s) := rfl

theorem exec_cmp (c : Cond) (rn : Reg) (o : Operand2) (s : State) :
    exec (.cmp c rn o) s =
      guarded c s (fun s => writeCompare (subWith (reg s rn) (operand2 o s).value true) s) := rfl

theorem exec_cmn (c : Cond) (rn : Reg) (o : Operand2) (s : State) :
    exec (.cmn c rn o) s =
      guarded c s (fun s => writeCompare (addWith (reg s rn) (operand2 o s).value false) s) := rfl

theorem exec_orr (c : Cond) (sf : Bool) (rd rn : Reg) (o : Operand2) (s : State) :
    exec (.orr c sf rd rn o) s =
      guarded c s (fun s =>
          let x := operand2 o s
          writeAlu sf rd (logical (reg s rn ||| x.value) x.carry s.cpsr) s) := rfl

theorem exec_mov (c : Cond) (sf : Bool) (rd : Reg) (o : Operand2) (s : State) :
    exec (.mov c sf rd o) s =
      guarded c s (fun s =>
          let x := operand2 o s
          writeAlu sf rd (logical x.value x.carry s.cpsr) s) := rfl

theorem exec_bic (c : Cond) (sf : Bool) (rd rn : Reg) (o : Operand2) (s : State) :
    exec (.bic c sf rd rn o) s =
      guarded c s (fun s =>
          let x := operand2 o s
          writeAlu sf rd (logical (reg s rn &&& ~~~x.value) x.carry s.cpsr) s) := rfl

theorem exec_mvn (c : Cond) (sf : Bool) (rd : Reg) (o : Operand2) (s : State) :
    exec (.mvn c sf rd o) s =
      guarded c s (fun s =>
          let x := operand2 o s
          writeAlu sf rd (logical (~~~x.value) x.carry s.cpsr) s) := rfl

theorem exec_undefined (c : Cond) (hi : BitVec 20) (lo : BitVec 4) (s : State) :
    exec (.undefined c hi lo) s =
      guarded c s (fun s => .next (raiseException .undefined s)) := rfl

theorem exec_ldrt (c : Cond) (rd : Reg) (u : Bool) (rn : Reg) (off : Offset) (s : State) :
    exec (.ldrt c rd u rn off) s =
      guarded c s (fun s => loadTransfer .word rotateByAddress rd rn (translatedAccess u rn off s) s) := rfl

theorem exec_ldrbt (c : Cond) (rd : Reg) (u : Bool) (rn : Reg) (off : Offset) (s : State) :
    exec (.ldrbt c rd u rn off) s =
      guarded c s (fun s => loadTransfer .byte plainValue rd rn (translatedAccess u rn off s) s) := rfl

theorem exec_strt (c : Cond) (rd : Reg) (u : Bool) (rn : Reg) (off : Offset) (s : State) :
    exec (.strt c rd u rn off) s =
      guarded c s (fun s => storeTransfer .word (reg s rd) rn (translatedAccess u rn off s) s) := rfl

theorem exec_strbt (c : Cond) (rd : Reg) (u : Bool) (rn : Reg) (off : Offset) (s : State) :
    exec (.strbt c rd u rn off) s =
      guarded c s (fun s => storeTransfer .byte (reg s rd) rn (translatedAccess u rn off s) s) := rfl

theorem exec_ldr (c : Cond) (rd : Reg) (a : Address) (s : State) :
    exec (.ldr c rd a) s =
      guarded c s (fun s => loadTransfer .word rotateByAddress rd a.rn (singleAccess a s) s) := rfl

theorem exec_ldrb (c : Cond) (rd : Reg) (a : Address) (s : State) :
    exec (.ldrb c rd a) s =
      guarded c s (fun s => loadTransfer .byte plainValue rd a.rn (singleAccess a s) s) := rfl

theorem exec_str (c : Cond) (rd : Reg) (a : Address) (s : State) :
    exec (.str c rd a) s =
      guarded c s (fun s => storeTransfer .word (reg s rd) a.rn (singleAccess a s) s) := rfl

theorem exec_strb (c : Cond) (rd : Reg) (a : Address) (s : State) :
    exec (.strb c rd a) s =
      guarded c s (fun s => storeTransfer .byte (reg s rd) a.rn (singleAccess a s) s) := rfl

theorem exec_ldm (c : Cond) (p u sBit w : Bool) (rn : Reg) (list : BitVec 16) (s : State) :
    exec (.ldm c p u sBit w rn list) s =
      guarded c s (fun s =>
          let base := reg s rn
          match readWords (wordAddresses (blockStart p u base list) (listed list).length) s with
          | (none, s1) => .next (raiseException .data s1)
          | (some vs, s1) => finishLoad sBit w rn list (blockWriteBack u base list) vs s1) := rfl

theorem exec_stm (c : Cond) (p u sBit w : Bool) (rn : Reg) (list : BitVec 16) (s : State) :
    exec (.stm c p u sBit w rn list) s =
      guarded c s (fun s =>
          let base := reg s rn
          let wbval := blockWriteBack u base list
          let addrs := wordAddresses (blockStart p u base list) (listed list).length
          match writeWords (addrs.zip (storedValues sBit w rn list wbval s)) s with
          | (s1, false) => .next (raiseException .data s1)
          | (s1, true) => blockBase w rn wbval s1) := rfl

theorem exec_b (c : Cond) (offset24 : BitVec 24) (s : State) :
    exec (.b c offset24) s =
      guarded c s (fun s => writePc (branchTarget offset24 s) s) := rfl

theorem exec_bl (c : Cond) (offset24 : BitVec 24) (s : State) :
    exec (.bl c offset24) s =
      guarded c s (fun s => thenDo (setReg 14#4 (s.pc - 4) s) (writePc (branchTarget offset24 s))) := rfl

theorem exec_ldc (c : Cond) (p u n w : Bool) (rn crd cpNum : BitVec 4) (offset8 : BitVec 8) (s : State) :
    exec (.ldc c p u n w rn crd cpNum offset8) s =
      guarded c s (fun s => .next (raiseException .undefined s)) := rfl

theorem exec_stc (c : Cond) (p u n w : Bool) (rn crd cpNum : BitVec 4) (offset8 : BitVec 8) (s : State) :
    exec (.stc c p u n w rn crd cpNum offset8) s =
      guarded c s (fun s => .next (raiseException .undefined s)) := rfl

theorem exec_swi (c : Cond) (comment : BitVec 24) (s : State) :
    exec (.swi c comment) s =
      guarded c s (fun s => .next (raiseException .software s)) := rfl

theorem exec_cdp (c : Cond) (opcode1 crn crd cpNum : BitVec 4) (opcode2 : BitVec 3) (crm : BitVec 4) (s : State) :
    exec (.cdp c opcode1 crn crd cpNum opcode2 crm) s =
      guarded c s (fun s => .next (raiseException .undefined s)) := rfl

theorem exec_mrc (c : Cond) (opcode1 : BitVec 3) (crn rd cpNum : BitVec 4) (opcode2 : BitVec 3) (crm : BitVec 4) (s : State) :
    exec (.mrc c opcode1 crn rd cpNum opcode2 crm) s =
      guarded c s (fun s => .next (raiseException .undefined s)) := rfl

theorem exec_mcr (c : Cond) (opcode1 : BitVec 3) (crn rd cpNum : BitVec 4) (opcode2 : BitVec 3) (crm : BitVec 4) (s : State) :
    exec (.mcr c opcode1 crn rd cpNum opcode2 crm) s =
      guarded c s (fun s => .next (raiseException .undefined s)) := rfl

end Sys2Proof.Machine
end

