-- ==== Sys2Proof/Laws/Flags.lean ====
section
/-!
SUPPORT. The results of the two arithmetic families as word arithmetic (spec 41_data_processing.md R181, R182).
-/

namespace Sys2Proof.Machine

theorem addWith_value (a b : Word) (cin : Bool) : (addWith a b cin).value = a + b + BitVec.ofNat 32 cin.toNat := by
  apply BitVec.eq_of_toNat_eq
  simp [addWith, BitVec.toNat_add]

theorem subWith_value (a b : Word) (cin : Bool) :
    (subWith a b cin).value = a - b - BitVec.ofNat 32 (1 - cin.toNat) := by
  have ha := a.isLt
  have hb := b.isLt
  apply BitVec.eq_of_toNat_eq
  cases cin <;> simp [subWith, BitVec.toNat_sub, BitVec.toNat_ofInt] <;> omega

end Sys2Proof.Machine
end

