-- ==== Sys2Proof/Laws/Invariant.lean ====
section
/-!
SUPPORT. What the updates of the shared operations keep, every instruction keeps: `exec_closed` is proved once, over
every arm, for every property that is closed under the updates.
-/

namespace Sys2Proof.Machine

/-- Sequencing: each part keeps what the next one needs. -/
theorem thenDo_keeps {P : State → Prop} {r : Result} {k : State → Result}
    (hr : ∀ u, r = .next u → P u) (hk : ∀ u v, P u → k u = .next v → P v) {t : State}
    (h : thenDo r k = .next t) : P t := by
  obtain ⟨u, hu, h⟩ := thenDo_eq_next.1 h
  exact hk u t (hr u hu) h

/-- A property of states that no update of an instruction breaks. -/
structure Closed (P : State → Prop) : Prop where
  gpr : ∀ (s : State) (p : Fin 30) (v : Word), P s → P (setGpr p v s)
  flags : ∀ (s : State) (fl : Flags), P s → P (setFlags fl s)
  pc : ∀ (s : State) (v : Word), fld 0 2 v = 0#2 → P s → P { s with pc := v, pcAltered := true }
  cpsr : ∀ (s : State) (w : Word) (m : Mode), P s → P { s with cpsr := psrOf w m }
  saved : ∀ (s : State) (w : Word), P s → P (setSpsr w s)
  draw : ∀ s : State, P s → P { s with draws := s.draws + 1 }
  read : ∀ (s t : State) (a : Word) (w : Width) (v : Option Word), memRead s a w = (v, t) → P s → P t
  write : ∀ (s t : State) (a v : Word) (w : Width) (ok : Bool), memWrite s a w v = (t, ok) → P s → P t
  raise : ∀ (s : State) (kind : Exception), kind ≠ .reset → P s → P (raiseException kind s)

namespace Closed

variable {P : State → Prop} {s t : State}

theorem flagsIf (c : Closed P) (h : P s) (sf : Bool) (fl : Flags) : P (setFlagsIf sf fl s) := by
  cases sf
  · exact h
  · exact c.flags s fl h

theorem readSpsr (c : Closed P) (h : P s) : P (readSpsr s).2 := by
  rcases readSpsr_state s with e | e <;> rw [e]
  · exact h
  · exact c.draw s h

theorem writePc (c : Closed P) {v : Word} (h : P s) (e : writePc v s = .next t) : P t := by
  obtain ⟨hv, rfl⟩ := writePc_eq_next.1 e
  exact c.pc s v hv h

theorem setReg (c : Closed P) {r : Reg} {v : Word} (h : P s) (e : setReg r v s = .next t) : P t := by
  rcases setReg_eq_next.1 e with ⟨-, hv, rfl⟩ | ⟨-, rfl⟩
  · exact c.pc s v hv h
  · exact c.gpr s _ v h

theorem loadCpsr (c : Closed P) {w : Word} (h : P s) (e : loadCpsr w s = .next t) : P t := by
  obtain ⟨-, m, -, rfl⟩ := loadCpsr_eq_next.1 e
  exact c.cpsr s w m h

theorem restoreCpsr (c : Closed P) (h : P s) (e : restoreCpsr s = .next t) : P t :=
  c.loadCpsr (c.readSpsr h) e

theorem guarded {d : Cond} {body : State → Result} (_c : Closed P) (h : P s)
    (e : guarded d s body = .next t) (hb : ∀ u, body s = .next u → P u) : P t := by
  rcases guarded_eq_next.1 e with ⟨-, e⟩ | ⟨-, rfl⟩
  · exact hb t e
  · exact h

theorem writeAlu {sf : Bool} {rd : Reg} {r : Alu} (c : Closed P) (h : P s)
    (e : writeAlu sf rd r s = .next t) : P t := by
  unfold Machine.writeAlu at e
  split at e
  · split at e
    · exact thenDo_keeps (fun u hu => c.restoreCpsr h hu) (fun u v hu hv => c.writePc hu hv) e
    · exact c.writePc h e
  · cases e; exact c.flagsIf (c.gpr _ _ _ h) _ _

theorem moveFromStatus {r : Bool} {rd : Reg} (c : Closed P) (h : P s)
    (e : moveFromStatus r rd s = .next t) : P t := by
  unfold Machine.moveFromStatus at e
  split at e
  · exact c.setReg (c.readSpsr h) e
  · exact c.setReg h e

theorem moveToStatus {r : Bool} {f : BitVec 4} {o : Word} (c : Closed P) (h : P s)
    (e : moveToStatus r f o s = .next t) : P t := by
  unfold Machine.moveToStatus at e
  split at e
  · split at e
    · cases e; exact c.saved _ _ h
    · cases e; exact h
  · exact c.loadCpsr h e

theorem writeShort {sf : Bool} {rd rs rm : Reg} {v : Word} (c : Closed P) (h : P s)
    (e : writeShort sf rd rs rm v s = .next t) : P t := by
  unfold Machine.writeShort at e
  dsimp only at e
  split at e
  · exact thenDo_keeps (fun u hu => c.setReg (c.draw _ h) hu) (fun u v hu hv => by cases hv; exact c.flags _ _ hu) e
  · exact c.setReg h e

theorem writeLong {sf : Bool} {rdHi rdLo rs rm : Reg} {v : BitVec 64} (c : Closed P) (h : P s)
    (e : writeLong sf rdHi rdLo rs rm v s = .next t) : P t := by
  unfold Machine.writeLong at e
  dsimp only at e
  split at e
  · refine thenDo_keeps (fun u hu => ?_) (fun u v hu hv => by cases hv; exact c.flags _ _ hu) e
    exact thenDo_keeps (fun u hu => c.setReg (c.draw _ h) hu) (fun u v hu hv => c.setReg hu hv) hu
  · exact thenDo_keeps (fun u hu => c.setReg h hu) (fun u v hu hv => c.setReg hu hv) e

theorem writeBack {rn : Reg} {x : Access} (c : Closed P) (h : P s) (e : writeBack rn x s = .next t) : P t := by
  unfold Machine.writeBack at e
  split at e
  · exact c.setReg h e
  · cases e; exact h

theorem loadTransfer {w} {f} {rd rn : Reg} {x : Access} (c : Closed P) (h : P s)
    (e : loadTransfer w f rd rn x s = .next t) : P t := by
  unfold Machine.loadTransfer at e
  split at e
  · rename_i hm
    cases e; exact c.raise _ .data (by decide) (c.read _ _ _ _ _ hm h)
  · rename_i hm
    exact thenDo_keeps (fun u hu => c.writeBack (c.read _ _ _ _ _ hm h) hu) (fun u v hu hv => c.setReg hu hv) e

theorem storeTransfer {w} {v : Word} {rn : Reg} {x : Access} (c : Closed P) (h : P s)
    (e : storeTransfer w v rn x s = .next t) : P t := by
  unfold Machine.storeTransfer at e
  split at e
  · rename_i hm
    cases e; exact c.raise _ .data (by decide) (c.write _ _ _ _ _ _ hm h)
  · rename_i hm
    exact c.writeBack (c.write _ _ _ _ _ _ hm h) e

theorem swapTransfer {w} {f} {rn rd rm : Reg} (c : Closed P) (h : P s)
    (e : swapTransfer w f rn rd rm s = .next t) : P t := by
  unfold Machine.swapTransfer at e
  dsimp only at e
  split at e
  · rename_i hm
    cases e; exact c.raise _ .data (by decide) (c.read _ _ _ _ _ hm h)
  · rename_i hm
    have h1 := c.read _ _ _ _ _ hm h
    split at e
    · rename_i hw
      cases e; exact c.raise _ .data (by decide) (c.write _ _ _ _ _ _ hw h1)
    · rename_i hw
      exact c.setReg (c.write _ _ _ _ _ _ hw h1) e

theorem readWords {l : List Word} (c : Closed P) (h : P s) : P (readWords l s).2 := by
  induction l generalizing s with
  | nil => exact h
  | cons a rest ih =>
    simp only [Machine.readWords]
    split
    · rename_i hm
      exact c.read _ _ _ _ _ hm h
    · rename_i s1 hm
      have hr := ih (c.read _ _ _ _ _ hm h)
      split <;> (rename_i e; rw [e] at hr; exact hr)

theorem writeWords {l : List (Word × Word)} (c : Closed P) (h : P s) : P (writeWords l s).1 := by
  induction l generalizing s with
  | nil => exact h
  | cons a rest ih =>
    obtain ⟨a, v⟩ := a
    simp only [Machine.writeWords]
    split <;> rename_i hm
    · exact c.write _ _ _ _ _ _ hm h
    · exact ih (c.write _ _ _ _ _ _ hm h)

theorem readWords_of {l : List Word} {o : Option (List Word)} (c : Closed P) (h : P s)
    (e : Machine.readWords l s = (o, t)) : P t := by
  have := c.readWords (l := l) h
  rw [e] at this
  exact this

theorem writeWords_of {l : List (Word × Word)} {b : Bool} (c : Closed P) (h : P s)
    (e : Machine.writeWords l s = (t, b)) : P t := by
  have := c.writeWords (l := l) h
  rw [e] at this
  exact this

theorem loadRegisters {m : Mode} {l : List (Reg × Word)} (c : Closed P) (h : P s) : P (loadRegisters m l s) := by
  induction l generalizing s with
  | nil => exact h
  | cons a rest ih =>
    obtain ⟨r, v⟩ := a
    simp only [Machine.loadRegisters]
    split
    · exact ih h
    · exact ih (c.gpr _ _ _ h)

theorem blockBase {w : Bool} {rn : Reg} {v : Word} (c : Closed P) (h : P s)
    (e : blockBase w rn v s = .next t) : P t := by
  unfold Machine.blockBase at e
  split at e
  · exact c.setReg h e
  · cases e; exact h

theorem finishLoad {sb w : Bool} {rn : Reg} {l} {v : Word} {vs} (c : Closed P) (h : P s)
    (e : finishLoad sb w rn l v vs s = .next t) : P t := by
  unfold Machine.finishLoad at e
  dsimp only at e
  refine thenDo_keeps (fun u hu => c.blockBase h hu) (fun u v hu hv => ?_) e
  split at hv
  · split at hv
    · exact thenDo_keeps (fun u' hu' => c.restoreCpsr (c.loadRegisters hu) hu')
        (fun u' v' hu' hv' => c.writePc hu' hv') hv
    · exact c.writePc (c.loadRegisters hu) hv
  · cases hv; exact c.loadRegisters hu

theorem sampleInterrupts (c : Closed P) (h : P s) : P (sampleInterrupts s) := by
  have hk (t : State) (ht : P t) (b : Bool) (k : Exception) (hne : k ≠ .reset) :
      P (if b then Machine.raiseException k t else t) := by
    cases b
    · exact ht
    · exact c.raise t k hne ht
  exact hk _ (hk s h _ _ (by decide)) _ _ (by decide)

end Closed

/-- Every instruction keeps a closed property. -/
theorem exec_closed {P : State → Prop} (c : Closed P) {i : Instr} {s t : State} (h : P s)
    (e : exec i s = .next t) : P t := by
  cases i
  case and => rw [exec_and] at e; exact c.guarded h e fun u hu => c.writeAlu h hu
  case eor => rw [exec_eor] at e; exact c.guarded h e fun u hu => c.writeAlu h hu
  case sub => rw [exec_sub] at e; exact c.guarded h e fun u hu => c.writeAlu h hu
  case rsb => rw [exec_rsb] at e; exact c.guarded h e fun u hu => c.writeAlu h hu
  case add => rw [exec_add] at e; exact c.guarded h e fun u hu => c.writeAlu h hu
  case adc => rw [exec_adc] at e; exact c.guarded h e fun u hu => c.writeAlu h hu
  case sbc => rw [exec_sbc] at e; exact c.guarded h e fun u hu => c.writeAlu h hu
  case rsc => rw [exec_rsc] at e; exact c.guarded h e fun u hu => c.writeAlu h hu
  case orr => rw [exec_orr] at e; exact c.guarded h e fun u hu => c.writeAlu h hu
  case mov => rw [exec_mov] at e; exact c.guarded h e fun u hu => c.writeAlu h hu
  case bic => rw [exec_bic] at e; exact c.guarded h e fun u hu => c.writeAlu h hu
  case mvn => rw [exec_mvn] at e; exact c.guarded h e fun u hu => c.writeAlu h hu
  case tst => rw [exec_tst] at e; exact c.guarded h e fun u hu => by cases hu; exact c.flags _ _ h
  case teq => rw [exec_teq] at e; exact c.guarded h e fun u hu => by cases hu; exact c.flags _ _ h
  case cmp => rw [exec_cmp] at e; exact c.guarded h e fun u hu => by cases hu; exact c.flags _ _ h
  case cmn => rw [exec_cmn] at e; exact c.guarded h e fun u hu => by cases hu; exact c.flags _ _ h
  case undefined => rw [exec_undefined] at e; exact c.guarded h e fun u hu => by cases hu; exact c.raise _ .undefined (by decide) h
  case swi => rw [exec_swi] at e; exact c.guarded h e fun u hu => by cases hu; exact c.raise _ .software (by decide) h
  case cdp => rw [exec_cdp] at e; exact c.guarded h e fun u hu => by cases hu; exact c.raise _ .undefined (by decide) h
  case ldc => rw [exec_ldc] at e; exact c.guarded h e fun u hu => by cases hu; exact c.raise _ .undefined (by decide) h
  case stc => rw [exec_stc] at e; exact c.guarded h e fun u hu => by cases hu; exact c.raise _ .undefined (by decide) h
  case mrc => rw [exec_mrc] at e; exact c.guarded h e fun u hu => by cases hu; exact c.raise _ .undefined (by decide) h
  case mcr => rw [exec_mcr] at e; exact c.guarded h e fun u hu => by cases hu; exact c.raise _ .undefined (by decide) h
  case halfwordL0Sh2 => rw [exec_halfwordL0Sh2] at e; exact c.guarded h e fun u hu => by cases hu; exact h
  case halfwordL0Sh3 => rw [exec_halfwordL0Sh3] at e; exact c.guarded h e fun u hu => by cases hu; exact h
  case mrs => rw [exec_mrs] at e; exact c.guarded h e fun u hu => c.moveFromStatus h hu
  case mrsI => rw [exec_mrsI] at e; exact c.guarded h e fun u hu => c.moveFromStatus h hu
  case msr => rw [exec_msr] at e; exact c.guarded h e fun u hu => c.moveToStatus h hu
  case msrI => rw [exec_msrI] at e; exact c.guarded h e fun u hu => c.moveToStatus h hu
  case mul => rw [exec_mul] at e; exact c.guarded h e fun u hu => c.writeShort h hu
  case mla => rw [exec_mla] at e; exact c.guarded h e fun u hu => c.writeShort h hu
  case umull => rw [exec_umull] at e; exact c.guarded h e fun u hu => c.writeLong h hu
  case umlal => rw [exec_umlal] at e; exact c.guarded h e fun u hu => c.writeLong h hu
  case smull => rw [exec_smull] at e; exact c.guarded h e fun u hu => c.writeLong h hu
  case smlal => rw [exec_smlal] at e; exact c.guarded h e fun u hu => c.writeLong h hu
  case ldr => rw [exec_ldr] at e; exact c.guarded h e fun u hu => c.loadTransfer h hu
  case ldrb => rw [exec_ldrb] at e; exact c.guarded h e fun u hu => c.loadTransfer h hu
  case ldrt => rw [exec_ldrt] at e; exact c.guarded h e fun u hu => c.loadTransfer h hu
  case ldrbt => rw [exec_ldrbt] at e; exact c.guarded h e fun u hu => c.loadTransfer h hu
  case ldrh => rw [exec_ldrh] at e; exact c.guarded h e fun u hu => c.loadTransfer h hu
  case ldrsb => rw [exec_ldrsb] at e; exact c.guarded h e fun u hu => c.loadTransfer h hu
  case ldrsh => rw [exec_ldrsh] at e; exact c.guarded h e fun u hu => c.loadTransfer h hu
  case str => rw [exec_str] at e; exact c.guarded h e fun u hu => c.storeTransfer h hu
  case strb => rw [exec_strb] at e; exact c.guarded h e fun u hu => c.storeTransfer h hu
  case strt => rw [exec_strt] at e; exact c.guarded h e fun u hu => c.storeTransfer h hu
  case strbt => rw [exec_strbt] at e; exact c.guarded h e fun u hu => c.storeTransfer h hu
  case strh => rw [exec_strh] at e; exact c.guarded h e fun u hu => c.storeTransfer h hu
  case swp => rw [exec_swp] at e; exact c.guarded h e fun u hu => c.swapTransfer h hu
  case swpb => rw [exec_swpb] at e; exact c.guarded h e fun u hu => c.swapTransfer h hu
  case b => rw [exec_b] at e; exact c.guarded h e fun u hu => c.writePc h hu
  case bl =>
    rw [exec_bl] at e
    exact c.guarded h e fun u hu => thenDo_keeps (fun u hu => c.setReg h hu) (fun u v hu hv => c.writePc hu hv) hu
  case bx =>
    rw [exec_bx] at e
    refine c.guarded h e fun u hu => ?_
    split at hu
    · cases hu
    · exact c.writePc h hu
  case ldm =>
    rw [exec_ldm] at e
    refine c.guarded h e fun u hu => ?_
    dsimp only at hu
    split at hu
    · rename_i s1 hm
      cases hu
      exact c.raise _ .data (by decide) (c.readWords_of h hm)
    · rename_i vs s1 hm
      exact c.finishLoad (c.readWords_of h hm) hu
  case stm =>
    rw [exec_stm] at e
    refine c.guarded h e fun u hu => ?_
    dsimp only at hu
    split at hu
    · rename_i s1 hm
      cases hu
      exact c.raise _ .data (by decide) (c.writeWords_of h hm)
    · rename_i s1 hm
      exact c.blockBase (c.writeWords_of h hm) hu

/-! ### The invariant inside a step -/

/-- `State.Core`, with no record waiting. -/
def Fit (s : State) : Prop := s.Core ∧ s.sched.again = []

/-- `Fit` reads six fields. -/
theorem Fit.of_eq {s t : State} (h : Fit s) (hpc : fld 0 2 t.pc = 0#2) (ht : t.cpsr.t = false)
    (hm : t.mem = s.mem) (hr : t.regions = s.regions) (hs : t.sched = s.sched) (hc : t.clockRate = s.clockRate) :
    Fit t := by
  obtain ⟨⟨-, -, h3, h4, h5, h6⟩, h7⟩ := h
  exact ⟨⟨hpc, ht, hc ▸ h3, hr ▸ h4, by rw [hm, hr]; exact h5, hs ▸ h6⟩, hs ▸ h7⟩

theorem Fit.pc {s : State} (h : Fit s) : fld 0 2 s.pc = 0#2 := h.1.1

theorem Fit.t {s : State} (h : Fit s) : s.cpsr.t = false := h.1.2.1

theorem Fit.setGpr {s : State} (h : Fit s) (p : Fin 30) (v : Word) : Fit (setGpr p v s) :=
  h.of_eq h.pc h.t rfl rfl rfl rfl

theorem Fit.setFlags {s : State} (h : Fit s) (fl : Flags) : Fit (setFlags fl s) :=
  h.of_eq h.pc h.t rfl rfl rfl rfl

theorem Fit.setSpsr {s : State} (h : Fit s) (w : Word) : Fit (setSpsr w s) := h.of_eq h.pc h.t rfl rfl rfl rfl

theorem Fit.draw {s : State} (h : Fit s) (n : Nat) : Fit { s with draws := n } := h.of_eq h.pc h.t rfl rfl rfl rfl

theorem Fit.raiseException {s : State} (h : Fit s) (kind : Exception) : Fit (raiseException kind s) :=
  h.of_eq (by rw [raiseException_pc]; cases kind <;> rfl) (by rw [raiseException_cpsr]; rfl)
    (by simp) (by simp) (by simp) (by simp)

theorem Fit.memRead {s t : State} {addr : Word} {w : Width} {v : Option Word} (h : Fit s) (e : memRead s addr w = (v, t)) :
    Fit t := by
  obtain ⟨⟨h1, h2, h3, h4, h5, h6⟩, h7⟩ := h
  have hs := memRead_sched e
  rw [memRead_frame e]
  exact ⟨⟨h1, h2, h3, h4, h5, hs.1 h6⟩, hs.2 h7⟩

theorem Fit.memWrite {s t : State} {addr v : Word} {w : Width} {ok : Bool} (h : Fit s) (e : memWrite s addr w v = (t, ok)) :
    Fit t := by
  obtain ⟨⟨h1, h2, h3, h4, h5, h6⟩, h7⟩ := h
  have hs := memWrite_sched e
  have hm := memoryInv_memWrite e h4.1 h5
  rw [memWrite_frame e] at hm ⊢
  exact ⟨⟨h1, h2, h3, h4, hm, hs.1 h6⟩, hs.2 h7⟩

/-- Every update keeps `Fit`. -/
theorem fit_closed : Closed Fit where
  gpr _ p v h := h.setGpr p v
  flags _ fl h := h.setFlags fl
  pc _ _ hv h := h.of_eq hv h.t rfl rfl rfl rfl
  cpsr _ _ _ h := h.of_eq h.pc rfl rfl rfl rfl rfl
  saved _ w h := h.setSpsr w
  draw _ h := h.draw _
  read _ _ _ _ _ e h := h.memRead e
  write _ _ _ _ _ _ e h := h.memWrite e
  raise _ kind _ h := h.raiseException kind

/-! ### Around an instruction -/

/-- A word whose low two bits are 0 is a multiple of 4. -/
theorem fld_low_two {a : Word} : fld 0 2 a = 0#2 ↔ a.toNat % 4 = 0 := by
  rw [fld, ← BitVec.toNat_inj]
  simp [BitVec.extractLsb'_toNat]

theorem aligned_add8 {a : Word} (h : fld 0 2 a = 0#2) : fld 0 2 (a + 8) = 0#2 := by
  rw [fld_low_two] at *
  rw [BitVec.toNat_add]; simp; omega

theorem aligned_sub4 {a : Word} (h : fld 0 2 a = 0#2) : fld 0 2 (a - 4) = 0#2 := by
  rw [fld_low_two] at *
  rw [BitVec.toNat_sub]; simp; omega

theorem Fit.enterExecute {s : State} (h : Fit s) : Fit (enterExecute s) :=
  h.of_eq (aligned_add8 h.pc) h.t rfl rfl rfl rfl

theorem Fit.finish {s : State} (h : Fit s) (c : Nat) : Fit (finish c s) :=
  h.of_eq (by rw [finish_pc]; split; exact h.pc; exact aligned_sub4 h.pc) h.t rfl rfl rfl rfl

end Sys2Proof.Machine
end

