-- ==== Sys2Proof/Laws/PerInstr.lean ====
section
/-!
SUPPORT. Families of statements made for every instruction, one lemma per constructor.
-/

namespace Sys2Proof.Laws.CondBits

/-- The condition stands in bits 31 to 28 of every instruction's word (R100, R101). -/
def Statement (i : Instr) : Prop := fld 28 4 (encode i) = i.cond.code

theorem bx (c : Cond) (rm : Reg) :
    Statement (.bx c rm) := fld_cond _ _

theorem swp (c : Cond) (rn rd rm : Reg) :
    Statement (.swp c rn rd rm) := fld_cond _ _

theorem swpb (c : Cond) (rn rd rm : Reg) :
    Statement (.swpb c rn rd rm) := fld_cond _ _

theorem mul (c : Cond) (sf : Bool) (rd rs rm : Reg) :
    Statement (.mul c sf rd rs rm) := fld_cond _ _

theorem mla (c : Cond) (sf : Bool) (rd rn rs rm : Reg) :
    Statement (.mla c sf rd rn rs rm) := fld_cond _ _

theorem umull (c : Cond) (sf : Bool) (rdHi rdLo rs rm : Reg) :
    Statement (.umull c sf rdHi rdLo rs rm) := fld_cond _ _

theorem umlal (c : Cond) (sf : Bool) (rdHi rdLo rs rm : Reg) :
    Statement (.umlal c sf rdHi rdLo rs rm) := fld_cond _ _

theorem smull (c : Cond) (sf : Bool) (rdHi rdLo rs rm : Reg) :
    Statement (.smull c sf rdHi rdLo rs rm) := fld_cond _ _

theorem smlal (c : Cond) (sf : Bool) (rdHi rdLo rs rm : Reg) :
    Statement (.smlal c sf rdHi rdLo rs rm) := fld_cond _ _

theorem ldrh (c : Cond) (rd : Reg) (a : HalfAddress) :
    Statement (.ldrh c rd a) := fld_cond _ _

theorem strh (c : Cond) (rd : Reg) (a : HalfAddress) :
    Statement (.strh c rd a) := fld_cond _ _

theorem ldrsb (c : Cond) (rd : Reg) (a : HalfAddress) :
    Statement (.ldrsb c rd a) := fld_cond _ _

theorem ldrsh (c : Cond) (rd : Reg) (a : HalfAddress) :
    Statement (.ldrsh c rd a) := fld_cond _ _

theorem halfwordL0Sh2 (c : Cond) (rd : Reg) (a : HalfAddress) :
    Statement (.halfwordL0Sh2 c rd a) := fld_cond _ _

theorem halfwordL0Sh3 (c : Cond) (rd : Reg) (a : HalfAddress) :
    Statement (.halfwordL0Sh3 c rd a) := fld_cond _ _

theorem mrs (c : Cond) (r : Bool) (rd : Reg) :
    Statement (.mrs c r rd) := fld_cond _ _

theorem msr (c : Cond) (r : Bool) (fields : BitVec 4) (rm : Reg) :
    Statement (.msr c r fields rm) := fld_cond _ _

theorem mrsI (c : Cond) (r : Bool) (rd : Reg) :
    Statement (.mrsI c r rd) := fld_cond _ _

theorem msrI (c : Cond) (r : Bool) (fields : BitVec 4) (rot : BitVec 4) (imm8 : BitVec 8) :
    Statement (.msrI c r fields rot imm8) := fld_cond _ _

theorem and (c : Cond) (sf : Bool) (rd rn : Reg) (op2 : Operand2) :
    Statement (.and c sf rd rn op2) := fld_cond _ _

theorem eor (c : Cond) (sf : Bool) (rd rn : Reg) (op2 : Operand2) :
    Statement (.eor c sf rd rn op2) := fld_cond _ _

theorem sub (c : Cond) (sf : Bool) (rd rn : Reg) (op2 : Operand2) :
    Statement (.sub c sf rd rn op2) := fld_cond _ _

theorem rsb (c : Cond) (sf : Bool) (rd rn : Reg) (op2 : Operand2) :
    Statement (.rsb c sf rd rn op2) := fld_cond _ _

theorem add (c : Cond) (sf : Bool) (rd rn : Reg) (op2 : Operand2) :
    Statement (.add c sf rd rn op2) := fld_cond _ _

theorem adc (c : Cond) (sf : Bool) (rd rn : Reg) (op2 : Operand2) :
    Statement (.adc c sf rd rn op2) := fld_cond _ _

theorem sbc (c : Cond) (sf : Bool) (rd rn : Reg) (op2 : Operand2) :
    Statement (.sbc c sf rd rn op2) := fld_cond _ _

theorem rsc (c : Cond) (sf : Bool) (rd rn : Reg) (op2 : Operand2) :
    Statement (.rsc c sf rd rn op2) := fld_cond _ _

theorem tst (c : Cond) (rn : Reg) (op2 : Operand2) :
    Statement (.tst c rn op2) := fld_cond _ _

theorem teq (c : Cond) (rn : Reg) (op2 : Operand2) :
    Statement (.teq c rn op2) := fld_cond _ _

theorem cmp (c : Cond) (rn : Reg) (op2 : Operand2) :
    Statement (.cmp c rn op2) := fld_cond _ _

theorem cmn (c : Cond) (rn : Reg) (op2 : Operand2) :
    Statement (.cmn c rn op2) := fld_cond _ _

theorem orr (c : Cond) (sf : Bool) (rd rn : Reg) (op2 : Operand2) :
    Statement (.orr c sf rd rn op2) := fld_cond _ _

theorem mov (c : Cond) (sf : Bool) (rd : Reg) (op2 : Operand2) :
    Statement (.mov c sf rd op2) := fld_cond _ _

theorem bic (c : Cond) (sf : Bool) (rd rn : Reg) (op2 : Operand2) :
    Statement (.bic c sf rd rn op2) := fld_cond _ _

theorem mvn (c : Cond) (sf : Bool) (rd : Reg) (op2 : Operand2) :
    Statement (.mvn c sf rd op2) := fld_cond _ _

theorem undefined (c : Cond) (hi : BitVec 20) (lo : BitVec 4) :
    Statement (.undefined c hi lo) := fld_cond _ _

theorem ldrt (c : Cond) (rd : Reg) (u : Bool) (rn : Reg) (off : Offset) :
    Statement (.ldrt c rd u rn off) := fld_cond _ _

theorem ldrbt (c : Cond) (rd : Reg) (u : Bool) (rn : Reg) (off : Offset) :
    Statement (.ldrbt c rd u rn off) := fld_cond _ _

theorem strt (c : Cond) (rd : Reg) (u : Bool) (rn : Reg) (off : Offset) :
    Statement (.strt c rd u rn off) := fld_cond _ _

theorem strbt (c : Cond) (rd : Reg) (u : Bool) (rn : Reg) (off : Offset) :
    Statement (.strbt c rd u rn off) := fld_cond _ _

theorem ldr (c : Cond) (rd : Reg) (a : Address) :
    Statement (.ldr c rd a) := fld_cond _ _

theorem ldrb (c : Cond) (rd : Reg) (a : Address) :
    Statement (.ldrb c rd a) := fld_cond _ _

theorem str (c : Cond) (rd : Reg) (a : Address) :
    Statement (.str c rd a) := fld_cond _ _

theorem strb (c : Cond) (rd : Reg) (a : Address) :
    Statement (.strb c rd a) := fld_cond _ _

theorem ldm (c : Cond) (p u sBit w : Bool) (rn : Reg) (list : BitVec 16) :
    Statement (.ldm c p u sBit w rn list) := fld_cond _ _

theorem stm (c : Cond) (p u sBit w : Bool) (rn : Reg) (list : BitVec 16) :
    Statement (.stm c p u sBit w rn list) := fld_cond _ _

theorem b (c : Cond) (offset24 : BitVec 24) :
    Statement (.b c offset24) := fld_cond _ _

theorem bl (c : Cond) (offset24 : BitVec 24) :
    Statement (.bl c offset24) := fld_cond _ _

theorem ldc (c : Cond) (p u n w : Bool) (rn crd cpNum : BitVec 4) (offset8 : BitVec 8) :
    Statement (.ldc c p u n w rn crd cpNum offset8) := fld_cond _ _

theorem stc (c : Cond) (p u n w : Bool) (rn crd cpNum : BitVec 4) (offset8 : BitVec 8) :
    Statement (.stc c p u n w rn crd cpNum offset8) := fld_cond _ _

theorem swi (c : Cond) (comment : BitVec 24) :
    Statement (.swi c comment) := fld_cond _ _

theorem cdp (c : Cond) (opcode1 crn crd cpNum : BitVec 4) (opcode2 : BitVec 3) (crm : BitVec 4) :
    Statement (.cdp c opcode1 crn crd cpNum opcode2 crm) := fld_cond _ _

theorem mrc (c : Cond) (opcode1 : BitVec 3) (crn rd cpNum : BitVec 4) (opcode2 : BitVec 3) (crm : BitVec 4) :
    Statement (.mrc c opcode1 crn rd cpNum opcode2 crm) := fld_cond _ _

theorem mcr (c : Cond) (opcode1 : BitVec 3) (crn rd cpNum : BitVec 4) (opcode2 : BitVec 3) (crm : BitVec 4) :
    Statement (.mcr c opcode1 crn rd cpNum opcode2 crm) := fld_cond _ _

end Sys2Proof.Laws.CondBits
end

