-- ==== Sys2Proof/Laws/Regions.lean ====
section
/-!
SUPPORT. Mapping, unmapping and loading (spec 20_memory.md R66 to R69): the Regions stay well formed, memory keeps its canonical
form and lists bytes of mapped buffers only, and the other fields of State are untouched.
-/

namespace Sys2Proof.Machine

theorem intersects_comm (r q : Region) : intersects r q = intersects q r := by
  simp [intersects, Bool.and_comm]

/-- Two Regions that hold one address intersect. -/
theorem intersects_of_holds {r q : Region} {a : Nat} (hr : regionHolds r a = true) (hq : regionHolds q a = true) :
    intersects r q = true := by
  simp only [regionHolds, intersects, Bool.and_eq_true, decide_eq_true_eq] at *
  omega

/-- A refused request changes nothing; an accepted one appends the Region (R68). -/
theorem mapRegion_cases (r : Region) (images : List Image) (s : State) :
    mapRegion r images s = (false, s) ∨
    (goodGeometry r = true ∧ imagesFit r images = true ∧ (∀ q ∈ s.regions, intersects r q = false) ∧
      mapRegion r images s = (true, { s with
        regions := s.regions ++ [r]
        mem := if buffered r.kind then placeImages r images s.mem else s.mem })) := by
  unfold mapRegion
  split
  · exact .inl rfl
  · rename_i h
    split
    · exact .inl rfl
    · rename_i h2
      simp only [Bool.not_eq_true, Bool.not_eq_false', Bool.and_eq_true, List.any_eq_false] at h h2
      exact .inr ⟨h.1, h.2, fun q hq => by simpa using h2 q hq, rfl⟩

theorem regionsInv_mapRegion (r : Region) (images : List Image) {s : State} (h : regionsInv s.regions) :
    regionsInv (mapRegion r images s).2.regions := by
  rcases mapRegion_cases r images s with e | ⟨hg, -, hd, e⟩ <;> rw [e]
  · exact h
  · refine ⟨fun q hq => ?_, List.pairwise_append.2 ⟨h.2, by simp, fun q hq p hp => ?_⟩⟩
    · rcases List.mem_append.1 hq with hq | hq
      · exact h.1 q hq
      · rw [List.mem_singleton.1 hq]; exact hg
    · rw [List.mem_singleton.1 hp, intersects_comm]; exact hd q hq

theorem memoryInv_mapRegion (r : Region) (images : List Image) {s : State} (h : memoryInv s.mem s.regions) :
    memoryInv (mapRegion r images s).2.mem (mapRegion r images s).2.regions := by
  rcases mapRegion_cases r images s with e | ⟨hg, hf, hd, e⟩ <;> rw [e]
  · exact h
  · have old (c : Host.Cell) (hc : c ∈ s.mem) :
        ∃ q, regionAt (s.regions ++ [r]) c.1 = some q ∧ buffered q.kind = true := by
      obtain ⟨q, hq, hb⟩ := h.2 c hc
      refine ⟨q, ?_, hb⟩
      rw [regionAt] at hq ⊢
      rw [List.find?_append, hq]; rfl
    by_cases hk : buffered r.kind = true
    · simp only [hk, if_true]
      refine ⟨wf_placeImages r images h.1, fun c hc => ?_⟩
      rcases mem_placeImages hf hc with hc | hc
      · exact old c hc
      · have hr : regionHolds r c.1 = true := by simpa [regionHolds] using hc
        refine ⟨r, ?_, hk⟩
        have hn : s.regions.find? (fun q => regionHolds q c.1) = none := by
          rw [List.find?_eq_none]
          intro q hq hqa
          have := intersects_of_holds hr hqa
          rw [hd q hq] at this
          cases this
        rw [regionAt, List.find?_append, hn]
        simp [hr]
    · simp only [hk]
      exact ⟨h.1, old⟩

theorem find?_erase {α : Type} [DecidableEq α] {p : α → Bool} {r : α} (h : p r = false) (l : List α) :
    (l.erase r).find? p = l.find? p := by
  induction l with
  | nil => rfl
  | cons q rest ih =>
    by_cases hq : q = r
    · subst hq; simp [h]
    · rw [List.erase_cons_tail (by simpa using hq)]
      simp only [List.find?_cons, ih]

theorem regionsInv_unmapRegion (r : Region) {s : State} (h : regionsInv s.regions) :
    regionsInv (unmapRegion r s).2.regions := by
  unfold unmapRegion
  split
  · exact ⟨fun q hq => h.1 q (List.mem_of_mem_erase hq), h.2.sublist List.erase_sublist⟩
  · exact h

theorem memoryInv_unmapRegion (r : Region) {s : State} (h : memoryInv s.mem s.regions) :
    memoryInv (unmapRegion r s).2.mem (unmapRegion r s).2.regions := by
  unfold unmapRegion
  split
  · refine ⟨wf_clearExtent h.1 _ _, fun c hc => ?_⟩
    obtain ⟨hc, ho⟩ := List.mem_filter.1 hc
    obtain ⟨q, hq, hb⟩ := h.2 c hc
    refine ⟨q, ?_, hb⟩
    have hn : regionHolds r c.1 = false := by
      simp at ho
      simp [regionHolds]
      omega
    exact (find?_erase (p := fun q => regionHolds q c.1) hn s.regions).trans hq
  · exact h

/-- In disjoint Regions, a mapped Region answers for its addresses (R64, R72). -/
theorem regionAt_of_mem {regions : List Region} (h : regionsInv regions) {r : Region} {a : Nat} (hr : r ∈ regions)
    (ha : regionHolds r a = true) : regionAt regions a = some r := by
  replace h := h.2
  unfold regionAt
  induction regions with
  | nil => cases hr
  | cons q rest ih =>
    rw [List.pairwise_cons] at h
    rw [List.find?_cons]
    cases hq : regionHolds q a with
    | false =>
      rcases List.mem_cons.1 hr with rfl | hr
      · rw [hq] at ha; cases ha
      · exact ih hr h.2
    | true =>
      rcases List.mem_cons.1 hr with rfl | hr
      · rfl
      · have := h.1 r hr
        rw [intersects_of_holds hq ha] at this
        cases this

/-- A load changes nothing, or the memory of a mapped buffer (R66). -/
theorem loadImages_cases (r : Region) (images : List Image) (s : State) :
    loadImages r images s = s ∨
    (r ∈ s.regions ∧ buffered r.kind = true ∧ imagesFit r images = true ∧
      loadImages r images s = { s with mem := placeImages r images s.mem }) := by
  unfold loadImages
  split
  · rename_i h
    simp only [Bool.and_eq_true, List.contains_iff_mem] at h
    exact .inr ⟨h.1.1, h.1.2, h.2, rfl⟩
  · exact .inl rfl

theorem memoryInv_loadImages (r : Region) (images : List Image) {s : State} (hr : regionsInv s.regions)
    (h : memoryInv s.mem s.regions) :
    memoryInv (loadImages r images s).mem (loadImages r images s).regions := by
  rcases loadImages_cases r images s with e | ⟨hm, hk, hf, e⟩ <;> rw [e]
  · exact h
  · refine ⟨wf_placeImages r images h.1, fun c hc => ?_⟩
    rcases mem_placeImages hf hc with hc | hc
    · exact h.2 c hc
    · exact ⟨r, regionAt_of_mem hr hm hc, hk⟩

theorem loadImages_frame (r : Region) (images : List Image) (s : State) :
    loadImages r images s = { s with mem := (loadImages r images s).mem } := by
  rcases loadImages_cases r images s with e | ⟨-, -, -, e⟩ <;> rw [e]

/-- Mapping and unmapping change the Regions and memory, and nothing else. -/
theorem mapRegion_frame (r : Region) (images : List Image) (s : State) :
    (mapRegion r images s).2 =
      { s with mem := (mapRegion r images s).2.mem, regions := (mapRegion r images s).2.regions } := by
  rcases mapRegion_cases r images s with e | ⟨-, -, -, e⟩ <;> rw [e]

theorem unmapRegion_frame (r : Region) (s : State) :
    (unmapRegion r s).2 =
      { s with mem := (unmapRegion r s).2.mem, regions := (unmapRegion r s).2.regions } := by
  unfold unmapRegion; split <;> rfl

/-- An action of the building changes the Regions and memory, and nothing else. -/
theorem buildAct_frame (act : BuildAction) (s : State) :
    buildAct act s = { s with mem := (buildAct act s).mem, regions := (buildAct act s).regions } := by
  cases act with
  | map r images => exact mapRegion_frame r images s
  | unmap r => exact unmapRegion_frame r s
  | load r images =>
    rcases loadImages_cases r images s with e | ⟨-, -, -, e⟩ <;> simp only [buildAct] <;> rw [e]

/-- It keeps the invariants of the Regions and of memory. -/
theorem buildAct_keeps (act : BuildAction) {s : State} (hr : regionsInv s.regions) (hm : memoryInv s.mem s.regions) :
    regionsInv (buildAct act s).regions ∧ memoryInv (buildAct act s).mem (buildAct act s).regions := by
  cases act with
  | map r images => exact ⟨regionsInv_mapRegion r images hr, memoryInv_mapRegion r images hm⟩
  | unmap r => exact ⟨regionsInv_unmapRegion r hr, memoryInv_unmapRegion r hm⟩
  | load r images =>
    refine ⟨?_, memoryInv_loadImages r images hr hm⟩
    rw [buildAct, loadImages_frame]
    exact hr

/-- The reset memory has the canonical form. -/
theorem wf_reset : Memory.wf State.reset.mem = true := rfl

/-- The unspecified memory of a halted machine has the canonical form. -/
theorem wf_haltState (kind : Fatal) (left : Outside) {s : State} (h : Memory.wf s.mem = true) :
    Memory.wf (haltState kind left s).mem = true := by
  simp only [haltState, haltedMemory]
  generalize Config.haltedBytes left.draws = cells
  suffices hm : ∀ m, Memory.wf m = true → Memory.wf (cells.foldl (fun m c =>
      match regionAt s.regions c.1 with
      | some r => if buffered r.kind then writeByte m c.1 c.2 else m
      | none => m) m) = true from hm _ h
  induction cells with
  | nil => exact fun m hm => hm
  | cons c rest ih =>
    intro m hm
    refine ih _ ?_
    dsimp only
    split
    · split
      · exact wf_writeByte hm _ _
      · exact hm
    · exact hm

end Sys2Proof.Machine
end

