-- ==== Sys2Proof/Tests/Slice0.lean ====
section
/-!
SUPPORT. Tests and witnesses. Every expected value comes from the spec: the encodings from the examples of the rules
and of 95_test_vectors.md, the results from the vectors named in the docstrings (T2, E1 to V10). `test_wf_…` is the
smoke test of WellFormed, `test_decode_…` and `test_encode_…` show each constructor's word, `test_…` runs one step,
and `witness_…` shows a state and operands that meet the hypotheses of the statement it is named after.
-/

namespace Sys2Proof.Tests

open Sys2Proof.Machine

-- One theorem after another: each of them waits for the kernel, and many at once would need a thread each.
set_option Elab.async false

/-! ### WellFormed: each check has a term that it refuses -/

theorem test_wf_ldr : wellFormed (.ldr .al 0 ⟨false, true, true, 1, .imm 4⟩) = false := by decide
theorem test_wf_ldrb : wellFormed (.ldrb .al 0 ⟨false, true, true, 1, .imm 4⟩) = false := by decide
theorem test_wf_str : wellFormed (.str .al 0 ⟨false, false, true, 1, .reg 2 .lsl 0⟩) = false := by decide
theorem test_wf_strb : wellFormed (.strb .al 0 ⟨false, false, true, 1, .reg 2 .lsl 0⟩) = false := by decide
theorem test_wf_accepts : wellFormed (.ldr .al 0 ⟨false, true, false, 1, .imm 4⟩) = true ∧
    wellFormed (.strb .al 0 ⟨true, true, true, 1, .imm 4⟩) = true := by decide

/-! ### Decoding: one word of the spec for every constructor -/

theorem test_decode_branch :
    decodeWord 0xE12FFF1E = .bx .al 14 ∧ decodeWord 0x0A000002 = .b .eq 2 ∧ decodeWord 0xEAFFFFFE = .b .al 0xFFFFFE ∧
    decodeWord 0xEB00003E = .bl .al 0x3E := by decide

theorem test_decode_swap :
    decodeWord 0xE1020091 = .swp .al 2 0 1 ∧ decodeWord 0xE1420091 = .swpb .al 2 0 1 := by decide

theorem test_decode_multiply :
    decodeWord 0xE0000291 = .mul .al false 0 2 1 ∧ decodeWord 0xE0100291 = .mul .al true 0 2 1 ∧
    decodeWord 0xE0203291 = .mla .al false 0 3 2 1 ∧ decodeWord 0xE0810392 = .umull .al false 1 0 3 2 ∧
    decodeWord 0xE0A10392 = .umlal .al false 1 0 3 2 ∧ decodeWord 0xE0C10392 = .smull .al false 1 0 3 2 ∧
    decodeWord 0xE0E10392 = .smlal .al false 1 0 3 2 := by decide

theorem test_decode_halfword :
    decodeWord 0xE1D100B2 = .ldrh .al 0 ⟨true, true, false, 1, .imm 2⟩ ∧
    decodeWord 0xE19100B2 = .ldrh .al 0 ⟨true, true, false, 1, .reg 2⟩ ∧
    decodeWord 0xE0C100B2 = .strh .al 0 ⟨false, true, false, 1, .imm 2⟩ ∧
    decodeWord 0xE1D100D0 = .ldrsb .al 0 ⟨true, true, false, 1, .imm 0⟩ ∧
    decodeWord 0xE17100F2 = .ldrsh .al 0 ⟨true, false, true, 1, .imm 2⟩ ∧
    decodeWord 0xE1C100D0 = .halfwordL0Sh2 .al 0 ⟨true, true, false, 1, .imm 0⟩ ∧
    decodeWord 0xE1C100F0 = .halfwordL0Sh3 .al 0 ⟨true, true, false, 1, .imm 0⟩ := by decide

theorem test_decode_status :
    decodeWord 0xE10F0000 = .mrs .al false 0 ∧ decodeWord 0xE14F1000 = .mrs .al true 1 ∧
    decodeWord 0xE129F000 = .msr .al false 9 0 ∧ decodeWord 0xE169F008 = .msr .al true 9 8 ∧
    decodeWord 0xE3000000 = .mrsI .al false 0 ∧ decodeWord 0xE328F20F = .msrI .al false 8 2 0x0F ∧
    decodeWord 0xE1000000 = .mrs .al false 0 ∧ decodeWord 0xE3200000 = .msrI .al false 0 0 0 := by decide

theorem test_decode_data_logical :
    decodeWord 0xE0010002 = .and .al false 0 1 (.shiftImm 2 .lsl 0) ∧
    decodeWord 0xE0233204 = .eor .al false 3 3 (.shiftImm 4 .lsl 4) ∧
    decodeWord 0xE3100102 = .tst .al 0 (.imm 1 2) ∧ decodeWord 0xE1300001 = .teq .al 0 (.shiftImm 1 .lsl 0) ∧
    decodeWord 0xE1800231 = .orr .al false 0 0 (.shiftReg 1 .lsr 2) ∧
    decodeWord 0xE1B00061 = .mov .al true 0 (.shiftImm 1 .ror 0) ∧
    decodeWord 0xE3C0001F = .bic .al false 0 0 (.imm 0 0x1F) ∧ decodeWord 0xE3E00000 = .mvn .al false 0 (.imm 0 0) := by
  decide

theorem test_decode_data_arithmetic :
    decodeWord 0xE2500001 = .sub .al true 0 0 (.imm 0 1) ∧ decodeWord 0xE2710000 = .rsb .al true 0 1 (.imm 0 0) ∧
    decodeWord 0xE0902001 = .add .al true 2 0 (.shiftImm 1 .lsl 0) ∧
    decodeWord 0xE0B11003 = .adc .al true 1 1 (.shiftImm 3 .lsl 0) ∧
    decodeWord 0xE0D11003 = .sbc .al true 1 1 (.shiftImm 3 .lsl 0) ∧
    decodeWord 0xE2E11000 = .rsc .al false 1 1 (.imm 0 0) ∧ decodeWord 0xE3500005 = .cmp .al 0 (.imm 0 5) ∧
    decodeWord 0xE3700001 = .cmn .al 0 (.imm 0 1) := by decide

theorem test_decode_single :
    decodeWord 0xE5910004 = .ldr .al 0 ⟨true, true, false, 1, .imm 4⟩ ∧
    decodeWord 0xE7910102 = .ldr .al 0 ⟨true, true, false, 1, .reg 2 .lsl 2⟩ ∧
    decodeWord 0xE5D10001 = .ldrb .al 0 ⟨true, true, false, 1, .imm 1⟩ ∧
    decodeWord 0xE5A10004 = .str .al 0 ⟨true, true, true, 1, .imm 4⟩ ∧
    decodeWord 0xE5C10003 = .strb .al 0 ⟨true, true, false, 1, .imm 3⟩ ∧
    decodeWord 0xE4B10004 = .ldrt .al 0 true 1 (.imm 4) ∧ decodeWord 0xE4F10001 = .ldrbt .al 0 true 1 (.imm 1) ∧
    decodeWord 0xE4A10004 = .strt .al 0 true 1 (.imm 4) ∧ decodeWord 0xE4E10001 = .strbt .al 0 true 1 (.imm 1) := by
  decide

theorem test_decode_block :
    decodeWord 0xE8BD8010 = .ldm .al false true false true 13 0x8010 ∧
    decodeWord 0xE8D06000 = .ldm .al false true true false 0 0x6000 ∧
    decodeWord 0xE92D4010 = .stm .al true false false true 13 0x4010 := by decide

theorem test_decode_trap :
    decodeWord 0xEF123456 = .swi .al 0x123456 ∧ decodeWord 0xE7F000F0 = .undefined .al 0xF8007 0 ∧
    decodeWord 0x1E000F00 = .cdp .ne 0 0 0 15 0 0 ∧ decodeWord 0xED900100 = .ldc .al true true false false 0 0 1 0 ∧
    decodeWord 0xED800100 = .stc .al true true false false 0 0 1 0 ∧
    decodeWord 0xEE100F10 = .mrc .al 0 0 0 15 0 0 ∧ decodeWord 0xEE010F10 = .mcr .al 0 1 0 15 0 0 := by decide

theorem test_encode_words :
    encode (.mul .al true 0 2 1) = 0xE0100291 ∧ encode (.smlal .al false 1 0 3 2) = 0xE0E10392 ∧
    encode (.mov .al true 0 (.shiftImm 1 .ror 0)) = 0xE1B00061 ∧ encode (.bx .al 14) = 0xE12FFF1E ∧
    encode (.ldrsh .al 0 ⟨true, false, true, 1, .imm 2⟩) = 0xE17100F2 ∧
    encode (.ldm .al false true true true 13 0x8001) = 0xE8FD8001 ∧ encode (.b .eq 2) = 0x0A000002 ∧
    encode (.mrs .al true 1) = 0xE14F1000 ∧ encode (.msr .al true 9 8) = 0xE169F008 ∧
    encode (.mcr .al 0 1 0 15 0 0) = 0xEE010F10 := by decide

theorem test_table_word : decodeTableWord 32 0xE0010002 = some (.and .al false 0 1 (.shiftImm 2 .lsl 0)) := by decide

/-! ### One step -/

/-- The map of the vectors: writable buffers `[0, 0x1000)` and `[0x40000, 0x41000)`. -/
def platform : List Region := [⟨0, 0x1000, .ram⟩, ⟨0x40000, 0x1000, .ram⟩]

/-- The machine of the vectors: A = 0x100, a status word of a mode, registers of that mode, words of memory. -/
def machine (status : Word) (m : Mode) (regs : List (Reg × Word)) (words : List (Nat × Word)) : State :=
  regs.foldl (fun s p => setGpr (phys m p.1) p.2 s)
    { State.powerOn with
      pc := 0x100
      cpsr := psrOf status m
      regions := platform
      mem := words.foldl (fun mem p => writeDatum mem p.1 .word p.2) [] }

/-- The machine of most vectors: Supervisor mode, every flag 0. -/
def sup (regs : List (Reg × Word)) (words : List (Nat × Word)) : State := machine 0x13 .supervisor regs words

/-- The same with the carry flag set. -/
def supC (regs : List (Reg × Word)) : State := machine 0x20000013 .supervisor regs []

/-- A step that ends in a state with a property. -/
def ends (r : Result) (p : State → Bool) : Bool :=
  match r with
  | .next t => p t
  | .fault _ | .refused _ => false

/-- A step that ends in a fatal error. -/
def dies (r : Result) (kind : Fatal) : Bool :=
  match r with
  | .fault (.fatal k _) => k == kind
  | .fault (.halted _) | .next _ | .refused _ => false

/-- The word of memory at an address. -/
def wordAt (t : State) (a : Nat) : Word := readDatum t.mem a .word

/-- The flags, as `N Z C V`. -/
def nzcv (t : State) : List Bool := [t.cpsr.n, t.cpsr.z, t.cpsr.c, t.cpsr.v]

/-- E1, E2: `BEQ +8`. -/
theorem test_condition :
    ends (runWord 0x0A000002 (sup [] [])) (fun t => t.pc == 0x104 && t.cycles == 1) = true ∧
    ends (runWord 0x0A000002 (machine 0x40000013 .supervisor [] [])) (fun t => t.pc == 0x110 && t.cycles == 3) = true := by
  decide +kernel

/-- E3: `MOV R0, PC`; E10: a write of the value that R15 holds is a PC write. -/
theorem test_mov_pc :
    ends (runWord 0xE1A0000F (sup [] [])) (fun t => reg t 0 == 0x108 && t.pc == 0x104) = true ∧
    ends (runWord 0xE1A0F000 (sup [(0, 0x108)] [])) (fun t => t.pc == 0x108) = true := by decide +kernel

/-- A1, A4, A6, A8, A9, A10: `MOVS R0, R1` shifted by an immediate. -/
theorem test_shift_immediate :
    ends (runWord 0xE1B00001 (supC [(1, 0x80000000)])) (fun t => reg t 0 == 0x80000000 && nzcv t == [true, false, true, false]) = true ∧
    ends (runWord 0xE1B00021 (sup [(1, 0x80000000)] [])) (fun t => reg t 0 == 0 && nzcv t == [false, true, true, false]) = true ∧
    ends (runWord 0xE1B00041 (sup [(1, 0x80000000)] [])) (fun t => reg t 0 == 0xFFFFFFFF && nzcv t == [true, false, true, false]) = true ∧
    ends (runWord 0xE1B00241 (sup [(1, 0x80000008)] [])) (fun t => reg t 0 == 0xF8000000 && nzcv t == [true, false, true, false]) = true ∧
    ends (runWord 0xE1B00261 (sup [(1, 0xF)] [])) (fun t => reg t 0 == 0xF0000000 && nzcv t == [true, false, true, false]) = true ∧
    ends (runWord 0xE1B00061 (supC [(1, 3)])) (fun t => reg t 0 == 0x80000001 && nzcv t == [true, false, true, false]) = true := by
  decide +kernel

/-- A12 to A20: `MOVS R0, R1` shifted by a register. -/
theorem test_shift_register :
    ends (runWord 0xE1B00211 (sup [(1, 1), (2, 32)] [])) (fun t => reg t 0 == 0 && nzcv t == [false, true, true, false]) = true ∧
    ends (runWord 0xE1B00211 (supC [(1, 1), (2, 33)])) (fun t => reg t 0 == 0 && nzcv t == [false, true, false, false]) = true ∧
    ends (runWord 0xE1B00211 (supC [(1, 0xFFFFFFFF), (2, 0x100)])) (fun t => reg t 0 == 0xFFFFFFFF && nzcv t == [true, false, true, false]) = true ∧
    ends (runWord 0xE1B00251 (sup [(1, 0x80000000), (2, 200)] [])) (fun t => reg t 0 == 0xFFFFFFFF && nzcv t == [true, false, true, false]) = true ∧
    ends (runWord 0xE1B00271 (sup [(1, 0x80000001), (2, 32)] [])) (fun t => reg t 0 == 0x80000001 && nzcv t == [true, false, true, false]) = true ∧
    ends (runWord 0xE1B00271 (sup [(1, 1), (2, 33)] [])) (fun t => reg t 0 == 0x80000000 && nzcv t == [true, false, true, false]) = true := by
  decide +kernel

/-- A21, A22: the carry-out of an immediate. -/
theorem test_immediate :
    ends (runWord 0xE3B004FF (sup [] [])) (fun t => reg t 0 == 0xFF000000 && nzcv t == [true, false, true, false]) = true ∧
    ends (runWord 0xE3B000FF (supC [])) (fun t => reg t 0 == 0xFF && nzcv t == [false, false, true, false]) = true := by
  decide +kernel

/-- B1, B2, B25. -/
theorem test_and_eor_bic :
    ends (runWord 0xE0010002 (sup [(1, 0xF0F0F0F0), (2, 0x0FF00FF0)] [])) (fun t => reg t 0 == 0x00F000F0 && nzcv t == nzcv (sup [] [])) = true ∧
    ends (runWord 0xE0233204 (sup [(3, 0xF), (4, 1)] [])) (fun t => reg t 3 == 0x1F) = true ∧
    ends (runWord 0xE3C0001F (sup [(0, 0xD3)] [])) (fun t => reg t 0 == 0xC0) = true := by decide +kernel

/-- B3, B4. -/
theorem test_sub :
    ends (runWord 0xE0500001 (sup [(1, 1)] [])) (fun t => reg t 0 == 0xFFFFFFFF && nzcv t == [true, false, false, false]) = true ∧
    ends (runWord 0xE0500001 (sup [(0, 0x80000000), (1, 1)] [])) (fun t => reg t 0 == 0x7FFFFFFF && nzcv t == [false, false, true, true]) = true := by
  decide +kernel

/-- B7, B8. -/
theorem test_rsb :
    ends (runWord 0xE2710000 (sup [] [])) (fun t => reg t 0 == 0 && nzcv t == [false, true, true, false]) = true ∧
    ends (runWord 0xE2710000 (sup [(1, 0x80000000)] [])) (fun t => reg t 0 == 0x80000000 && nzcv t == [true, false, false, true]) = true := by
  decide +kernel

/-- B9 (the source's S3), B11. -/
theorem test_add :
    ends (runWord 0xE0902001 (sup [(0, 0x7FFFFFFF), (1, 1)] [])) (fun t => reg t 2 == 0x80000000 && nzcv t == [true, false, false, true]) = true ∧
    ends (runWord 0xE0902001 (sup [(0, 0x80000000), (1, 0x80000000)] [])) (fun t => reg t 2 == 0 && nzcv t == [false, true, true, true]) = true := by
  decide +kernel

/-- B12, B13. -/
theorem test_adc :
    ends (runWord 0xE0B11003 (supC [(1, 0xFFFFFFFF)])) (fun t => reg t 1 == 0 && nzcv t == [false, true, true, false]) = true ∧
    ends (runWord 0xE0B11003 (supC [(1, 0x7FFFFFFF)])) (fun t => reg t 1 == 0x80000000 && nzcv t == [true, false, false, true]) = true := by
  decide +kernel

/-- B14, B16. -/
theorem test_sbc :
    ends (runWord 0xE0D11003 (sup [] [])) (fun t => reg t 1 == 0xFFFFFFFF && nzcv t == [true, false, false, false]) = true ∧
    ends (runWord 0xE0D11003 (sup [(3, 0xFFFFFFFF)] [])) (fun t => reg t 1 == 0 && nzcv t == [false, true, false, false]) = true := by
  decide +kernel

/-- B17. -/
theorem test_rsc : ends (runWord 0xE2E11000 (sup [] [])) (fun t => reg t 1 == 0xFFFFFFFF && nzcv t == nzcv (sup [] [])) = true := by
  decide +kernel

/-- B18, B19. -/
theorem test_tst_teq :
    ends (runWord 0xE3100102 (sup [(0, 0x80000001)] [])) (fun t => reg t 0 == 0x80000001 && nzcv t == [true, false, true, false]) = true ∧
    ends (runWord 0xE1300001 (supC [(0, 5), (1, 5)])) (fun t => nzcv t == [false, true, true, false]) = true := by
  decide +kernel

/-- B20, B22, B23, B30. -/
theorem test_cmp_cmn :
    ends (runWord 0xE3500005 (sup [(0, 3)] [])) (fun t => reg t 0 == 3 && nzcv t == [true, false, false, false]) = true ∧
    ends (runWord 0xE3500005 (sup [(0, 0x80000000)] [])) (fun t => nzcv t == [false, false, true, true]) = true ∧
    ends (runWord 0xE3700001 (sup [(0, 0xFFFFFFFF)] [])) (fun t => nzcv t == [false, true, true, false]) = true ∧
    ends (runWord 0xE35FF000 (sup [] [])) (fun t => t.pc == 0x104 && nzcv t == [false, false, true, false]) = true := by
  decide +kernel

/-- B24. -/
theorem test_orr :
    ends (runWord 0xE1800231 (sup [(1, 0x80000000), (2, 31)] [])) (fun t => reg t 0 == 1 && t.cycles == 2) = true ∧
    ends (runWord 0xE1800231 (sup [(1, 0x80000000), (2, 0x100)] [])) (fun t => reg t 0 == 0x80000000) = true := by decide +kernel

/-- B26; V keeps its value. -/
theorem test_mvn :
    ends (runWord 0xE3F00000 (machine 0x10000013 .supervisor [] [])) (fun t => reg t 0 == 0xFFFFFFFF && nzcv t == [true, false, false, true]) = true := by
  decide +kernel

/-- B27, B28: `MOVS PC, LR`. -/
theorem test_exception_return :
    ends (runWord 0xE1B0F00E { machine 0x93 .supervisor [(14, 0x300)] [] with spsr := ⟨0, 0, 0x60000010, 0, 0⟩ })
      (fun t => t.pc == 0x300 && psrWord t.cpsr == 0x60000010 && t.cycles == 3) = true ∧
    dies (runWord 0xE1B0F00E { machine 0x93 .supervisor [(14, 0x300)] [] with spsr := ⟨0, 0, 0x30, 0, 0⟩ }) .unsupportedState = true := by
  decide +kernel

/-- P-1, P-2. -/
theorem test_mrs :
    ends (runWord 0xE10F0000 (machine 0x400000D3 .supervisor [] [])) (fun t => reg t 0 == 0x400000D3) = true ∧
    ends (runWord 0xE14F1000 { sup [] [] with spsr := ⟨0, 0, 0x10, 0, 0⟩ }) (fun t => reg t 1 == 0x10) = true := by decide +kernel

/-- P-3, P-9. -/
theorem test_msr :
    ends (runWord 0xE129F000 (machine 0xF00000D3 .supervisor [(0, 0x1F)] [])) (fun t => psrWord t.cpsr == 0x1F) = true ∧
    ends (runWord 0xE169F000 (sup [(0, 0x12345678)] [])) (fun t => t.spsr.svc == 0x12000078) = true := by decide +kernel

/-- P-4, P-6, P-8: the immediate form, in User mode and with an illegal mode number. -/
theorem test_msr_immediate :
    ends (runWord 0xE328F20F (machine 0x10 .user [] [])) (fun t => psrWord t.cpsr == 0xF0000010) = true ∧
    ends (runWord 0xE321F0D3 (machine 0x10 .user [] [])) (fun t => psrWord t.cpsr == 0x10) = true ∧
    dies (runWord 0xE321F000 (sup [] [])) .unsupportedState = true := by decide +kernel

/-- The class 1 word that decodes as MRS (30_encoding.md R103 (d)) reads the CPSR. -/
theorem test_mrs_class_one : ends (runWord 0xE3000000 (sup [] [])) (fun t => reg t 0 == 0x13) = true := by decide +kernel

/-- M-2; M-3 (C is free). -/
theorem test_mul :
    ends (runWord 0xE0000291 (sup [(1, 0xFFFFFFFF), (2, 2)] [])) (fun t => reg t 0 == 0xFFFFFFFE && t.cycles == 2) = true ∧
    ends (runWord 0xE0100291 (sup [(0, 9), (2, 7)] [])) (fun t => reg t 0 == 0 && t.cpsr.z && !t.cpsr.n && !t.cpsr.v) = true := by
  decide +kernel

/-- M-4. -/
theorem test_mla : ends (runWord 0xE0203291 (sup [(1, 3), (2, 4), (3, 5)] [])) (fun t => reg t 0 == 0x11 && t.cycles == 3) = true := by
  decide +kernel

/-- M-5, M-6. -/
theorem test_umull_umlal :
    ends (runWord 0xE0810392 (sup [(2, 0xFFFFFFFF), (3, 0xFFFFFFFF)] []))
      (fun t => reg t 1 == 0xFFFFFFFE && reg t 0 == 1 && t.cycles == 6) = true ∧
    ends (runWord 0xE0A10392 (sup [(0, 0xFFFFFFFF), (2, 1), (3, 1)] [])) (fun t => reg t 1 == 1 && reg t 0 == 0) = true := by
  decide +kernel

/-- M-8, M-9. -/
theorem test_smull_smlal :
    ends (runWord 0xE0C10392 (sup [(2, 0x80000000), (3, 0x80000000)] [])) (fun t => reg t 1 == 0x40000000 && reg t 0 == 0) = true ∧
    ends (runWord 0xE0E10392 (sup [(0, 1), (2, 0xFFFFFFFF), (3, 1)] [])) (fun t => reg t 1 == 0 && reg t 0 == 0 && t.cycles == 4) = true := by
  decide +kernel

/-- L2, L4. -/
theorem test_ldr :
    ends (runWord 0xE5910004 (sup [(1, 0x40001)] [(0x40004, 0x11223344)])) (fun t => reg t 0 == 0x44112233) = true ∧
    ends (runWord 0xE4910004 (sup [(1, 0x40000)] [(0x40000, 0x55)])) (fun t => reg t 0 == 0x55 && reg t 1 == 0x40004) = true := by
  decide +kernel

/-- `LDR PC, [SP], #4` of R252. -/
theorem test_ldr_pc :
    ends (runWord 0xE49DF004 (sup [(13, 0x40100)] [(0x40100, 0x120)])) (fun t => t.pc == 0x120 && reg t 13 == 0x40104) = true := by
  decide +kernel

/-- L7; the T variant of R247. -/
theorem test_ldrb_ldrbt :
    ends (runWord 0xE5D10001 (sup [(1, 0x40000)] [(0x40000, 0x11223344)])) (fun t => reg t 0 == 0x33) = true ∧
    ends (runWord 0xE4F10001 (sup [(1, 0x40001)] [(0x40000, 0x11223344)])) (fun t => reg t 0 == 0x33 && reg t 1 == 0x40002) = true := by
  decide +kernel

/-- The T variant of R246. -/
theorem test_ldrt :
    ends (runWord 0xE4B10004 (sup [(1, 0x40000)] [(0x40000, 0x55)])) (fun t => reg t 0 == 0x55 && reg t 1 == 0x40004) = true := by
  decide +kernel

/-- L8, L9; the T variant of R248. -/
theorem test_str_strt :
    ends (runWord 0xE5A10004 (sup [(0, 0xCAFEBABE), (1, 0x40000)] [])) (fun t => wordAt t 0x40004 == 0xCAFEBABE && reg t 1 == 0x40004 && t.cycles == 2) = true ∧
    ends (runWord 0xE581F000 (sup [(1, 0x40000)] [])) (fun t => wordAt t 0x40000 == 0x108) = true ∧
    ends (runWord 0xE4A10004 (sup [(0, 7), (1, 0x40000)] [])) (fun t => wordAt t 0x40000 == 7 && reg t 1 == 0x40004) = true := by
  decide +kernel

/-- L10; the T variant of R249. -/
theorem test_strb_strbt :
    ends (runWord 0xE5C10003 (sup [(0, 0x1AA), (1, 0x40000)] [])) (fun t => wordAt t 0x40000 == 0xAA000000) = true ∧
    ends (runWord 0xE4E10001 (sup [(0, 0x1AA), (1, 0x40000)] [])) (fun t => wordAt t 0x40000 == 0xAA && reg t 1 == 0x40001) = true := by
  decide +kernel

/-- L11, L12: Data Abort. -/
theorem test_data_abort :
    ends (runWord 0xE5910000 (sup [(0, 9), (1, 0x50000)] [])) (fun t => t.pc == 0x10 && psrWord t.cpsr == 0x97 && reg t 14 == 0x108 && t.spsr.abt == 0x13 && reg t 0 == 9) = true ∧
    ends (runWord 0xE5B10004 (sup [(1, 0x4FFFFC)] [])) (fun t => t.pc == 0x10 && reg t 1 == 0x4FFFFC) = true := by decide +kernel

/-- L14, L15. -/
theorem test_ldrh :
    ends (runWord 0xE1D100B2 (sup [(1, 0x40000)] [(0x40000, 0x12345678)])) (fun t => reg t 0 == 0x1234) = true ∧
    ends (runWord 0xE1D100B0 (sup [(1, 0x40001)] [(0x40000, 0x12345678)])) (fun t => reg t 0 == 0x5678) = true := by decide +kernel

/-- L17, L18. -/
theorem test_strh :
    ends (runWord 0xE1C100B2 (sup [(0, 0xAABBCCDD), (1, 0x40000)] [(0x40000, 0x11111111)])) (fun t => wordAt t 0x40000 == 0xCCDD1111) = true ∧
    ends (runWord 0xE0C100B2 (sup [(0, 0xAABBCCDD), (1, 0x40000)] [(0x40000, 0x11111111)])) (fun t => wordAt t 0x40000 == 0x1111CCDD && reg t 1 == 0x40002) = true := by
  decide +kernel

/-- L19, L21. -/
theorem test_ldrsb_ldrsh :
    ends (runWord 0xE1D100D0 (sup [(1, 0x40000)] [(0x40000, 0x80)])) (fun t => reg t 0 == 0xFFFFFF80) = true ∧
    ends (runWord 0xE17100F2 (sup [(1, 0x40002)] [(0x40000, 0x8001)])) (fun t => reg t 0 == 0xFFFF8001 && reg t 1 == 0x40000) = true := by
  decide +kernel

/-- L22, and its neighbour with SH = 0b11. -/
theorem test_halfword_no_operation :
    ends (runWord 0xE1C100D0 (sup [(0, 3), (1, 0x40000)] [])) (fun t => t.pc == 0x104 && t.cycles == 1 && reg t 0 == 3 && t.mem == []) = true ∧
    ends (runWord 0xE1C100F0 (sup [(0, 3), (1, 0x40000)] [])) (fun t => t.pc == 0x104 && t.cycles == 1 && reg t 0 == 3 && t.mem == []) = true := by
  decide +kernel

/-- K2, K15. -/
theorem test_ldm :
    ends (runWord 0xE8BD8010 (sup [(13, 0x400F8)] [(0x400F8, 0x44), (0x400FC, 0x120)])) (fun t => reg t 4 == 0x44 && t.pc == 0x120 && reg t 13 == 0x40100 && t.cycles == 6) = true ∧
    ends (runWord 0xE8FD8001 { machine 0x92 .irq [(13, 0x40000)] [(0x40000, 5), (0x40004, 0x200)] with spsr := ⟨0, 0x60000010, 0, 0, 0⟩ })
      (fun t => reg t 0 == 5 && t.pc == 0x200 && psrWord t.cpsr == 0x60000010 && t.gpr[phys .irq 13] == 0x40008) = true := by decide +kernel

/-- K14: the bank usr; K17: nothing is committed. -/
theorem test_ldm_user_and_abort :
    ends (runWord 0xE8D06000 (machine 0x92 .irq [(0, 0x40000), (13, 1), (14, 2)] [(0x40000, 5), (0x40004, 6)]))
      (fun t => t.gpr[phys .user 13] == 5 && t.gpr[phys .user 14] == 6 && reg t 13 == 1 && reg t 14 == 2) = true ∧
    ends (runWord 0xE8B00006 (sup [(0, 0x40FFC), (1, 0x11), (2, 0x22)] [(0x40FFC, 0x77)]))
      (fun t => t.pc == 0x10 && reg t 0 == 0x40FFC && reg t 1 == 0x11 && reg t 2 == 0x22) = true := by decide +kernel

/-- K6, K11. -/
theorem test_stm :
    ends (runWord 0xE92D4010 (sup [(4, 0x44), (13, 0x40100), (14, 0x120)] [])) (fun t => wordAt t 0x400F8 == 0x44 && wordAt t 0x400FC == 0x120 && reg t 13 == 0x400F8 && t.cycles == 3) = true ∧
    ends (runWord 0xE8A10003 (sup [(0, 7), (1, 0x40000)] [])) (fun t => wordAt t 0x40000 == 7 && wordAt t 0x40004 == 0x40008 && reg t 1 == 0x40008) = true := by
  decide +kernel

/-- K9: R15 stores A + 8; K16: the first store stays. -/
theorem test_stm_pc_and_abort :
    ends (runWord 0xE880FFFF (sup [(0, 0x40000)] [])) (fun t => wordAt t 0x4003C == 0x108 && t.cycles == 17) = true ∧
    ends (runWord 0xE8A00006 (sup [(0, 0x40FFC), (1, 0x11)] [])) (fun t => wordAt t 0x40FFC == 0x11 && t.pc == 0x10 && reg t 0 == 0x40FFC && reg t 14 == 0x108) = true := by
  decide +kernel

/-- W2, W3. -/
theorem test_swp_swpb :
    ends (runWord 0xE1020091 (sup [(1, 0xAA), (2, 0x40002)] [(0x40000, 0x11223344)])) (fun t => reg t 0 == 0x33441122 && wordAt t 0x40000 == 0xAA && t.cycles == 4) = true ∧
    ends (runWord 0xE1420091 (sup [(1, 0x1FF), (2, 0x40001)] [(0x40000, 0x11223344)])) (fun t => reg t 0 == 0x33 && wordAt t 0x40000 == 0x1122FF44) = true := by
  decide +kernel

/-- D1, D2, D3. -/
theorem test_bx :
    ends (runWord 0xE12FFF10 (sup [(0, 0x200)] [])) (fun t => t.pc == 0x200 && t.cycles == 3) = true ∧
    dies (runWord 0xE12FFF10 (sup [(0, 0x201)] [])) .unsupportedState = true ∧
    dies (runWord 0xE12FFF10 (sup [(0, 0x202)] [])) .alignmentError = true := by decide +kernel

/-- D6, D8, D7. -/
theorem test_b_bl :
    ends (runWord 0xEAFFFFFD (sup [] [])) (fun t => t.pc == 0xFC) = true ∧
    ends (runWord 0xEA800000 { sup [] [] with pc := 0x02000000 }) (fun t => t.pc == 8) = true ∧
    ends (runWord 0xEB00003E (sup [] [])) (fun t => t.pc == 0x200 && reg t 14 == 0x104) = true := by decide +kernel

/-- X1. -/
theorem test_swi :
    ends (runWord 0xEF000011 (machine 0x60000010 .user [] []))
      (fun t => t.pc == 8 && psrWord t.cpsr == 0x60000093 && reg t 14 == 0x104 && t.spsr.svc == 0x60000010 && t.cycles == 3) = true := by
  decide +kernel

/-- X2. -/
theorem test_undefined :
    ends (runWord 0xE7F000F0 (machine 0x10 .user [] []))
      (fun t => t.pc == 4 && psrWord t.cpsr == 0x9B && reg t 14 == 0x104 && t.spsr.und == 0x10 && t.cycles == 4) = true := by
  decide +kernel

/-- X3, for each of the five words. -/
theorem test_coprocessor :
    [0xEE000F00#32, 0xED900100#32, 0xED800100#32, 0xEE100F10#32, 0xEE010F10#32].all (fun w =>
      ends (runWord w (machine 0x1F .system [] []))
        (fun t => t.pc == 4 && psrWord t.cpsr == 0x9B && reg t 14 == 0x104 && t.spsr.und == 0x1F)) = true := by decide +kernel

/-- X5: Reset; and the reset state is Reset applied to the power-on state (R391, R392). -/
theorem test_reset :
    (hostReset { machine 0x60000010 .user [] [] with pc := 0x1234 }).pc = 0 ∧
    psrWord (hostReset { machine 0x60000010 .user [] [] with pc := 0x1234 }).cpsr = 0x600000D3 ∧
    (hostReset { machine 0x60000010 .user [] [] with pc := 0x1234 }).spsr.svc = 0x60000010 := by decide +kernel
theorem test_reset_state : hostReset State.powerOn = State.reset := by rfl

/-- X6, X7, X8: the sampling point. -/
theorem test_sample_irq :
    let s := sampleInterrupts { setIrqLine true (machine 0x10 .user [] []) with pc := 0x34 }
    (s.pc = 0x18 ∧ psrWord s.cpsr = 0x92 ∧ reg s 14 = 0x30 ∧ s.spsr.irq = 0x10 ∧ s.cycles = 0) := by decide +kernel
theorem test_sample_both :
    let s := sampleInterrupts { setFiqLine true (setIrqLine true (machine 0x10 .user [] [])) with pc := 0x2C }
    (s.pc = 0x1C ∧ psrWord s.cpsr = 0xD1 ∧ reg s 14 = 0x28 ∧ s.spsr.fiq = 0x10 ∧ s.gpr[phys .irq 14] = 0) := by
  decide +kernel
theorem test_sample_masked :
    (sampleInterrupts (setFiqLine true (setIrqLine true (machine 0xD3 .supervisor [] [])))).pc = 0x100 := by decide +kernel

/-- X9: a step at an unmapped address. -/
theorem test_fetch_fault :
    ends (step { machine 0xD3 .supervisor [] [] with pc := 0x200000 })
      (fun t => t.pc == 0x0C && psrWord t.cpsr == 0xD7 && reg t 14 == 0x200004 && t.spsr.abt == 0xD3 && t.cycles == 3) = true := by
  decide +kernel

/-- The step fetches what `withFetchWord` places, at the reset vector: `MOV R0, #1` (P3). -/
theorem test_step_from_reset :
    ends (step (State.reset.withFetchWord 32 0xE3A00001)) (fun t => reg t 0 == 1 && t.pc == 4) = true := by decide +kernel

/-- M4, M5, M6 on the bus; M8: a write to ROM. -/
theorem test_bus_bytes :
    (memRead (sup [] [(0, 0x12345678)]) 2 .halfword).1 = some 0x1234 ∧
    (memRead (sup [] [(0, 0x12345678)]) 3 .byte).1 = some 0x12 ∧
    (memRead (sup [] [(0, 0x12345678)]) 3 .word).1 = some 0x12345678 ∧
    (let t := (memWrite (sup [] []) 0x40001 .halfword 0xABCD).1; [readByte t.mem 0x40000, readByte t.mem 0x40001]) = [0xCD, 0xAB] := by
  decide +kernel
theorem test_bus_faults :
    (memRead (sup [] []) 0x3000 .word).1 = none ∧ (memWrite (sup [] []) 0x3000 .byte 0).2 = false ∧
    (memWrite State.reset 0 .word 5).2 = false := by decide +kernel

/-- M1, M2, M7. -/
theorem test_map :
    let s : State := { State.powerOn with regions := [⟨0, 0x1000, .ram⟩] }
    ((mapRegion ⟨0x1000, 0x1000, .ram⟩ [] s).1 = true ∧ (mapRegion ⟨0x800, 0x100, .ram⟩ [] s).1 = false ∧
      (mapRegion ⟨0, 0x2000, .ram⟩ [] s).1 = false ∧ (unmapRegion ⟨0x1000, 0x1000, .ram⟩ s).1 = false) := by decide +kernel

/-- T2. -/
theorem test_encode_immediate :
    encodeImmediate 0xC0000034 = some ⟨0xD3, 1, false⟩ ∧ encodeImmediate 0x104 = some ⟨0x41, 15, false⟩ ∧
    encodeImmediate 0xFFFF00FF = some ⟨0xFF, 12, true⟩ ∧ encodeImmediate 0x102 = none := by decide +kernel

/-- E6, E7, E8: budgets. -/
theorem test_cpu_run :
    (let left (budget : Int) (w : Word) : Option Int :=
        match cpuRun budget (sup [] [(0x100, w), (0x104, w)]) with
        | .done n _ => some n
        | .halted _ => none;
      left 2 0xE1A00000 = some 0 ∧ left 2 0xEA000000 = some (-1) ∧ left (-3) 0xE1A00000 = some (-3) ∧
      left 1 0xE12FFF10 = some (-2)) := by decide +kernel

/-- Out-of-scope code whose handlers raise an event with their own number as its name. -/
def teller : Oracle := ⟨fun _ _ h => [.raiseEvent h 0 []], fun _ _ _ => default, fun _ _ _ => []⟩

/-- What fires in a drain at a time, and which records are then queued, as (handler, due time). -/
def fired (cycles : Nat) (s : State) : Option (List Nat × List (Nat × Rat)) :=
  (drain teller 9 { s with cycles := cycles }).map fun t =>
    (t.sched.trace.map (fun e => e.name), t.sched.queue.map (fun r => (r.handler, r.dueTime)))

/-- V8: equal due times fire in insertion order; a drain before them fires nothing (R326). -/
theorem test_drain_order :
    let s := registerCallback 10 false 2 (registerCallback 10 false 1 (sup [] []))
    fired 10 s = some ([1, 2], []) ∧ fired 9 s = some ([], [(1, 10), (2, 10)]) := by decide +kernel

/-- V4: a periodic record is queued again at `now + span`; V9: a cancelled one does not fire. -/
theorem test_periodic :
    let s := registerCallback 10 true 1 (sup [] [])
    fired 14 s = some ([1], [(1, 24)]) ∧ fired 14 (unregisterCallback 0 s).2 = some ([], []) ∧
      (unregisterCallback 0 s).1 = true ∧ (unregisterCallback 0 (unregisterCallback 0 s).2).1 = false := by decide +kernel

/-! ### Witnesses: states and operands that meet the hypotheses of the statements -/

/-- Whether a step ends in a next state. -/
def goesOn (r : Result) : Bool := ends r (fun _ => true)

/-- A quiet machine: a no-op at A, a word of data, R0 = 0x40000. -/
def calm : State := sup [(0, 0x40000)] [(0x100, 0xE1A00000), (0x40000, 0x80C)]

/-- The same machine in User mode. -/
def userCalm : State := machine 0x10 .user [(0, 0x40000)] [(0x100, 0xEF000000), (0x40000, 0x80C)]

/-- A machine with one Region of each kind and data in it; R0 to R3 point into them. -/
def zoo : State :=
  { sup [(0, 0x1000), (1, 0x2000), (2, 0x3000), (3, 0x5000)] [(0x1000, 0x40), (0x2000, 0x41)] with
    regions := [⟨0x1000, 0x100, .ram⟩, ⟨0x2000, 0x100, .noWrite⟩, ⟨0x3000, 0x100, .noRead⟩, ⟨0x4000, 0x100, .device 7⟩] }

theorem witness_DecodeEncodeRoundTrip :
    wellFormed (.ldr .al 0 ⟨true, true, true, 1, .imm 4⟩) = true ∧ wellFormed (.ldr .al 0 ⟨false, true, false, 1, .imm 4⟩) = true ∧
    wellFormed (.ldrt .al 0 true 1 (.imm 4)) = true := by decide

theorem witness_EncodeImmediateInverts :
    (encodeImmediate 0xC0000034).isSome = true ∧ (encodeImmediate 0xFFFFFF00).isSome = true ∧
    encodeImmediate 0x101 = none := by decide +kernel

theorem witness_StepRunsTheDecodedInstruction :
    (calm.halted = none ∧ (memRead calm calm.pc .word).1 = some 0xE1A00000#32 ∧
      decodeWord 0xE1A00000 = .mov .al false 0 (.shiftImm 0 .lsl 0)) ∧
    (fld 0 2 calm.pc = 0#2 ∧ regionAt calm.regions calm.pc.toNat = some ⟨0, 0x1000, .ram⟩ ∧
      decode ([0, 1, 2, 3].map fun k => readByte calm.mem (calm.pc.toNat + k)) =
        .ok (.mov .al false 0 (.shiftImm 0 .lsl 0), [])) ∧
    (fld 0 2 State.reset.pc = 0#2 ∧ regionAt State.reset.regions State.reset.pc.toNat = some ⟨0, 0x40000, .noWrite⟩ ∧
      decode ([0, 1, 2, 3].map fun k => readByte State.reset.mem (State.reset.pc.toNat + k)) =
        .ok (.and .eq false 0 0 (.shiftImm 0 .lsl 0), [])) := by
  refine ⟨by decide +kernel, ⟨by decide +kernel, by decide +kernel, by rfl⟩, ⟨by decide +kernel, by decide +kernel, by rfl⟩⟩

theorem witness_ConditionFalse :
    (let p := memRead (sup [] [(0x100, 0x0A000002)]) 0x100 .word;
      p.1 = some 0x0A000002#32 ∧ condHolds (Cond.ofCode (fld 28 4 0x0A000002#32)) p.2.cpsr = false) ∧
    condHolds (Instr.b .eq 2).cond calm.cpsr = false := by decide +kernel

theorem witness_NeverExecutesAsAlways : calm.costModel = .default := by decide

theorem witness_StepAddsItsCost :
    goesOn (step calm) = true ∧ (memRead calm calm.pc .word).1.isSome = true ∧
    goesOn (step { calm with pc := 0x3000 }) = true ∧ (memRead { calm with pc := 0x3000 } 0x3000 .word).1 = none := by
  decide +kernel

theorem witness_FetchFaultTakesPrefetchAbort :
    (memRead { calm with pc := 0x3000 } 0x3000 .word).1 = none ∧
    (memRead { zoo with pc := 0x3000 } 0x3000 .word).1 = none := by decide +kernel

theorem witness_InterruptsSampledFiqFirst :
    let s := setFiqLine true (setIrqLine true calm)
    ((s.sched.fiq = true ∧ s.cpsr.f = false) ∧
      (let t := { s with cpsr := psrOf 0x53 .supervisor };
        (t.sched.fiq = false ∨ t.cpsr.f = true) ∧ t.sched.irq = true ∧ t.cpsr.i = false) ∧
      ((calm.sched.fiq = false ∨ calm.cpsr.f = true) ∧ (setIrqLine true calm).sched.irq = true)) := by decide +kernel
theorem witness_InterruptsSampledFiqFirst_none : noInterrupt calm ∧ noInterrupt (setFiqLine true State.reset) := by
  refine ⟨⟨?_, ?_⟩, ⟨?_, ?_⟩⟩ <;> decide +kernel

theorem witness_OnlyExceptionsLeaveUserMode :
    userCalm.cpsr.mode = .user ∧ ends (step userCalm) (fun t => t.cpsr.mode != .user) = true := by decide +kernel

theorem calm_inv : calm.Inv := by
  refine ⟨⟨by decide +kernel, by decide +kernel, ?_, ?_, ⟨by decide +kernel, ?_⟩, ?_⟩, by decide +kernel, by decide +kernel⟩
  · show (0 : Rat) < 1
    norm_num
  · unfold regionsInv
    decide +kernel
  · have h : calm.mem.all (fun c => (regionAt calm.regions c.1).any (fun r => buffered r.kind)) = true := by decide +kernel
    intro c hc
    have hc := List.all_eq_true.1 h c hc
    cases hr : regionAt calm.regions c.1 with
    | none => simp [hr] at hc
    | some r => exact ⟨r, rfl, by simpa [hr] using hc⟩
  · refine ⟨.nil, .nil, ?_⟩
    intro r hr
    cases hr

theorem witness_EveryStepKeepsInvariant : calm.Inv ∧ goesOn (step calm) = true := ⟨calm_inv, by decide +kernel⟩

theorem witness_HostKeepsInvariant : calm.Inv ∧ ∀ o fuel, drain o fuel calm = some calm := by
  refine ⟨calm_inv, fun o fuel => ?_⟩
  cases fuel <;> rfl

theorem witness_OutsideLeavesRegisters :
    (HostAction.setIrq true ≠ .reset) ∧ ∀ o fuel, drain o fuel calm = some calm :=
  ⟨by decide, witness_HostKeepsInvariant.2⟩

theorem witness_InstructionsReachNoTable :
    goesOn (exec (.mov .al true 0 (.imm 0 1)) calm) = true ∧ goesOn (step calm) = true ∧
    stores (.ldr .al 1 ⟨true, true, false, 0, .imm 0⟩) = false ∧
    goesOn (exec (.ldr .al 1 ⟨true, true, false, 0, .imm 0⟩) calm) = true ∧
    (HostAction.setIrq true).mayChangeTable = false ∧ HostAction.reset.mayChangeTable = false ∧
    (match vmRun teller 9 1 calm with | some (.done left _) => left == 0 | some (.halted _) | none => false) = true ∧
    (match vmRun teller 9 1 (sup [(0, 0x201)] [(0x100, 0xE12FFF10)]) with
      | some (.halted _) => true
      | some (.done _ _) | none => false) = true := by decide +kernel

theorem witness_SavedStatusWriters :
    writesSaved (.swi .al 5) = false ∧ goesOn (exec (.swi .al 5) calm) = true ∧
    writesSaved (.msr .al false 9 0) = false ∧ goesOn (exec (.msr .al false 2 0) calm) = true := by decide +kernel

theorem witness_RegisterView :
    (14#4 ≠ 15#4) ∧ (7#4 < 8#4) ∧ (12#4 < 13#4 ∧ Mode.irq ≠ .fiq ∧ Mode.user ≠ .fiq) ∧
    (13#4 ≠ 15#4 ∧ phys .supervisor 14#4 = phys .supervisor 14#4 ∧ phys .fiq 8#4 = phys .fiq 8#4) := by decide

theorem witness_StatusWords :
    (31 < 32 ∧ 0 < 32 ∧ calm.cpsr.t = false) ∧ (bit 5 0x33#32 = true ∧ modeOfNumber (fld 0 5 0x33#32) = some .supervisor) ∧
    (bit 5 0x14#32 = false ∧ modeOfNumber (fld 0 5 0x14#32) = none) ∧
    (bit 5 0x1F#32 = false ∧ modeNumber .system = fld 0 5 0x1F#32) ∧
    (∀ m ∈ [Mode.user, .fiq, .irq, .supervisor, .abort, .undefined, .system], modeNumber m ≠ fld 0 5 0x14#32) := by decide

theorem witness_ImmediateOperands : (0 < 32 ∧ 31 < 32) ∧ 0#5 = 0#5 ∧ 1#5 ≠ 0#5 ∧ 31#5 ≠ 0#5 := by decide

theorem witness_RegisterShift :
    let n (v : Word) := (reg (sup [(2, v)] []) 2).toNat % 256
    (n 0x100 = 0 ∧ (1 ≤ n 1 ∧ n 1 ≤ 31) ∧ (1 ≤ n 31 ∧ n 31 ≤ 31) ∧ n 32 = 32 ∧ 32 < n 33 ∧ 32 < n 255 ∧ 32 ≤ n 32 ∧
      n 33 % 32 ≠ 0 ∧ n 31 % 32 ≠ 0 ∧ (1 ≤ n 32 ∧ n 32 % 32 = 0) ∧ (1 ≤ n 224 ∧ n 224 % 32 = 0)) := by decide +kernel

/-- The condition and a destination other than R15: LogicalResults, ArithmeticResults, ShortMultiply; the condition
alone: CompareResults, FlagMeanings, AddressForms, HalfwordNoOperation. -/
theorem witness_Results : condHolds .al calm.cpsr = true ∧ condHolds .ne calm.cpsr = true ∧ 0#4 ≠ 15#4 ∧ 14#4 ≠ 15#4 := by
  decide +kernel

theorem witness_LongMultiply : condHolds .al calm.cpsr = true ∧ 1#4 ≠ 15#4 ∧ 0#4 ≠ 15#4 := by decide +kernel

theorem witness_DataProcessingIntoR15 :
    condHolds (Instr.mov .al false 15 (.imm 0 8)).cond calm.cpsr = true ∧
    dataResult (.mov .al false 15 (.imm 0 8)) calm = some (false, 15#4, 8#32) ∧
    dataResult (.mov .al false 15 (.imm 0 2)) calm = some (false, 15#4, 2#32) ∧ fld 0 2 8#32 = 0#2 ∧ fld 0 2 2#32 ≠ 0#2 := by
  decide +kernel

/-- A machine in IRQ mode with a saved status word. -/
def inIrq (saved : Word) : State :=
  { machine 0x92 .irq [(0, 0x40000), (13, 0x40000)] [(0x40000, 5), (0x40004, 0x200)] with spsr := ⟨0, saved, 0, 0, 0⟩ }

theorem witness_DataProcessingReturn :
    dataResult (.mov .al true 15 (.imm 0 8)) (inIrq 0x10) = some (true, 15#4, 8#32) ∧
    dataResult (.mov .al true 15 (.imm 0 2)) (inIrq 0x10) = some (true, 15#4, 2#32) ∧
    condHolds .al (inIrq 0x10).cpsr = true ∧
    spsrOf (bankOf (inIrq 0x10).cpsr.mode) (inIrq 0x10).spsr = some 0x10#32 ∧
    (bit 5 0x10#32 = false ∧ modeOfNumber (fld 0 5 0x10#32) = some .user) ∧
    spsrOf (bankOf (inIrq 0x30).cpsr.mode) (inIrq 0x30).spsr = some 0x30#32 ∧ bit 5 0x30#32 = true := by decide +kernel

/-- A base, a list and memory for the block transfers: LDMIA R0!, with R15 last, in a given mode. -/
def block (status : Word) (m : Mode) (base last : Word) : State :=
  machine status m [(0, base), (1, 0x11)] [(0x40000, 5), (0x40004, last)]

/-- The values read by `LDMIA R0, {R1, PC}` there, and the last of them. -/
def blockValues (s : State) : Option (List Word) := (readWords (blockAddresses false true 0 0x8002 s) s).1

theorem witness_WithoutSavedStatus :
    (dataResult (.mov .al true 15 (.imm 0 8)) userCalm = some (true, 15#4, 8#32) ∧ userCalm.cpsr.mode = .user ∧
      condHolds .al userCalm.cpsr = true ∧ spsrOf (bankOf userCalm.cpsr.mode) userCalm.spsr = none) ∧
    (let s := block 0x1F .system 0x40000 0x200;
      s.cpsr.mode = .system ∧ condHolds .al s.cpsr = true ∧ bit 15 0x8002#16 = true ∧
      dataResult (.mov .al true 15 (.imm 0 8)) s = some (true, 15#4, 8#32) ∧
      blockValues s = some [5#32, 0x200#32] ∧ [5#32, 0x200#32].getLast? = some 0x200#32) := by decide +kernel

theorem witness_MrsReadsStatus :
    condHolds .al (inIrq 0x10).cpsr = true ∧ (true = true → spsrOf (bankOf (inIrq 0x10).cpsr.mode) (inIrq 0x10).spsr = some 0x10#32) ∧
    psrWord calm.cpsr = 0x13#32 ∧ 0#4 ≠ 15#4 ∧
    (15#4 = 15#4 ∧ fld 0 2 (psrWord calm.cpsr) ≠ 0#2 ∧ fld 0 2 0x10#32 = 0#2) := by decide +kernel

theorem witness_MsrWritesCpsr :
    mergedStatus 9 (calm.cpsr.mode == .user) (psrWord calm.cpsr) 0x1F 0x1F ∧
    mergedStatus 9 (userCalm.cpsr.mode == .user) (psrWord userCalm.cpsr) 0xF000001F 0xF0000010 ∧
    mergedStatus 1 (calm.cpsr.mode == .user) (psrWord calm.cpsr) 0x33 0x33 := by
  unfold mergedStatus
  decide +kernel
theorem witness_MsrWritesCpsr_rest :
    (bit 5 0x1F#32 = false ∧ modeOfNumber (fld 0 5 0x1F#32) = some .system) ∧ bit 5 0x33#32 = true ∧
    (userCalm.cpsr.mode = .user ∧ userCalm.cpsr.t = false ∧ condHolds .al userCalm.cpsr = true) := by decide +kernel

theorem witness_MsrWritesSpsr :
    mergedStatus 9 false 0x10 0x12345678 0x12000078 ∧
    spsrOf (bankOf (inIrq 0x10).cpsr.mode) (inIrq 0x10).spsr = some 0x10#32 ∧
    spsrOf (bankOf userCalm.cpsr.mode) userCalm.spsr = none := by
  unfold mergedStatus
  decide +kernel

theorem witness_MultiplyIntoR15 :
    condHolds .al calm.cpsr = true ∧
    (let s := sup [(1, 2), (2, 4), (3, 3)] [];
      fld 0 2 (reg s 1 * reg s 2) = 0#2 ∧ fld 0 2 (reg s 1 * reg s 3) ≠ 0#2) ∧
    (15#4 = 15#4 ∨ 0#4 = 15#4) ∧ (0#4 = 15#4 ∨ 15#4 = 15#4) := by decide +kernel

/-- A plain address off R0 with a displacement, and with write-back. -/
def addr (off : BitVec 12) : Address := ⟨true, true, false, 0, .imm off⟩
def addrBack (off : BitVec 12) : Address := ⟨true, true, true, 0, .imm off⟩
def halfAddr (rn : Reg) : HalfAddress := ⟨true, true, true, rn, .imm 0⟩

theorem witness_LoadsIntoRegisters :
    condHolds .al calm.cpsr = true ∧ (memRead calm (singleAccess (addr 0xFFC) calm).addr .word).1.isSome = true ∧
    (memRead calm (singleAccess (addrBack 0xFFF) calm).addr .byte).1.isSome = true ∧ (singleAccess (addrBack 0xFFF) calm).wb = true ∧
    (memRead calm (translatedAccess true 0 (.imm 4) calm).addr .word).1.isSome = true ∧
    (memRead calm (halfAccess (halfAddr 0) calm).addr .halfword).1.isSome = true ∧ 1#4 ≠ 15#4 ∧ 0#4 ≠ 15#4 := by decide +kernel

theorem witness_LoadsIntoR15 :
    (memRead calm (singleAccess (addr 0) calm).addr .word).1 = some 0x80C#32 ∧ fld 0 2 0x80C#32 = 0#2 ∧
    (memRead calm (singleAccess (addr 1) calm).addr .byte).1 = some 8#32 ∧
    fld 0 2 ((0x80C#32).rotateRight 8) = 0#2 ∧ fld 0 2 ((0x80C#32).rotateRight 2) ≠ 0#2 := by decide +kernel

theorem witness_StoresToMemory :
    (memWrite calm (singleAccess (addr 0xFFC) calm).addr .word 5).2 = true ∧
    (memWrite calm (singleAccess (addrBack 0xFFF) calm).addr .byte 5).2 = true ∧
    (memWrite calm (translatedAccess true 0 (.imm 4) calm).addr .word 5).2 = true ∧
    (memWrite calm (halfAccess (halfAddr 0) calm).addr .halfword 5).2 = true := by decide +kernel

theorem witness_TransferAborts :
    let s := sup [(0, 0x41000)] []
    ((memRead s (singleAccess (addr 0) s).addr .word).1 = none ∧ (memWrite s (singleAccess (addr 0) s).addr .byte 5).2 = false ∧
      (memRead s (translatedAccess true 0 (.imm 4) s).addr .byte).1 = none ∧
      (memWrite s (halfAccess (halfAddr 0) s).addr .halfword 5).2 = false) ∧
    (memRead zoo (reg zoo 2) .word).1 = none ∧ (memWrite zoo (reg zoo 1) .word 5).2 = false := by decide +kernel

theorem witness_WriteBackToR15 :
    let a : Address := ⟨true, true, true, 15, .imm 4⟩
    let x := singleAccess a calm
    (a.rn = 15#4 ∧ (halfAddr 15).rn = 15#4 ∧ x.wb = true ∧ (memRead calm x.addr .word).1.isSome = true ∧
      (memWrite calm x.addr .word 5).2 = true ∧ fld 0 2 x.target = 0#2 ∧
      fld 0 2 (singleAccess ⟨true, true, true, 15, .imm 5⟩ calm).target ≠ 0#2 ∧
      (memRead calm (singleAccess ⟨true, true, true, 15, .imm 5⟩ calm).addr .word).1.isSome = true) ∧
    (bit 15 0x2#16 = false ∧ (readWords (blockAddresses false true 15 2 calm) calm).1.isSome = true ∧
      (writeWords (storedBlock false true false true 15 2 calm) calm).2 = true ∧ fld 0 2 (blockWriteBack true calm.pc 2) = 0#2) ∧
    (let s := { calm with pc := 0x102 };
      (readWords (blockAddresses false true 15 2 s) s).1.isSome = true ∧ fld 0 2 (blockWriteBack true s.pc 2) ≠ 0#2) := by
  decide +kernel

theorem witness_BlockAddresses :
    (listed 0xFFFF#16).length = 16 ∧ 15 < 16 ∧ (listed 0#16).length = 0 ∧
    regionAt calm.regions (alignTo .word 0x40FFF).toNat = some ⟨0x40000, 0x1000, .ram⟩ := by decide +kernel

theorem witness_LdmLoadsRegisters :
    let s := block 0x13 .supervisor 0x40000 0x200
    (condHolds .al s.cpsr = true ∧ bit 15 0x6#16 = false ∧ 0#4 ≠ 15#4 ∧
      (readWords (blockAddresses false true 0 6 s) s).1 = some [5#32, 0x200#32] ∧
      (readWords (blockAddresses false true 0 0 s) s).1 = some []) := by decide +kernel

theorem witness_LdmIntoR15 :
    let s := block 0x13 .supervisor 0x40000 0x200
    let odd := block 0x13 .supervisor 0x40000 0x202
    (condHolds .al s.cpsr = true ∧ bit 15 0x8002#16 = true ∧ blockValues s = some [5#32, 0x200#32] ∧
      blockValues odd = some [5#32, 0x202#32] ∧ [5#32, 0x202#32].getLast? = some 0x202#32 ∧
      spsrOf (bankOf s.cpsr.mode) s.spsr = some 0#32 ∧
      (readWords (blockAddresses false true 0 0x8002 (inIrq 0x10)) (inIrq 0x10)).1 = some [5#32, 0x200#32] ∧
      spsrOf (bankOf (inIrq 0x10).cpsr.mode) (inIrq 0x10).spsr = some 0x10#32) := by decide +kernel
theorem witness_LdmIntoR15_base :
    ¬badBase true 0 (blockWriteBack true 0x40000 0x8002) ∧ badBase true 15 (blockWriteBack true 0x102 0x8002) ∧
    (readWords (blockAddresses false true 15 0x8002 { calm with pc := 0x102 }) { calm with pc := 0x102 }).1.isSome = true := by
  unfold badBase
  decide +kernel

theorem witness_StmStores :
    (writeWords (storedBlock false true false true 0 0x8003 calm) calm).2 = true ∧ condHolds .al calm.cpsr = true ∧
    0#4 ≠ 15#4 ∧ (listed 0x8003#16)[0]? = some 0#4 ∧ (listed 0x8003#16)[2]? = some 15#4 := by decide +kernel

theorem witness_BlockAborts :
    let s := sup [(0, 0x40FFC), (1, 0x11)] []
    (condHolds .al s.cpsr = true ∧ (readWords (blockAddresses false true 0 6 s) s).1 = none ∧
      (writeWords (storedBlock false true false true 0 6 s) s).2 = false ∧ (writeWords [(0x40FFC, 0x11)] s).2 = true ∧
      (memWrite (writeWords [(0x40FFC, 0x11)] s).1 0x41000 .word 0).2 = false) := by decide +kernel

theorem witness_Swaps :
    (memRead calm (reg calm 0) .word).1 = some 0x80C#32 ∧ (memWrite calm (reg calm 0) .word (reg calm 1)).2 = true ∧
    fld 0 2 ((0x80C#32).rotateRight 0) = 0#2 ∧
    ((memRead (sup [(0, 0x40000)] [(0x40000, 2)]) 0x40000 .byte).1 = some 2#32 ∧ fld 0 2 2#32 ≠ 0#2) ∧
    ((memRead zoo (reg zoo 1) .word).1.isSome = true ∧ (memWrite zoo (reg zoo 1) .word 5).2 = false) ∧
    (memRead zoo (reg zoo 3) .word).1 = none := by decide +kernel

theorem witness_Branches :
    (condHolds .al calm.cpsr = true ∧ calm.pc.toNat % 4 = 0) ∧
    (let s := sup [(0, 0x201), (1, 0x202), (2, 0x204)] [];
      bit 0 (reg s 0) = true ∧ (bit 0 (reg s 1) = false ∧ bit 1 (reg s 1) = true) ∧ fld 0 2 (reg s 2) = 0#2) := by decide +kernel

theorem witness_TrappingInstructions :
    [Instr.undefined .al 0 0, .cdp .al 0 0 0 15 0 0, .ldc .al true true false false 0 0 1 0,
      .stc .al true true false false 0 0 1 0, .mrc .al 0 0 0 15 0 0, .mcr .al 0 1 0 15 0 0].all
        (fun i => condHolds i.cond calm.cpsr && trapsUndefined i) = true := by decide +kernel

theorem witness_BusAccess :
    (∀ r ∈ zoo.regions, ¬(r.base ≤ 0x1100 ∧ 0x1100 < r.base + r.size)) ∧
    (⟨0x1000, 0x100, .ram⟩ ∈ zoo.regions ∧ ⟨0x2000, 0x100, .noWrite⟩ ∈ zoo.regions ∧ ⟨0x3000, 0x100, .noRead⟩ ∈ zoo.regions) ∧
    (0x1000 ≤ 0x10FC ∧ 0x10FC < 0x1000 + 0x100) ∧
    (⟨0x4000, 0x100, .device 7⟩ ∈ zoo.regions ∧ 0x4000 ≤ 0x4000 ∧ 0x40FC < 0x4000 + 0x100) := by decide +kernel
theorem witness_BusAccess_regions : regionsInv zoo.regions := by
  unfold regionsInv
  decide +kernel

theorem witness_LittleEndianMemory : Memory.wf calm.mem = true ∧ Memory.wf [] = true ∧ calm.mem ≠ [] := by decide +kernel

theorem witness_MapAndUnmap :
    let r : Region := ⟨0x41000, 4, .ram⟩
    (goodGeometry r = true ∧ imagesFit r [⟨0, [1, 2]⟩, ⟨1, [3]⟩] = true ∧ buffered r.kind = true ∧ Memory.wf calm.mem = true ∧
      ∀ q ∈ calm.regions, ¬(0x41000 < q.base + q.size ∧ q.base < 0x41000 + 4)) ∧
    goodGeometry ⟨0x41000, 4, .device 1⟩ = true ∧ imagesFit ⟨0x41000, 4, .device 1⟩ [] = true ∧ buffered (.device 1) = false ∧
    goodGeometry ⟨0x40FFC, 8, .ram⟩ = true ∧ (∃ q ∈ calm.regions, 0x40FFC < q.base + q.size ∧ q.base < 0x40FFC + 8) ∧
    ⟨0, 0x1000, .ram⟩ ∈ calm.regions ∧ imagesFit ⟨0, 0x1000, .ram⟩ [⟨0xFFF, [7]⟩] = true ∧ r ∉ calm.regions := by decide +kernel

theorem witness_CallbackQueue : (0 : Rat) ≤ 0 ∧ schedInv calm.sched ∧ 5 ≠ 6 :=
  ⟨le_refl _, calm_inv.1.2.2.2.2.2, by decide⟩

/-- A one-shot record and a periodic one, both due at the present time. -/
def timed : State := { registerCallback 10 true 1 (registerCallback 10 false 2 calm) with cycles := 10 }

/-- The same with the first record cancelled. -/
def timedCancelled : State := (unregisterCallback 0 timed).2

theorem witness_DrainEmptiesTheDuePrefix_live :
    schedInv timed.sched ∧
    timed.sched.queue = ⟨0, 10, 10, false, 2, false⟩ :: [⟨1, 10, 10, true, 1, false⟩] ∧ (10 : Rat) ≤ now timed := by
  unfold schedInv
  decide +kernel
theorem witness_DrainEmptiesTheDuePrefix_cancelled :
    schedInv timedCancelled.sched ∧
    timedCancelled.sched.queue = ⟨0, 10, 10, false, 2, true⟩ :: [⟨1, 10, 10, true, 1, false⟩] := by
  unfold schedInv
  decide +kernel
theorem witness_DrainEmptiesTheDuePrefix_end :
    schedInv calm.sched ∧ calm.sched.queue.head? = none ∧ (drainLoop teller 10 3 timed).isSome = true ∧
    (drain teller 3 timed).isSome = true := by
  unfold schedInv
  decide +kernel
theorem witness_DrainEmptiesTheDuePrefix_waiting :
    let s : State := { timed with sched := { timed.sched with queue := [], again := [⟨0, 10, 10, true, 2, true⟩, ⟨1, 10, 10, true, 1, false⟩] } }
    (schedInv s.sched ∧ s.sched.again = [⟨0, 10, 10, true, 2, true⟩] ++ [⟨1, 10, 10, true, 1, false⟩] ∧ timed.sched.again = []) := by
  unfold schedInv
  decide +kernel
theorem witness_DrainEmptiesTheDuePrefix_ends :
    (∀ draw cycles handler, ∀ call ∈ teller.callback draw cycles handler, ∀ timeout periodic h,
      call ≠ .registerCallback timeout periodic h) ∧ timed.sched.queue.length ≤ 2 := by
  refine ⟨fun draw cycles handler call hc timeout periodic h => ?_, by decide +kernel⟩
  rw [List.mem_singleton.1 hc]
  exact FacadeCall.noConfusion

/-- One turn with a live periodic head: it waits, and its handler ran; a cancelled head leaves no trace (R324, R329). -/
theorem test_drain_turn :
    ((drainLoop teller 10 2 timed).map fun t => (t.sched.trace.map (·.name), t.sched.again.map (·.handle))) = some ([2, 1], [1]) ∧
    ((drainLoop teller 10 2 timedCancelled).map fun t => (t.sched.trace.map (·.name), t.sched.again.map (·.handle))) =
      some ([1], [1]) := by decide +kernel

/-- A machine whose next step is `BX R0` to an odd address. -/
def doomed : State := sup [(0, 0x201)] [(0x100, 0xE12FFF10)]

/-- A machine whose next step is `MOV R0, R0` and the one after it `BX R1` to an odd address. -/
def doomedLater : State := sup [(1, 0x201)] [(0x100, 0xE1A00000), (0x104, 0xE12FFF11)]

theorem witness_CpuRunLeftover :
    ((0 : Int) ≤ 0 ∧ (0 : Int) < 1) ∧
    (match cpuRun 1 calm with | .done left t => left == 0 && t.pc == 0x104 | .halted _ => false) = true ∧
    dies (step doomed) .unsupportedState = true ∧
    (match cpuRun 1 doomed with
      | .done _ _ => false
      | .halted t => t.halted == some .unsupportedState && t.cycles == 0) = true := by decide +kernel

/-- A run goes on with the budget that a step has left, and a later step that is fatal ends it (R149, R153); a halted
machine runs nothing (R375). -/
theorem witness_CpuRunLeftover_later :
    (match step doomedLater with | .next t => t.cycles == 1 && t.pc == 0x104 | .fault _ | .refused _ => false) = true ∧
    (match cpuRun 2 doomedLater with
      | .done _ _ => false
      | .halted t => t.halted == some .unsupportedState && t.cycles == 1) = true ∧
    (match cpuRun 1 doomedLater with | .done left t => left == 0 && t.cycles == 1 | .halted _ => false) = true ∧
    cpuRun 1 { calm with halted := some .alignmentError } = .halted { calm with halted := some .alignmentError } := by
  decide +kernel

/-- What Devices did by the time a step fails stays (R77; log entry 9): here, a line that one has raised. -/
theorem test_fatal_keeps_lines :
    (match writePc 2 (setIrqLine true calm) with
      | .fault (.fatal _ left) => left.sched.irq && (haltState .alignmentError left calm).sched.irq
      | .next _ | .fault (.halted _) | .refused _ => false) = true := by decide +kernel

/-- The host's sequence of R395 from power-on: the images of ROM and RAM, the Reset, a run; `LDR R0, [PC, #0]` and the
word after the next, then `MOV R1, #1`. -/
theorem test_boot :
    let rom : Region := ⟨0, 0x40000, .noWrite⟩
    let ram : Region := ⟨0x40000, 0x10000, .ram⟩
    let s := hostAct teller .reset (build [.load rom [⟨0, [0, 0, 0x9F, 0xE5, 1, 0x10, 0xA0, 0xE3, 0x78, 0x56, 0x34, 0x12]⟩],
      .unmap ram, .map ram [⟨4, [9]⟩]])
    ((match vmRun teller 9 4 s with
      | some (.done left t) => left == 0 && reg t 0 == 0x12345678 && reg t 1 == 1 && readByte t.mem 0x40004 == 9
      | some (.halted _) | none => false) = true ∧ (build [.load ⟨0x5000, 4, .ram⟩ [⟨0, [1]⟩]]).mem = []) := by
  decide +kernel

theorem witness_DeviceRegistration :
    let s : State := { calm with sched := { calm.sched with devices := [3] } }
    (3 ∈ s.sched.devices ∧ 4 ∉ s.sched.devices) := by decide +kernel

end Sys2Proof.Tests
end

section
/-!
PROOFS. The failing condition (spec 40_execution_cycle.md R142, R143): decoding keeps the condition field (R100,
R101), every meaning tests it first, and a step whose test fails only advances R15 and counts one cycle.
-/

namespace Sys2Proof.Machine

/-! ### The decoder passes the condition on -/

@[simp] theorem dataOf_cond (c : Cond) (iw : Word) : (dataOf c iw).cond = c := by
  unfold dataOf; dsimp only; split <;> rfl

@[simp] theorem psrRegOf_cond (c : Cond) (iw : Word) : (psrRegOf c iw).cond = c := by
  unfold psrRegOf; split <;> rfl

@[simp] theorem psrImmOf_cond (c : Cond) (iw : Word) : (psrImmOf c iw).cond = c := by
  unfold psrImmOf; split <;> rfl

@[simp] theorem multiplyOf_cond (c : Cond) (iw : Word) : (multiplyOf c iw).cond = c := by
  unfold multiplyOf
  dsimp only
  split
  · split <;> rfl
  · split
    · split <;> rfl
    · split <;> rfl

@[simp] theorem halfwordOf_cond (c : Cond) (iw : Word) : (halfwordOf c iw).cond = c := by
  unfold halfwordOf; dsimp only; split <;> rfl

@[simp] theorem classZero_cond (c : Cond) (iw : Word) : (classZero c iw).cond = c := by
  unfold classZero
  split
  · rfl
  · split
    · split
      · exact multiplyOf_cond c iw
      · exact halfwordOf_cond c iw
    · split
      · exact psrRegOf_cond c iw
      · exact dataOf_cond c iw

@[simp] theorem classOne_cond (c : Cond) (iw : Word) : (classOne c iw).cond = c := by
  unfold classOne
  split
  · exact psrImmOf_cond c iw
  · exact dataOf_cond c iw

@[simp] theorem singleOf_cond (c : Cond) (iw : Word) : (singleOf c iw).cond = c := by
  unfold singleOf; dsimp only; split <;> split <;> rfl

@[simp] theorem classThree_cond (c : Cond) (iw : Word) : (classThree c iw).cond = c := by
  unfold classThree
  split
  · rfl
  · exact singleOf_cond c iw

@[simp] theorem blockOf_cond (c : Cond) (iw : Word) : (blockOf c iw).cond = c := by
  unfold blockOf; split <;> rfl

@[simp] theorem branchOf_cond (c : Cond) (iw : Word) : (branchOf c iw).cond = c := by
  unfold branchOf; split <;> rfl

@[simp] theorem coprocTransferOf_cond (c : Cond) (iw : Word) : (coprocTransferOf c iw).cond = c := by
  unfold coprocTransferOf; split <;> rfl

@[simp] theorem classSeven_cond (c : Cond) (iw : Word) : (classSeven c iw).cond = c := by
  unfold classSeven
  split
  · rfl
  · split
    · split <;> rfl
    · rfl

/-- The condition of the decoded instruction is the word's own (R100, R101). -/
@[simp] theorem decodeWord_cond (iw : Word) : (decodeWord iw).cond = Cond.ofCode (fld 28 4 iw) := by
  unfold decodeWord
  dsimp only
  split
  · exact classZero_cond _ iw
  · exact classOne_cond _ iw
  · exact singleOf_cond _ iw
  · exact classThree_cond _ iw
  · exact blockOf_cond _ iw
  · exact branchOf_cond _ iw
  · exact coprocTransferOf_cond _ iw
  · exact classSeven_cond _ iw

/-! ### Every meaning tests the condition first -/

/-- The meaning of every instruction is a body guarded by its condition (R140). -/
theorem exec_eq_guarded (i : Instr) : ∃ body : State → Result, ∀ s, exec i s = guarded i.cond s body := by
  cases i <;> exact ⟨_, fun _ => rfl⟩

theorem exec_of_fails {i : Instr} {s : State} (h : condHolds i.cond s.cpsr = false) : exec i s = .next s := by
  obtain ⟨body, hbody⟩ := exec_eq_guarded i
  rw [hbody, guarded_of_fails h]

theorem cost_of_fails {i : Instr} {s : State} (iw : Word) (h : condHolds i.cond s.cpsr = false) :
    cost i iw s = 1 := by simp [cost, h]

/-! ### The step -/

theorem cpuStep_of_fetched {s t : State} {iw : Word} (h : memRead s s.pc .word = (some iw, t)) :
    cpuStep s = runWord iw t := by simp [cpuStep, h]

/-- Entering and leaving an instruction that changed nothing advances R15 by 4 (R144). -/
theorem finish_enterExecute (c : Nat) (s : State) :
    finish c (enterExecute s) = { s with pc := s.pc + 4, pcAltered := false, cycles := s.cycles + c } := by
  have hpc : s.pc + 8 - 4 = s.pc + 4 := by bv_omega
  simp only [finish, enterExecute, hpc, Bool.false_eq_true, if_false]

/-- A fetched word whose condition fails: R15 advances by 4, at the cost of one cycle (R143). -/
theorem runWord_of_fails {iw : Word} {s : State} (h : condHolds (Cond.ofCode (fld 28 4 iw)) s.cpsr = false) :
    runWord iw s = .next { s with pc := s.pc + 4, pcAltered := false, cycles := s.cycles + 1 } := by
  have hi : condHolds (decodeWord iw).cond (enterExecute s).cpsr = false := by simpa using h
  simp only [runWord, exec_of_fails hi, thenDo_next, cost_of_fails iw hi, finish_enterExecute]

/-- Settles O7: the fetched word is run in the state that the fetch left, where its condition fails; and a guarded
meaning whose condition fails is the state itself. -/
theorem conditionFalse : Obligations.ConditionFalse := by
  unfold Obligations.ConditionFalse
  refine ⟨fun s t iw hfetch hcond => ?_, fun i s hcond => exec_of_fails hcond⟩
  rw [cpuStep_of_fetched hfetch, runWord_of_fails hcond]

end Sys2Proof.Machine
end

section
/-!
PROOFS. The data-processing instructions (spec 41_data_processing.md R179 to R201): what the two endings `writeAlu` and
`writeCompare` leave alone, what the three families compute, and one application of these rules per instruction.
-/

namespace Sys2Proof.Machine

/-! ### Frames of the shared writes -/

theorem sameGprsBut_setGpr (p : Fin 30) (v : Word) (s : State) : sameGprsBut [p] s (setGpr p v s) :=
  fun _ hq => setGpr_gpr_ne v s (mt List.mem_singleton.2 hq)

theorem flagsOf_setFlagsIf (sf : Bool) (fl : Flags) (s : State) :
    flagsOf (setFlagsIf sf fl s) = if sf then fl else flagsOf s := by
  cases sf <;> rfl

/-- A register and the flags of S = 1: the whole effect of `writeAlu` where Rd is not R15 (R179). -/
theorem wroteRegister_setFlagsIf_setGpr (sf : Bool) (fl : Flags) (rd : Reg) (v : Word) (s : State) :
    wroteRegister rd v s (setFlagsIf sf fl (setGpr (phys s.cpsr.mode rd) v s)) := by
  refine ⟨?_, fun p hp => ?_, by simp, by simp, by simp [sameControl], by simp [sameElsewhere, sameMachine, sameBytes]⟩
  · rw [setFlagsIf_gpr, setGpr_gpr_same]
  · rw [setFlagsIf_gpr, sameGprsBut_setGpr _ v s p hp]

/-! ### Endings -/

theorem writeAlu_of_ne {rd : Reg} (sf : Bool) (r : Alu) (s : State) (hrd : rd ≠ 15#4) :
    writeAlu sf rd r s = .next (setFlagsIf sf r.flags (setGpr (phys s.cpsr.mode rd) r.value s)) := by
  simp [writeAlu, hrd]

@[simp] theorem writeAlu_false_pc (r : Alu) (s : State) : writeAlu false 15#4 r s = writePc r.value s := rfl

theorem writesResult_of_writeAlu {i : Instr} {sf : Bool} {rd : Reg} {r : Alu} {s : State}
    (hexec : exec i s = writeAlu sf rd r s) (hrd : rd ≠ 15#4) : writesResult i sf rd r.value r.flags s :=
  ⟨_, hexec.trans (writeAlu_of_ne sf r s hrd), wroteRegister_setFlagsIf_setGpr sf r.flags rd r.value s,
    flagsOf_setFlagsIf sf r.flags _⟩

/-- A meaning that ends in `writeCompare` writes the flags and nothing else (R201). -/
theorem writesFlags_of_writeCompare {i : Instr} {r : Alu} {s : State} (hexec : exec i s = writeCompare r s) :
    writesFlags i r.flags s :=
  ⟨setFlags r.flags s, hexec, rfl, fun _ _ => rfl, rfl, rfl, by simp [sameControl],
    by simp [sameElsewhere, sameMachine, sameBytes]⟩

/-- A meaning that ends in a write of R15 branches, or is fatal if the value is misaligned (R32). -/
theorem writesPc_of_writePc {i : Instr} {v : Word} {s : State} (hexec : exec i s = writePc v s) : writesPc i v s := by
  refine ⟨fun haligned => ⟨_, hexec.trans (writePc_of_aligned s haligned), ?_⟩, fun hmisaligned => ⟨s.draws, ?_⟩⟩
  · exact ⟨rfl, rfl, fun _ _ => rfl, rfl, ⟨rfl, rfl, rfl, rfl, rfl, rfl⟩, fun _ => rfl, rfl⟩
  · rw [hexec, writePc_of_misaligned s hmisaligned, fatal]

/-! ### Carry and borrow as words -/

theorem ofNat_carry (c : Bool) : BitVec.ofNat 32 c.toNat = if c then 1 else 0 := by cases c <;> rfl

theorem ofNat_borrow (c : Bool) : BitVec.ofNat 32 (1 - c.toNat) = if c then 0 else 1 := by cases c <;> rfl

theorem one_sub_carry (c : Bool) : (1 : Word) - (if c then 1 else 0) = if c then 0 else 1 := by cases c <;> rfl

theorem addWith_value_carry (a b : Word) (c : Bool) : (addWith a b c).value = a + b + if c then 1 else 0 := by
  rw [addWith_value, ofNat_carry]

theorem addWith_value_false (a b : Word) : (addWith a b false).value = a + b := by simp [addWith_value]

theorem subWith_value_borrow (a b : Word) (c : Bool) : (subWith a b c).value = a - b - if c then 0 else 1 := by
  rw [subWith_value, ofNat_borrow]

theorem subWith_value_true (a b : Word) : (subWith a b true).value = a - b := by simp [subWith_value]

/-! ### The flags of the three families -/

theorem logical_flags (result : Word) (sc : Bool) (p : Psr) :
    (logical result sc p).flags = logicalFlags result sc p.v := rfl

theorem addWith_flags (a b : Word) (cin : Bool) :
    (addWith a b cin).flags = additionFlags a b cin (addWith a b cin).value := rfl

/-- The difference is not negative exactly if the subtrahend with its borrow does not exceed the minuend (R182). -/
theorem subWith_flags (a b : Word) (cin : Bool) :
    (subWith a b cin).flags = subtractionFlags a b cin (subWith a b cin).value := by
  have hcarry : (0 ≤ (a.toNat : Int) - b.toNat - (1 - (cin.toNat : Int))) ↔ b.toNat + (1 - cin.toNat) ≤ a.toNat := by
    have := cin.toNat_le
    omega
  simp only [subWith, subtractionFlags, hcarry, Flags.mk.injEq, true_and, and_true]
  rfl

/-! ### One rule per family and ending -/

theorem writesResult_of_logical {i : Instr} {sf sc : Bool} {rd : Reg} {v : Word} {s : State}
    (hexec : exec i s = writeAlu sf rd (logical v sc s.cpsr) s) (hrd : rd ≠ 15#4) :
    writesResult i sf rd v (logicalFlags v sc s.cpsr.v) s :=
  writesResult_of_writeAlu hexec hrd

theorem writesResult_of_addWith {i : Instr} {sf cin : Bool} {rd : Reg} {a b v : Word} {s : State}
    (hexec : exec i s = writeAlu sf rd (addWith a b cin) s) (hrd : rd ≠ 15#4) (hv : (addWith a b cin).value = v) :
    writesResult i sf rd v (additionFlags a b cin v) s := by
  rw [← hv, ← addWith_flags]
  exact writesResult_of_writeAlu hexec hrd

theorem writesResult_of_subWith {i : Instr} {sf cin : Bool} {rd : Reg} {a b v : Word} {s : State}
    (hexec : exec i s = writeAlu sf rd (subWith a b cin) s) (hrd : rd ≠ 15#4) (hv : (subWith a b cin).value = v) :
    writesResult i sf rd v (subtractionFlags a b cin v) s := by
  rw [← hv, ← subWith_flags]
  exact writesResult_of_writeAlu hexec hrd

/-! ### The instructions with a destination other than R15 -/

/-- Settles O26: each of the six meanings is `writeAlu` of a logical result. -/
theorem logicalResults : Obligations.LogicalResults := by
  intro c sf rd rn o s hc hrd x fl a
  exact
    ⟨writesResult_of_logical ((exec_and c sf rd rn o s).trans (guarded_of_holds hc)) hrd,
      writesResult_of_logical ((exec_eor c sf rd rn o s).trans (guarded_of_holds hc)) hrd,
      writesResult_of_logical ((exec_orr c sf rd rn o s).trans (guarded_of_holds hc)) hrd,
      writesResult_of_logical ((exec_mov c sf rd o s).trans (guarded_of_holds hc)) hrd,
      writesResult_of_logical ((exec_bic c sf rd rn o s).trans (guarded_of_holds hc)) hrd,
      writesResult_of_logical ((exec_mvn c sf rd o s).trans (guarded_of_holds hc)) hrd⟩

/-- Settles O27: each of the six meanings is `writeAlu` of a sum or of a difference, whose value is word arithmetic. -/
theorem arithmeticResults : Obligations.ArithmeticResults := by
  refine ⟨fun c sf rd rn o s hc hrd => ?_, fun c sf rd rn o s hc hrd => ?_⟩
  · exact
      ⟨writesResult_of_addWith ((exec_add c sf rd rn o s).trans (guarded_of_holds hc)) hrd (addWith_value_false _ _),
        writesResult_of_addWith ((exec_adc c sf rd rn o s).trans (guarded_of_holds hc)) hrd (addWith_value_carry _ _ _)⟩
  · exact
      ⟨writesResult_of_subWith ((exec_sub c sf rd rn o s).trans (guarded_of_holds hc)) hrd (subWith_value_true _ _),
        writesResult_of_subWith ((exec_rsb c sf rd rn o s).trans (guarded_of_holds hc)) hrd (subWith_value_true _ _),
        writesResult_of_subWith ((exec_sbc c sf rd rn o s).trans (guarded_of_holds hc)) hrd (subWith_value_borrow _ _ _),
        writesResult_of_subWith ((exec_rsc c sf rd rn o s).trans (guarded_of_holds hc)) hrd (subWith_value_borrow _ _ _)⟩

/-! ### The comparisons -/

/-- Settles O28: each of the four meanings is `writeCompare`, with the flags of AND, EOR, SUB and ADD. -/
theorem compareResults : Obligations.CompareResults := by
  intro c rn o s hc x a b
  refine ⟨?tst, ?teq, ?cmp, ?cmn⟩
  case tst => exact writesFlags_of_writeCompare ((exec_tst c rn o s).trans (guarded_of_holds hc))
  case teq => exact writesFlags_of_writeCompare ((exec_teq c rn o s).trans (guarded_of_holds hc))
  case cmp =>
    rw [← subWith_value_true, ← subWith_flags]
    exact writesFlags_of_writeCompare ((exec_cmp c rn o s).trans (guarded_of_holds hc))
  case cmn =>
    rw [← addWith_value_false, ← addWith_flags]
    exact writesFlags_of_writeCompare ((exec_cmn c rn o s).trans (guarded_of_holds hc))

/-! ### The destination R15 -/

/-- The twelve instructions that have a data-processing result end in `writeAlu` of it, whatever Rd is. -/
theorem exec_of_dataResult {i : Instr} {s : State} {sf : Bool} {rd : Reg} {v : Word}
    (hc : condHolds i.cond s.cpsr = true) (hv : dataResult i s = some (sf, rd, v)) :
    ∃ r : Alu, r.value = v ∧ exec i s = writeAlu sf rd r s := by
  cases i with
  | and c sf rd rn o =>
    cases hv
    exact ⟨_, rfl, (exec_and c sf rd rn o s).trans (guarded_of_holds hc)⟩
  | eor c sf rd rn o =>
    cases hv
    exact ⟨_, rfl, (exec_eor c sf rd rn o s).trans (guarded_of_holds hc)⟩
  | orr c sf rd rn o =>
    cases hv
    exact ⟨_, rfl, (exec_orr c sf rd rn o s).trans (guarded_of_holds hc)⟩
  | bic c sf rd rn o =>
    cases hv
    exact ⟨_, rfl, (exec_bic c sf rd rn o s).trans (guarded_of_holds hc)⟩
  | mov c sf rd o =>
    cases hv
    exact ⟨_, rfl, (exec_mov c sf rd o s).trans (guarded_of_holds hc)⟩
  | mvn c sf rd o =>
    cases hv
    exact ⟨_, rfl, (exec_mvn c sf rd o s).trans (guarded_of_holds hc)⟩
  | add c sf rd rn o =>
    cases hv
    exact ⟨_, addWith_value_false _ _, (exec_add c sf rd rn o s).trans (guarded_of_holds hc)⟩
  | adc c sf rd rn o =>
    cases hv
    exact ⟨_, addWith_value_carry _ _ _, (exec_adc c sf rd rn o s).trans (guarded_of_holds hc)⟩
  | sub c sf rd rn o =>
    cases hv
    exact ⟨_, subWith_value_true _ _, (exec_sub c sf rd rn o s).trans (guarded_of_holds hc)⟩
  | rsb c sf rd rn o =>
    cases hv
    exact ⟨_, subWith_value_true _ _, (exec_rsb c sf rd rn o s).trans (guarded_of_holds hc)⟩
  | sbc c sf rd rn o =>
    cases hv
    rw [one_sub_carry]
    exact ⟨_, subWith_value_borrow _ _ _, (exec_sbc c sf rd rn o s).trans (guarded_of_holds hc)⟩
  | rsc c sf rd rn o =>
    cases hv
    rw [one_sub_carry]
    exact ⟨_, subWith_value_borrow _ _ _, (exec_rsc c sf rd rn o s).trans (guarded_of_holds hc)⟩
  | _ => cases hv

/-- Settles O30: with S = 0 and Rd = R15 the instruction is a write of R15. -/
theorem dataProcessingIntoR15 : Obligations.DataProcessingIntoR15 := by
  intro i s v hc hv
  obtain ⟨r, rfl, hexec⟩ := exec_of_dataResult hc hv
  exact writesPc_of_writePc (hexec.trans (writeAlu_false_pc r s))

end Sys2Proof.Machine
end

section
/-!
PROOFS. The addresses of the single and halfword transfers (spec 44_load_store.md R241, R253): each offset as the rules
name it, the address forms of P, U and W once for every base and offset, and their use in the two formats.
-/

namespace Sys2Proof.Machine

/-! ### Offsets -/

theorem singleOffset_imm (off : BitVec 12) (s : State) : singleOffset (.imm off) s = BitVec.ofNat 32 off.toNat :=
  (BitVec.ofNat_toNat 32 off).symm

/-- The register offset is the immediate-shifted second operand of data processing, without its carry (R172). -/
theorem singleOffset_reg (rm : Reg) (ty : ShiftType) (n : BitVec 5) (s : State) :
    singleOffset (.reg rm ty n) s = (operand2 (.shiftImm rm ty n) s).value := rfl

theorem halfOffset_imm (off : BitVec 8) (s : State) : halfOffset (.imm off) s = BitVec.ofNat 32 off.toNat :=
  (BitVec.ofNat_toNat 32 off).symm

theorem halfOffset_reg (rm : Reg) (s : State) : halfOffset (.reg rm) s = reg s rm := rfl

/-! ### Address forms -/

theorem accessOf_target (p u w : Bool) (base offset : Word) :
    (accessOf p u w base offset).target = if u then base + offset else base - offset := rfl

theorem accessOf_addr (p u w : Bool) (base offset : Word) :
    (accessOf p u w base offset).addr = if p then (accessOf p u w base offset).target else base := rfl

theorem accessOf_wb_iff (p u w : Bool) (base offset : Word) :
    (accessOf p u w base offset).wb = true ↔ p = false ∨ w = true := by
  simp [accessOf]

/-- The last four lines of R241's computation, for the offset under any name. -/
theorem accessOf_forms {computed offset : Word} (h : computed = offset) (p u w : Bool) (base : Word) :
    let x := accessOf p u w base computed
    x.target = (if u then base + offset else base - offset) ∧ x.addr = (if p then x.target else base) ∧
      (x.wb = true ↔ p = false ∨ w = true) := by
  subst h
  exact ⟨accessOf_target .., accessOf_addr .., accessOf_wb_iff ..⟩

/-- The T variants address as format SINGLE does with P = 0 and W = 1 (R246 to R249). -/
theorem translatedAccess_eq_singleAccess (u : Bool) (rn : Reg) (off : Offset) (s : State) :
    translatedAccess u rn off s = singleAccess ⟨false, u, true, rn, off⟩ s := rfl

/-- Settles O39: by the two forms of the offset in each format, over the address forms of P, U and W. -/
theorem addressForms : Obligations.AddressForms := by
  unfold Obligations.AddressForms
  refine ⟨fun ⟨p, u, w, rn, off⟩ s => ?_, fun ⟨p, u, w, rn, off⟩ s => ?_, translatedAccess_eq_singleAccess⟩
  · cases off with
    | imm off => exact accessOf_forms (singleOffset_imm off s) p u w (reg s rn)
    | reg rm ty n => exact accessOf_forms (singleOffset_reg rm ty n s) p u w (reg s rn)
  · cases off with
    | imm off => exact accessOf_forms (halfOffset_imm off s) p u w (reg s rn)
    | reg rm => exact accessOf_forms (halfOffset_reg rm s) p u w (reg s rn)

end Sys2Proof.Machine
end

section
/-!
PROOFS. The addresses of the block transfers (spec 45_block_transfer.md R270, R271, R279): which registers a list names
and in what order, the start and the write-back value as the four address forms name them, and the reads of a block
that lies in readable buffers.
-/

namespace Sys2Proof.Machine

/-! ### The listed registers -/

/-- A register is listed iff its bit is set (R270). -/
theorem mem_listed {r : Reg} {list : BitVec 16} : r ∈ listed list ↔ bit r.toNat list = true := by
  simp only [listed, List.mem_map, List.mem_filter, List.mem_range]
  constructor
  · rintro ⟨k, ⟨hk, hbit⟩, rfl⟩
    rwa [BitVec.toNat_ofNat, Nat.mod_eq_of_lt hk]
  · exact fun hbit => ⟨r.toNat, ⟨r.isLt, hbit⟩, BitVec.ofNat_toNat 4 r⟩

/-- The registers are listed in ascending order (R270). -/
theorem listed_pairwise_lt (list : BitVec 16) : (listed list).Pairwise (fun r q => r.toNat < q.toNat) := by
  have hasc : ((List.range 16).filter fun k => bit k list).Pairwise (· < ·) := List.pairwise_lt_range.filter _
  refine List.pairwise_map.2 (hasc.imp_of_mem fun {j k} hj hk hjk => ?_)
  have hj16 : j < 16 := List.mem_range.1 (List.mem_of_mem_filter hj)
  have hk16 : k < 16 := List.mem_range.1 (List.mem_of_mem_filter hk)
  simpa only [BitVec.toNat_ofNat, Nat.mod_eq_of_lt hj16, Nat.mod_eq_of_lt hk16] using hjk

/-! ### The addresses -/

@[simp] theorem wordAddresses_length (start : Word) (n : Nat) : (wordAddresses start n).length = n := by
  simp [wordAddresses]

/-- The `k`-th word lies at `start + 4k` (R271). -/
theorem wordAddresses_getElem? (start : Word) {k n : Nat} (hk : k < n) :
    (wordAddresses start n)[k]? = some (start + BitVec.ofNat 32 (4 * k)) := by
  simp [wordAddresses, List.getElem?_range hk]

/-! ### The reads -/

/-- The words of an LDM over readable buffers are the aligned words, unrotated, and their reads change nothing (R61,
R279). -/
theorem readWords_buffers {l : List Word} {s : State}
    (h : ∀ a ∈ l, ∃ r, regionAt s.regions (alignTo .word a).toNat = some r ∧ (r.kind = .ram ∨ r.kind = .noWrite)) :
    readWords l s = (some (l.map fun a => readDatum s.mem (alignTo .word a).toNat .word), s) := by
  induction l with
  | nil => rfl
  | cons a rest ih =>
    obtain ⟨r, hr, hkind⟩ := h a List.mem_cons_self
    have hrest := ih fun b hb => h b (List.mem_cons_of_mem a hb)
    simp only [readWords, memRead_buffer hr hkind, hrest, List.map_cons]

/-- Settles O46: by the laws of the list, of its word addresses and of the reads of a block; the start and the
write-back value are R271's table itself. -/
theorem blockAddresses_holds : Obligations.BlockAddresses := by
  unfold Obligations.BlockAddresses
  refine ⟨fun p u rn list s => ?_, fun addrs s => readWords_buffers⟩
  exact ⟨fun r => mem_listed, listed_pairwise_lt list, wordAddresses_length .., fun k hk => wordAddresses_getElem? _ hk,
    rfl, rfl, rfl, rfl, rfl, rfl⟩

end Sys2Proof.Machine
end

section
/-!
PROOFS. The trapping instructions (spec 48_swi_coproc_undefined.md R305 to R310): exception entry row by row for every
kind (R353 to R357), and the meanings whose body is one entry.
-/

namespace Sys2Proof.Machine

/-! ### Exception entry -/

/-- Every exception is entered into a mode that has an SPSR (R351). -/
theorem bankOf_targetMode_ne_usr (kind : Exception) : bankOf (targetMode kind) ≠ .usr := by cases kind <;> decide

/-- F is set by Reset and FIQ, and kept by the other kinds (R355). -/
theorem entryPsr_f (kind : Exception) (p : Psr) :
    (entryPsr kind p).f = (p.f || decide (kind = .reset ∨ kind = .fiq)) := by
  cases kind <;> simp [entryPsr]

theorem linkValue_of_ne_reset {kind : Exception} (pc : Word) (h : kind ≠ .reset) :
    linkValue kind pc = some (if kind = .data then pc else pc - 4) := by
  cases kind with
  | reset => exact absurd rfl h
  | _ => rfl

/-- The registers after the entry of a kind other than Reset: R14 of its mode holds the link (R354). -/
theorem raiseException_gpr_of_ne_reset {kind : Exception} (s : State) (h : kind ≠ .reset) :
    (raiseException kind s).gpr =
      (setGpr (phys (targetMode kind) 14#4) (if kind = .data then s.pc else s.pc - 4) s).gpr :=
  raiseException_gpr_of_link (linkValue_of_ne_reset s.pc h)

theorem raiseException_link (kind : Exception) (s : State) (h : kind ≠ .reset) :
    (raiseException kind s).gpr[phys (targetMode kind) 14#4] = if kind = .data then s.pc else s.pc - 4 := by
  rw [raiseException_gpr_of_ne_reset s h, setGpr_gpr_same]

theorem sameGprsBut_raiseException (kind : Exception) (s : State) :
    sameGprsBut (if kind = .reset then [] else [phys (targetMode kind) 14#4]) s (raiseException kind s) := by
  intro p hp
  by_cases h : kind = .reset
  · subst h
    rw [raiseException_gpr_reset]
  · rw [if_neg h] at hp
    rw [raiseException_gpr_of_ne_reset s h, sameGprsBut_setGpr _ _ s p hp]

/-- `RaiseException` is exception entry, for every kind and state (R353 to R357). -/
theorem entered_raiseException (kind : Exception) (s : State) : entered kind s (raiseException kind s) := by
  have hsaved : spsrOf (bankOf (targetMode kind)) (raiseException kind s).spsr = some (psrWord s.cpsr) := by
    rw [raiseException_spsr, spsrOf_withSpsr (bankOf_targetMode_ne_usr kind)]
  have hkept : ∀ b, b ≠ bankOf (targetMode kind) → spsrOf b (raiseException kind s).spsr = spsrOf b s.spsr := by
    intro b hb
    rw [raiseException_spsr, spsrOf_withSpsr_ne hb]
  have hbytes : sameBytes s (raiseException kind s) := fun a => by rw [raiseException_mem]
  exact ⟨rfl, rfl, rfl, rfl, entryPsr_f kind s.cpsr, rfl, rfl, hsaved, hkept, raiseException_link kind s,
    sameGprsBut_raiseException kind s, by simp, by simp, by simp, by simp, by simp, hbytes, by simp⟩

/-! ### The instructions -/

/-- The undefined space and the coprocessor instructions only raise Undefined, whatever their fields (R306 to R310). -/
theorem exec_of_trapsUndefined {i : Instr} {s : State} (hc : condHolds i.cond s.cpsr = true)
    (hi : trapsUndefined i = true) : exec i s = .next (raiseException .undefined s) := by
  cases i with
  | undefined c high low => exact (exec_undefined c high low s).trans (guarded_of_holds hc)
  | cdp c op1 crn crd cp op2 crm => exact (exec_cdp c op1 crn crd cp op2 crm s).trans (guarded_of_holds hc)
  | ldc c p u n w rn crd cp off => exact (exec_ldc c p u n w rn crd cp off s).trans (guarded_of_holds hc)
  | stc c p u n w rn crd cp off => exact (exec_stc c p u n w rn crd cp off s).trans (guarded_of_holds hc)
  | mrc c op1 crn rd cp op2 crm => exact (exec_mrc c op1 crn rd cp op2 crm s).trans (guarded_of_holds hc)
  | mcr c op1 crn rd cp op2 crm => exact (exec_mcr c op1 crn rd cp op2 crm s).trans (guarded_of_holds hc)
  | _ => cases hi

/-- Settles O53: the instruction is one exception entry, whose link, vector, mode and F bit are read off for its kind. -/
theorem trappingInstructions : Obligations.TrappingInstructions := by
  unfold Obligations.TrappingInstructions
  refine ⟨fun c comment s hc => ?swi, fun i s hc hi => ?undefined⟩
  case swi =>
    exact ⟨_, (exec_swi c comment s).trans (guarded_of_holds hc), entered_raiseException .software s,
      raiseException_link .software s (by decide), rfl, rfl, rfl⟩
  case undefined =>
    exact ⟨_, exec_of_trapsUndefined hc hi, entered_raiseException .undefined s,
      raiseException_link .undefined s (by decide), rfl, rfl, rfl⟩

end Sys2Proof.Machine
end

section
/-!
PROOFS. What an instruction can do (spec 40_execution_cycle.md R140), said once for every arm of `exec`: accesses of the
bus, then one exception entry, or a sequence of register writes, or a write of a status register by name. The rules on
saved status registers (R41), on the table of Regions (R85) and on memory (R75) follow.
-/

namespace Sys2Proof.Machine

/-! ### The two phases of an instruction -/

/-- What the accesses of an instruction leave unchanged: everything but what Devices do (R77) and, for a store, memory
(R75). -/
def accessed (i : Instr) (s u : State) : Prop :=
  u = { s with mem := u.mem, sched := u.sched, draws := u.draws } ∧ (stores i = false → u.mem = s.mem)

/-- The register writes that end an instruction, in any number: general registers, flags, R15, an exception return, and
the counter of free values. -/
inductive Writes (s : State) : State → Prop
  | refl : Writes s s
  | gpr {u : State} (p : Fin 30) (v : Word) : Writes s u → Writes s (setGpr p v u)
  | flags {u : State} (fl : Flags) : Writes s u → Writes s (setFlags fl u)
  | pc {u : State} (v : Word) : Writes s u → Writes s { u with pc := v, pcAltered := true }
  | draw {u : State} : Writes s u → Writes s { u with draws := u.draws + 1 }
  | restore {u v : State} : Writes s u → restoreCpsr u = .next v → Writes s v

/-- How an instruction ends after its accesses: by an exception entry, by register writes, or by MSR's write of a status
register, which is a saved one only if it names that (R41). -/
def ending (i : Instr) (u t : State) : Prop :=
  (∃ kind, kind ≠ .reset ∧ t = raiseException kind u) ∨ Writes u t ∨
    ∃ r fields operand, moveToStatus r fields operand u = .next t ∧ (r = true → writesSaved i = true)

theorem accessed_refl (i : Instr) (s : State) : accessed i s s := ⟨rfl, fun _ => rfl⟩

theorem accessed_of_read {s u : State} (i : Instr) (h : u = { s with sched := u.sched, draws := u.draws }) :
    accessed i s u := by
  rw [h]
  exact ⟨rfl, fun _ => rfl⟩

theorem accessed_of_write {i : Instr} {s u : State} (hi : stores i = true)
    (h : u = { s with mem := u.mem, sched := u.sched, draws := u.draws }) : accessed i s u :=
  ⟨h, fun hn => by rw [hi] at hn; cases hn⟩

theorem accessed.trans {i : Instr} {s u v : State} (h : accessed i s u) (k : accessed i u v) : accessed i s v := by
  obtain ⟨hs, hm⟩ := h
  obtain ⟨ku, km⟩ := k
  refine ⟨?_, fun hi => (km hi).trans (hm hi)⟩
  rw [ku, hs]

/-! ### Register writes -/

namespace Writes

variable {s u t : State}

theorem trans (h : Writes s u) (k : Writes u t) : Writes s t := by
  induction k with
  | refl => exact h
  | gpr p v _ ih => exact ih.gpr p v
  | flags fl _ ih => exact ih.flags fl
  | pc v _ ih => exact ih.pc v
  | draw _ ih => exact ih.draw
  | restore _ e ih => exact ih.restore e

/-- Register writes change registers, the current status and the counter of free values, and nothing else. -/
theorem frame (h : Writes s t) :
    t = { s with gpr := t.gpr, pc := t.pc, pcAltered := t.pcAltered, cpsr := t.cpsr, draws := t.draws } := by
  induction h with
  | refl => rfl
  | gpr p v _ ih => rw [ih]; rfl
  | flags fl _ ih => rw [ih]; rfl
  | pc v _ ih => rw [ih]
  | draw _ ih => rw [ih]
  | @restore u v _ e ih =>
    obtain ⟨w, hw, -, ht⟩ := restoreCpsr_eq_next e
    rw [ht]
    rcases hw with rfl | rfl <;> rw [ih]

/-- Register writes in User mode stay there (R371). -/
theorem user (h : Writes s t) (hs : s.cpsr.mode = .user) : t.cpsr.mode = .user := by
  induction h with
  | refl => exact hs
  | gpr p v _ ih => exact ih
  | flags fl _ ih => exact ih
  | pc v _ ih => exact ih
  | draw _ ih => exact ih
  | restore _ e ih => exact restoreCpsr_user ih e

theorem of_writePc {v : Word} (e : writePc v s = .next t) : Writes s t := by
  obtain ⟨-, rfl⟩ := writePc_eq_next.1 e
  exact refl.pc v

theorem of_setReg {r : Reg} {v : Word} (e : setReg r v s = .next t) : Writes s t := by
  rcases setReg_eq_next.1 e with ⟨-, -, rfl⟩ | ⟨-, rfl⟩
  · exact refl.pc v
  · exact refl.gpr _ v

theorem of_thenDo {r : Result} {k : State → Result} (e : thenDo r k = .next t) (hr : ∀ u, r = .next u → Writes s u)
    (hk : ∀ u v, k u = .next v → Writes u v) : Writes s t := by
  obtain ⟨u, hu, e⟩ := thenDo_eq_next.1 e
  exact (hr u hu).trans (hk u t e)

theorem of_setReg_setReg {r q : Reg} {v w : Word} (e : thenDo (setReg r v s) (setReg q w) = .next t) : Writes s t :=
  of_thenDo e (fun _ => of_setReg) (fun _ _ => of_setReg)

theorem of_readSpsr (s : State) : Writes s (readSpsr s).2 := by
  rcases readSpsr_state s with e | e <;> rw [e]
  · exact refl
  · exact refl.draw

theorem of_writeAlu {sf : Bool} {rd : Reg} {r : Alu} (e : writeAlu sf rd r s = .next t) : Writes s t := by
  unfold writeAlu at e
  split at e
  · split at e
    · exact of_thenDo e (fun _ => refl.restore) (fun _ _ => of_writePc)
    · exact of_writePc e
  · cases e
    cases sf
    · exact refl.gpr _ _
    · exact (refl.gpr _ _).flags _

theorem of_writeCompare {r : Alu} (e : writeCompare r s = .next t) : Writes s t := by
  cases e
  exact refl.flags _

theorem of_moveFromStatus {r : Bool} {rd : Reg} (e : moveFromStatus r rd s = .next t) : Writes s t := by
  unfold moveFromStatus at e
  split at e
  · exact (of_readSpsr s).trans (of_setReg e)
  · exact of_setReg e

theorem of_writeShort {sf : Bool} {rd rs rm : Reg} {v : Word} (e : writeShort sf rd rs rm v s = .next t) :
    Writes s t := by
  unfold writeShort at e
  dsimp only at e
  split at e
  · refine of_thenDo e (fun u hu => refl.draw.trans (of_setReg hu)) fun u w hw => ?_
    cases hw
    exact refl.flags _
  · exact of_setReg e

theorem of_writeLong {sf : Bool} {rdHi rdLo rs rm : Reg} {p : BitVec 64}
    (e : writeLong sf rdHi rdLo rs rm p s = .next t) : Writes s t := by
  unfold writeLong at e
  dsimp only at e
  split at e
  · refine of_thenDo e (fun u hu => refl.draw.trans (of_setReg_setReg hu)) fun u w hw => ?_
    cases hw
    exact refl.flags _
  · exact of_setReg_setReg e

theorem of_writeBack {rn : Reg} {x : Access} (e : writeBack rn x s = .next t) : Writes s t := by
  unfold writeBack at e
  split at e
  · exact of_setReg e
  · cases e; exact refl

theorem of_blockBase {w : Bool} {rn : Reg} {v : Word} (e : blockBase w rn v s = .next t) : Writes s t := by
  unfold blockBase at e
  split at e
  · exact of_setReg e
  · cases e; exact refl

theorem of_loadRegisters (m : Mode) (l : List (Reg × Word)) (s : State) : Writes s (loadRegisters m l s) := by
  induction l generalizing s with
  | nil => exact refl
  | cons q rest ih =>
    obtain ⟨r, v⟩ := q
    simp only [loadRegisters]
    split
    · exact ih s
    · exact (refl.gpr _ v).trans (ih _)

theorem of_finishLoad {sBit w : Bool} {rn : Reg} {list : BitVec 16} {wbval : Word} {vs : List Word}
    (e : finishLoad sBit w rn list wbval vs s = .next t) : Writes s t := by
  unfold finishLoad at e
  dsimp only at e
  refine of_thenDo e (fun _ => of_blockBase) fun u v hv => ?_
  split at hv
  · split at hv
    · exact (of_loadRegisters _ _ u).trans (of_thenDo hv (fun _ => refl.restore) (fun _ _ => of_writePc))
    · exact (of_loadRegisters _ _ u).trans (of_writePc hv)
  · cases hv; exact of_loadRegisters _ _ u

end Writes

/-! ### Every instruction has the two phases -/

/-- A meaning that may be asked for one instruction: it accesses, then ends. -/
def phased (i : Instr) (s t : State) : Prop := ∃ u, accessed i s u ∧ ending i u t

section
variable {i : Instr} {s t : State}

theorem phased_of_writes (h : Writes s t) : phased i s t := ⟨s, accessed_refl i s, .inr (.inl h)⟩

theorem phased_of_next (e : (.next s : Result) = .next t) : phased i s t := by
  cases e
  exact phased_of_writes .refl

theorem phased_of_raise {kind : Exception} (hk : kind ≠ .reset) (e : (.next (raiseException kind s) : Result) = .next t) :
    phased i s t := by
  cases e
  exact ⟨s, accessed_refl i s, .inl ⟨kind, hk, rfl⟩⟩

theorem phased_of_moveToStatus {r : Bool} {fields : BitVec 4} {operand : Word} (hi : writesSaved i = r)
    (e : moveToStatus r fields operand s = .next t) : phased i s t :=
  ⟨s, accessed_refl i s, .inr (.inr ⟨r, fields, operand, e, hi.trans⟩)⟩

theorem phased_of_guarded {c : Cond} {body : State → Result} (e : guarded c s body = .next t)
    (hb : body s = .next t → phased i s t) : phased i s t := by
  rcases guarded_eq_next.1 e with ⟨-, e⟩ | ⟨-, rfl⟩
  · exact hb e
  · exact phased_of_writes .refl

theorem phased_of_loadTransfer {w : Width} {f : Word → Word → Word} {rd rn : Reg} {x : Access}
    (e : loadTransfer w f rd rn x s = .next t) : phased i s t := by
  unfold loadTransfer at e
  split at e
  · rename_i u hm
    cases e
    exact ⟨u, accessed_of_read i (memRead_frame hm), .inl ⟨.data, by decide, rfl⟩⟩
  · rename_i v u hm
    exact ⟨u, accessed_of_read i (memRead_frame hm),
      .inr (.inl (.of_thenDo e (fun _ => .of_writeBack) fun _ _ => .of_setReg))⟩

theorem phased_of_storeTransfer {w : Width} {v : Word} {rn : Reg} {x : Access} (hi : stores i = true)
    (e : storeTransfer w v rn x s = .next t) : phased i s t := by
  unfold storeTransfer at e
  split at e
  · rename_i u hm
    cases e
    exact ⟨u, accessed_of_write hi (memWrite_frame hm), .inl ⟨.data, by decide, rfl⟩⟩
  · rename_i u hm
    exact ⟨u, accessed_of_write hi (memWrite_frame hm), .inr (.inl (.of_writeBack e))⟩

theorem phased_of_swapTransfer {w : Width} {f : Word → Word → Word} {rn rd rm : Reg} (hi : stores i = true)
    (e : swapTransfer w f rn rd rm s = .next t) : phased i s t := by
  unfold swapTransfer at e
  dsimp only at e
  split at e
  · rename_i u hm
    cases e
    exact ⟨u, accessed_of_read i (memRead_frame hm), .inl ⟨.data, by decide, rfl⟩⟩
  · rename_i v u hm
    have hread := accessed_of_read i (memRead_frame hm)
    split at e
    · rename_i u' hw
      cases e
      exact ⟨u', hread.trans (accessed_of_write hi (memWrite_frame hw)), .inl ⟨.data, by decide, rfl⟩⟩
    · rename_i u' hw
      exact ⟨u', hread.trans (accessed_of_write hi (memWrite_frame hw)), .inr (.inl (.of_setReg e))⟩

end

/-- Everything an instruction can do: its accesses, then its ending. -/
theorem exec_phased {i : Instr} {s t : State} (e : exec i s = .next t) : phased i s t := by
  cases i
  case and => rw [exec_and] at e; exact phased_of_guarded e fun h => phased_of_writes (.of_writeAlu h)
  case eor => rw [exec_eor] at e; exact phased_of_guarded e fun h => phased_of_writes (.of_writeAlu h)
  case sub => rw [exec_sub] at e; exact phased_of_guarded e fun h => phased_of_writes (.of_writeAlu h)
  case rsb => rw [exec_rsb] at e; exact phased_of_guarded e fun h => phased_of_writes (.of_writeAlu h)
  case add => rw [exec_add] at e; exact phased_of_guarded e fun h => phased_of_writes (.of_writeAlu h)
  case adc => rw [exec_adc] at e; exact phased_of_guarded e fun h => phased_of_writes (.of_writeAlu h)
  case sbc => rw [exec_sbc] at e; exact phased_of_guarded e fun h => phased_of_writes (.of_writeAlu h)
  case rsc => rw [exec_rsc] at e; exact phased_of_guarded e fun h => phased_of_writes (.of_writeAlu h)
  case orr => rw [exec_orr] at e; exact phased_of_guarded e fun h => phased_of_writes (.of_writeAlu h)
  case mov => rw [exec_mov] at e; exact phased_of_guarded e fun h => phased_of_writes (.of_writeAlu h)
  case bic => rw [exec_bic] at e; exact phased_of_guarded e fun h => phased_of_writes (.of_writeAlu h)
  case mvn => rw [exec_mvn] at e; exact phased_of_guarded e fun h => phased_of_writes (.of_writeAlu h)
  case tst => rw [exec_tst] at e; exact phased_of_guarded e fun h => phased_of_writes (.of_writeCompare h)
  case teq => rw [exec_teq] at e; exact phased_of_guarded e fun h => phased_of_writes (.of_writeCompare h)
  case cmp => rw [exec_cmp] at e; exact phased_of_guarded e fun h => phased_of_writes (.of_writeCompare h)
  case cmn => rw [exec_cmn] at e; exact phased_of_guarded e fun h => phased_of_writes (.of_writeCompare h)
  case mul => rw [exec_mul] at e; exact phased_of_guarded e fun h => phased_of_writes (.of_writeShort h)
  case mla => rw [exec_mla] at e; exact phased_of_guarded e fun h => phased_of_writes (.of_writeShort h)
  case umull => rw [exec_umull] at e; exact phased_of_guarded e fun h => phased_of_writes (.of_writeLong h)
  case umlal => rw [exec_umlal] at e; exact phased_of_guarded e fun h => phased_of_writes (.of_writeLong h)
  case smull => rw [exec_smull] at e; exact phased_of_guarded e fun h => phased_of_writes (.of_writeLong h)
  case smlal => rw [exec_smlal] at e; exact phased_of_guarded e fun h => phased_of_writes (.of_writeLong h)
  case mrs => rw [exec_mrs] at e; exact phased_of_guarded e fun h => phased_of_writes (.of_moveFromStatus h)
  case mrsI => rw [exec_mrsI] at e; exact phased_of_guarded e fun h => phased_of_writes (.of_moveFromStatus h)
  case msr => rw [exec_msr] at e; exact phased_of_guarded e (phased_of_moveToStatus rfl)
  case msrI => rw [exec_msrI] at e; exact phased_of_guarded e (phased_of_moveToStatus rfl)
  case undefined => rw [exec_undefined] at e; exact phased_of_guarded e (phased_of_raise (by decide))
  case cdp => rw [exec_cdp] at e; exact phased_of_guarded e (phased_of_raise (by decide))
  case ldc => rw [exec_ldc] at e; exact phased_of_guarded e (phased_of_raise (by decide))
  case stc => rw [exec_stc] at e; exact phased_of_guarded e (phased_of_raise (by decide))
  case mrc => rw [exec_mrc] at e; exact phased_of_guarded e (phased_of_raise (by decide))
  case mcr => rw [exec_mcr] at e; exact phased_of_guarded e (phased_of_raise (by decide))
  case swi => rw [exec_swi] at e; exact phased_of_guarded e (phased_of_raise (by decide))
  case halfwordL0Sh2 => rw [exec_halfwordL0Sh2] at e; exact phased_of_guarded e phased_of_next
  case halfwordL0Sh3 => rw [exec_halfwordL0Sh3] at e; exact phased_of_guarded e phased_of_next
  case ldr => rw [exec_ldr] at e; exact phased_of_guarded e phased_of_loadTransfer
  case ldrb => rw [exec_ldrb] at e; exact phased_of_guarded e phased_of_loadTransfer
  case ldrt => rw [exec_ldrt] at e; exact phased_of_guarded e phased_of_loadTransfer
  case ldrbt => rw [exec_ldrbt] at e; exact phased_of_guarded e phased_of_loadTransfer
  case ldrh => rw [exec_ldrh] at e; exact phased_of_guarded e phased_of_loadTransfer
  case ldrsb => rw [exec_ldrsb] at e; exact phased_of_guarded e phased_of_loadTransfer
  case ldrsh => rw [exec_ldrsh] at e; exact phased_of_guarded e phased_of_loadTransfer
  case str => rw [exec_str] at e; exact phased_of_guarded e (phased_of_storeTransfer rfl)
  case strb => rw [exec_strb] at e; exact phased_of_guarded e (phased_of_storeTransfer rfl)
  case strt => rw [exec_strt] at e; exact phased_of_guarded e (phased_of_storeTransfer rfl)
  case strbt => rw [exec_strbt] at e; exact phased_of_guarded e (phased_of_storeTransfer rfl)
  case strh => rw [exec_strh] at e; exact phased_of_guarded e (phased_of_storeTransfer rfl)
  case swp => rw [exec_swp] at e; exact phased_of_guarded e (phased_of_swapTransfer rfl)
  case swpb => rw [exec_swpb] at e; exact phased_of_guarded e (phased_of_swapTransfer rfl)
  case b => rw [exec_b] at e; exact phased_of_guarded e fun h => phased_of_writes (.of_writePc h)
  case bl =>
    rw [exec_bl] at e
    exact phased_of_guarded e fun h => phased_of_writes (.of_thenDo h (fun _ => .of_setReg) fun _ _ => .of_writePc)
  case bx =>
    rw [exec_bx] at e
    refine phased_of_guarded e fun h => ?_
    split at h
    · cases h
    · exact phased_of_writes (.of_writePc h)
  case ldm =>
    rw [exec_ldm] at e
    refine phased_of_guarded e fun h => ?_
    dsimp only at h
    split at h
    · rename_i u hm
      cases h
      exact ⟨u, accessed_of_read _ (readWords_eq_frame hm), .inl ⟨.data, by decide, rfl⟩⟩
    · rename_i vs u hm
      exact ⟨u, accessed_of_read _ (readWords_eq_frame hm), .inr (.inl (.of_finishLoad h))⟩
  case stm =>
    rw [exec_stm] at e
    refine phased_of_guarded e fun h => ?_
    dsimp only at h
    split at h
    · rename_i u hm
      cases h
      exact ⟨u, accessed_of_write rfl (writeWords_eq_frame hm), .inl ⟨.data, by decide, rfl⟩⟩
    · rename_i u hm
      exact ⟨u, accessed_of_write rfl (writeWords_eq_frame hm), .inr (.inl (.of_blockBase h))⟩

/-! ### What no instruction changes -/

/-- MSR writes a status register, and nothing else (R222). -/
theorem moveToStatus_frame {r : Bool} {fields : BitVec 4} {operand : Word} {u t : State}
    (e : moveToStatus r fields operand u = .next t) :
    t = { u with cpsr := t.cpsr, spsr := t.spsr } ∧ (r = false → t.spsr = u.spsr) := by
  unfold moveToStatus at e
  split at e
  · rename_i hr
    refine ⟨?_, fun h => by rw [hr] at h; cases h⟩
    split at e <;> cases e <;> rfl
  · obtain ⟨-, m, -, rfl⟩ := loadCpsr_eq_next.1 e
    exact ⟨rfl, fun _ => rfl⟩

/-- No instruction changes the cycle total, the halt flag, the Regions or the parameters, and only a store changes memory
(R75, R85, R148). -/
theorem exec_frame {i : Instr} {s t : State} (e : exec i s = .next t) :
    t.cycles = s.cycles ∧ t.halted = s.halted ∧ t.regions = s.regions ∧ t.clockRate = s.clockRate ∧
      t.costModel = s.costModel ∧ (stores i = false → t.mem = s.mem) := by
  obtain ⟨u, ⟨hu, hmem⟩, hend⟩ := exec_phased e
  have hut : t.cycles = u.cycles ∧ t.halted = u.halted ∧ t.regions = u.regions ∧ t.clockRate = u.clockRate ∧
      t.costModel = u.costModel ∧ t.mem = u.mem := by
    rcases hend with ⟨kind, -, rfl⟩ | hw | ⟨r, fields, operand, hm, -⟩
    · simp
    · rw [hw.frame]; exact ⟨rfl, rfl, rfl, rfl, rfl, rfl⟩
    · rw [(moveToStatus_frame hm).1]; exact ⟨rfl, rfl, rfl, rfl, rfl, rfl⟩
  obtain ⟨h1, h2, h3, h4, h5, h6⟩ := hut
  rw [h1, h2, h3, h4, h5, h6]
  refine ⟨?_, ?_, ?_, ?_, ?_, hmem⟩ <;> rw [hu]

theorem exec_cycles {i : Instr} {s t : State} (e : exec i s = .next t) : t.cycles = s.cycles := by
  obtain ⟨hcycles, -⟩ := exec_frame e
  exact hcycles

theorem exec_regions {i : Instr} {s t : State} (e : exec i s = .next t) : t.regions = s.regions := by
  obtain ⟨-, -, hregions, -⟩ := exec_frame e
  exact hregions

/-! ### The saved status registers -/

/-- Settles O19: of the three endings, register writes leave the saved words alone, an entry saves the CPSR of the state
that the accesses left, which is the old one, and MSR writes one only if it names it. -/
theorem savedStatusWriters : Obligations.SavedStatusWriters := by
  intro i s t hi e
  obtain ⟨u, ⟨hu, -⟩, hend⟩ := exec_phased e
  have hspsr : u.spsr = s.spsr := by rw [hu]
  have hcpsr : u.cpsr = s.cpsr := by rw [hu]
  rcases hend with ⟨kind, -, rfl⟩ | hw | ⟨r, fields, operand, hm, hr⟩
  · exact .inr ⟨kind, rfl, rfl, by rw [raiseException_spsr, hspsr, hcpsr]⟩
  · rw [hw.frame]
    exact .inl hspsr
  · have hfalse : r = false := by
      cases r
      · rfl
      · rw [hr rfl] at hi; cases hi
    exact .inl (((moveToStatus_frame hm).2 hfalse).trans hspsr)

end Sys2Proof.Machine
end

section
/-!
PROOFS. The register view (spec 10_state.md R22 to R26), the layout of a status word and its loading (R34 to R40), and
the instructions that move status words: MRS and MSR (42_psr_transfer.md R221 to R226), and the exception return of data
processing (41_data_processing.md R199).
-/

namespace Sys2Proof.Machine

/-! ### The register view -/

/-- The name that a physical register goes by, in every mode that sees it (R22, R25). -/
def slotName (p : Fin 30) : Reg :=
  if p.val < 15 then BitVec.ofNat 4 p.val
  else if p.val < 20 then BitVec.ofNat 4 (p.val - 7)
  else if p.val % 2 = 0 then 13#4 else 14#4

/-- The bank that a physical register from R8 up belongs to (R22, R24). -/
def slotBank (p : Fin 30) : Bank :=
  if p.val < 15 then .usr
  else if p.val < 22 then .fiq
  else if p.val < 24 then .irq
  else if p.val < 26 then .svc
  else if p.val < 28 then .abt else .und

theorem slotName_phys : ∀ (m : Mode) (r : Reg), r ≠ 15#4 → slotName (phys m r) = r := by
  intro m; cases m <;> decide

theorem slotBank_phys : ∀ (m : Mode) (r : Reg), ¬ r < 13#4 → r ≠ 15#4 → slotBank (phys m r) = bankOf m := by
  intro m; cases m <;> decide

theorem slotBank_phys_middle : ∀ (m : Mode) (r : Reg), ¬ r < 8#4 → r < 13#4 →
    slotBank (phys m r) = if m = .fiq then .fiq else .usr := by
  intro m; cases m <;> decide

theorem phys_of_lt_8 (m k : Mode) {r : Reg} (h : r < 8#4) : phys m r = phys k r := by simp [phys, h]

theorem phys_of_lt_13 {m k : Mode} {r : Reg} (h : r < 13#4) (hm : m ≠ .fiq) (hk : k ≠ .fiq) : phys m r = phys k r := by
  simp [phys, h, hm, hk]

/-- Two names for one physical register are one name, in modes that share it (R25). -/
theorem phys_eq_phys {m k : Mode} {r q : Reg} (hr : r ≠ 15#4) (hq : q ≠ 15#4) (h : phys m r = phys k q) :
    r = q ∧ (r < 8#4 ∨ (r < 13#4 ∧ (m = .fiq ↔ k = .fiq)) ∨ bankOf m = bankOf k) := by
  have hname : r = q := by rw [← slotName_phys m r hr, h, slotName_phys k q hq]
  subst hname
  refine ⟨rfl, ?_⟩
  by_cases h8 : r < 8#4
  · exact .inl h8
  · by_cases h13 : r < 13#4
    · have hbank := congrArg slotBank h
      rw [slotBank_phys_middle m r h8 h13, slotBank_phys_middle k r h8 h13] at hbank
      refine .inr (.inl ⟨h13, ?_⟩)
      by_cases hm : m = .fiq <;> by_cases hk : k = .fiq <;> simp [hm, hk] at hbank ⊢
    · have hbank := congrArg slotBank h
      rw [slotBank_phys m r h13 hr, slotBank_phys k r h13 hr] at hbank
      exact .inr (.inr hbank)

/-- Settles O22: by the laws of a written register, and by the name and bank of a physical register. -/
theorem registerView : Obligations.RegisterView := by
  refine ⟨fun s r v hr => ⟨_, setReg_of_ne v s hr, reg_setGpr_same v hr, fun q hq => reg_setGpr_ne v hr hq⟩,
    fun m k r h => phys_of_lt_8 m k h, fun m k r h hm hk => phys_of_lt_13 h hm hk, fun m k r q => phys_eq_phys,
    fun r => (phys_system r).symm⟩

/-! ### The layout of a status word -/

/-- The layout of a status word, bit by bit (R35, R40). -/
theorem bit_psrWord (p : Psr) {k : Nat} (hk : k < 32) :
    bit k (psrWord p) =
      if k = 31 then p.n else if k = 30 then p.z else if k = 29 then p.c else if k = 28 then p.v
      else if k = 7 then p.i else if k = 6 then p.f else if k = 5 then p.t
      else if k < 5 then bit k (modeNumber p.mode) else false := by
  unfold psrWord
  interval_cases k <;> simp

theorem fld_psrWord_mode (p : Psr) : fld 0 5 (psrWord p) = modeNumber p.mode := by simp [psrWord]

/-- A mode has one number (R36). -/
theorem modeNumber_of_modeOfNumber {n : BitVec 5} {m : Mode} (h : modeOfNumber n = some m) : modeNumber m = n := by
  revert n
  cases m <;> decide

theorem psrOf_psrWord {p : Psr} (h : p.t = false) : psrOf (psrWord p) p.mode = p := by
  simp [psrOf, bit_psrWord, ← h]

theorem loadCpsr_of_bad {w : Word} (s : State) (h : badStatus w) : loadCpsr w s = fatal .unsupportedState s := by
  unfold loadCpsr
  rcases h with h | h
  · simp [h]
  · simp [h]

theorem loadCpsr_of_good {w : Word} {m : Mode} (s : State) (ht : bit 5 w = false)
    (hm : modeOfNumber (fld 0 5 w) = some m) : loadCpsr w s = .next { s with cpsr := psrOf w m } :=
  loadCpsr_eq_next.2 ⟨ht, m, hm, rfl⟩

/-- Settles O23: the layout bit by bit; and `LoadCpsr` by its two checks, where the mode of a number is unique. -/
theorem statusWords : Obligations.StatusWords := by
  refine ⟨⟨fun p k hk => bit_psrWord p hk, fun s ht => ?reload⟩, ⟨rfl, rfl, rfl, rfl, rfl, rfl, rfl⟩,
    ⟨rfl, rfl, rfl, rfl, rfl, rfl, rfl⟩, fun w s => ⟨loadCpsr_of_bad s, fun m ht hm => ?good, fun hnone => ?illegal⟩⟩
  case reload =>
    rw [loadCpsr_of_good s (m := s.cpsr.mode) (by rw [bit_psrWord _ (by decide)]; exact ht)
      (by rw [fld_psrWord_mode, modeOfNumber_modeNumber]), psrOf_psrWord ht]
  case good => exact loadCpsr_of_good s ht (by rw [← hm, modeOfNumber_modeNumber])
  case illegal =>
    refine loadCpsr_of_bad s (.inr ?_)
    cases hm : modeOfNumber (fld 0 5 w) with
    | none => rfl
    | some m => exact absurd (modeNumber_of_modeOfNumber hm) (hnone m)

/-! ### Masks -/

theorem bit_fieldMask : ∀ (fields : BitVec 4) (k : Nat), k < 32 → bit k (fieldMask fields) = bit (k / 8) fields := by
  decide

theorem bit_and {n : Nat} (k : Nat) (v w : BitVec n) : bit k (v &&& w) = (bit k v && bit k w) := BitVec.getLsbD_and

/-- The mask of a write to the CPSR is the fields' mask, in User mode the flags' byte of it (R222, R224). -/
theorem bit_cpsrMask (m : Mode) (fields : BitVec 4) {k : Nat} (hk : k < 32) :
    bit k (cpsrMask m fields) = (bit (k / 8) fields && (!(m == .user) || decide (24 ≤ k))) := by
  have hbyte : bit k (0xFF000000 : Word) = decide (24 ≤ k) := by
    revert k; decide
  unfold cpsrMask
  split
  · rename_i hm
    rw [bit_and, hbyte, bit_fieldMask fields k hk, hm]; rfl
  · rename_i hm
    rw [bit_fieldMask fields k hk, beq_false_of_ne hm]; simp

theorem bit_merge (mask old operand : Word) {k : Nat} (hk : k < 32) :
    bit k (merge mask old operand) = if bit k mask then bit k operand else bit k old := by
  simp only [merge, bit, BitVec.getLsbD_or, BitVec.getLsbD_and, BitVec.getLsbD_not, hk, decide_true, Bool.true_and]
  by_cases h : mask.getLsbD k = true
  · simp only [h, Bool.not_true, Bool.and_false, Bool.and_true, Bool.false_or, if_true]
  · simp only [Bool.eq_false_of_not_eq_true h, Bool.not_false, Bool.and_false, Bool.and_true, Bool.or_false,
      Bool.false_eq_true, if_false]

/-- Two words with the same bits are equal. -/
theorem word_ext {v w : Word} (h : ∀ k, k < 32 → bit k v = bit k w) : v = w :=
  BitVec.eq_of_getLsbD_eq fun k hk => h k hk

/-- The bits of R222 make one word, which is the merge under the mask of those bits. -/
theorem eq_merge_of_mergedStatus {fields : BitVec 4} {flagsOnly : Bool} {mask old operand w : Word}
    (hw : mergedStatus fields flagsOnly old operand w)
    (hmask : ∀ k, k < 32 → bit k mask = (bit (k / 8) fields && (!flagsOnly || decide (24 ≤ k)))) :
    w = merge mask old operand :=
  word_ext fun k hk => by rw [hw k hk, bit_merge _ _ _ hk, hmask k hk]

/-- A field that the mask does not select is the old one. -/
theorem fld_merge_of_unmasked {mask : Word} (old operand : Word) {lo len : Nat} (hlen : lo + len ≤ 32)
    (h : ∀ k, lo ≤ k → k < lo + len → bit k mask = false) :
    fld lo len (merge mask old operand) = fld lo len old := by
  apply BitVec.eq_of_getLsbD_eq
  intro k hk
  change bit k (fld lo len _) = bit k (fld lo len _)
  rw [bit_fld _ hk, bit_fld _ hk, bit_merge _ _ _ (by omega), h _ (by omega) (by omega)]
  rfl

/-! ### MRS -/

theorem wroteRegister_setGpr (rd : Reg) (v : Word) (s : State) :
    wroteRegister rd v s (setGpr (phys s.cpsr.mode rd) v s) :=
  wroteRegister_setFlagsIf_setGpr false (flagsOf s) rd v s

/-- MRS reads the CPSR's word, or the SPSR where there is one (R221). -/
theorem moveFromStatus_of_word {r : Bool} {s : State} {v : Word} (rd : Reg) (hfalse : r = false → v = psrWord s.cpsr)
    (htrue : r = true → spsrOf (bankOf s.cpsr.mode) s.spsr = some v) : moveFromStatus r rd s = setReg rd v s := by
  cases r with
  | false => rw [hfalse rfl]; rfl
  | true => rw [moveFromStatus, if_pos rfl, readSpsr_of_some (htrue rfl)]

/-- Settles O33: both rows of MRS are one write of the word into Rd. -/
theorem mrsReadsStatus : Obligations.MrsReadsStatus := by
  intro c r rd s v hc hfalse htrue
  have hmrs : exec (.mrs c r rd) s = setReg rd v s :=
    (exec_mrs c r rd s).trans ((guarded_of_holds hc).trans (moveFromStatus_of_word rd hfalse htrue))
  have hmrsI : exec (.mrsI c r rd) s = setReg rd v s :=
    (exec_mrsI c r rd s).trans ((guarded_of_holds hc).trans (moveFromStatus_of_word rd hfalse htrue))
  refine ⟨fun hrd => ?_, fun hrd => ?_⟩
  · rw [setReg_of_ne v s hrd] at hmrs hmrsI
    exact ⟨_, hmrs, hmrsI, wroteRegister_setGpr rd v s, rfl⟩
  · subst hrd
    exact ⟨writesPc_of_writePc hmrs, writesPc_of_writePc hmrsI⟩

/-! ### MSR -/

/-- Both rows of MSR are one move of their operand (R222, R223). -/
theorem exec_of_msr {c : Cond} {r : Bool} {fields : BitVec 4} {rm : Reg} {rot : BitVec 4} {imm8 : BitVec 8} {s : State}
    {i : Instr} {operand : Word} (hc : condHolds c s.cpsr = true)
    (hi : (i = .msr c r fields rm ∧ operand = reg s rm) ∨
      (i = .msrI c r fields rot imm8 ∧ operand = rotatedImm rot imm8)) :
    exec i s = moveToStatus r fields operand s := by
  rcases hi with ⟨rfl, rfl⟩ | ⟨rfl, rfl⟩
  · exact (exec_msr c r fields rm s).trans (guarded_of_holds hc)
  · exact (exec_msrI c r fields rot imm8 s).trans (guarded_of_holds hc)

/-- The status word after an MSR in User mode: the flags' byte if selected, every other bit as before (R224). -/
theorem bit_merge_user {s : State} (hu : s.cpsr.mode = .user) (fields : BitVec 4) (operand : Word) {k : Nat}
    (hk : k < 32) :
    bit k (merge (cpsrMask s.cpsr.mode fields) (psrWord s.cpsr) operand) =
      if bit (k / 8) fields && decide (24 ≤ k) then bit k operand else bit k (psrWord s.cpsr) := by
  rw [bit_merge _ _ _ hk, bit_cpsrMask _ _ hk, hu]; simp

/-- In User mode MSR to the CPSR keeps the mode number (R224). -/
theorem fld_merge_user {s : State} (hu : s.cpsr.mode = .user) (fields : BitVec 4) (operand : Word) :
    fld 0 5 (merge (cpsrMask s.cpsr.mode fields) (psrWord s.cpsr) operand) = modeNumber .user := by
  rw [fld_merge_of_unmasked _ _ (by decide), fld_psrWord_mode, hu]
  intro k _ hk
  rw [bit_cpsrMask _ _ (by omega), hu, decide_eq_false (by omega)]
  simp

/-- In User mode MSR keeps the mode, whatever it names (R224, R225). -/
theorem moveToStatus_user {r : Bool} {fields : BitVec 4} {operand : Word} {u t : State} (hu : u.cpsr.mode = .user)
    (e : moveToStatus r fields operand u = .next t) : t.cpsr.mode = .user := by
  unfold moveToStatus at e
  split at e
  · split at e <;> cases e <;> exact hu
  · obtain ⟨-, m, hm, rfl⟩ := loadCpsr_eq_next.1 e
    rw [fld_merge_user hu, modeOfNumber_modeNumber] at hm
    exact (Option.some.inj hm).symm

/-- Settles O34: the loaded word is the merge, whose bits R222 gives; in User mode its control byte is the old one, which
`LoadCpsr` takes. -/
theorem msrWritesCpsr : Obligations.MsrWritesCpsr := by
  refine ⟨fun c fields rm rot imm8 s i operand w hc hi hw => ?every,
    fun c fields rm rot imm8 s i operand hc hu ht hi => ?user⟩
  case every =>
    have hmerge := eq_merge_of_mergedStatus hw fun k hk => bit_cpsrMask s.cpsr.mode fields hk
    have hexec : exec i s = loadCpsr w s := by rw [exec_of_msr hc hi, hmerge]; rfl
    exact ⟨fun hbad => ⟨s.draws, hexec.trans (loadCpsr_of_bad s hbad)⟩,
      fun m h5 hm => hexec.trans (loadCpsr_of_good s h5 hm)⟩
  case user =>
    have hbit {k : Nat} (hk : k < 32) := bit_merge_user hu fields operand hk
    have hmode := fld_merge_user hu fields operand
    have hexec : exec i s = loadCpsr (merge (cpsrMask s.cpsr.mode fields) (psrWord s.cpsr) operand) s :=
      exec_of_msr hc hi
    generalize merge (cpsrMask s.cpsr.mode fields) (psrWord s.cpsr) operand = w at hbit hmode hexec
    have h5 : bit 5 w = false := by rw [hbit (by decide), bit_psrWord _ (by decide)]; simpa using ht
    refine ⟨_, hexec.trans (loadCpsr_of_good s h5 (by rw [hmode, modeOfNumber_modeNumber])), ?flags, fun _ _ => rfl, rfl,
      rfl, ?control, ⟨rfl, rfl, rfl, rfl, rfl, rfl⟩, fun _ => rfl, rfl⟩
    case flags =>
      cases h3 : bit 3 fields <;> simp [flagsOf, psrOf, hbit, bit_psrWord, h3]
    case control => simp [sameControl, psrOf, hbit, bit_psrWord, ht, hu]

/-- Settles O35: MSR merges its operand into the saved word, and writes nothing where there is none. -/
theorem msrWritesSpsr : Obligations.MsrWritesSpsr := by
  intro c fields rm rot imm8 s i operand hc hi
  have hexec := exec_of_msr hc hi
  refine ⟨fun hnone => ?_, fun old w hold hw => ?_⟩
  · rw [hexec]; simp [moveToStatus, hnone]
  · have hmerge : w = merge (fieldMask fields) old operand :=
      eq_merge_of_mergedStatus hw fun k hk => by rw [bit_fieldMask fields k hk]; simp
    rw [hexec, hmerge]
    simp [moveToStatus, hold, setSpsr]

/-! ### The exception return -/

/-- A load of a status word, then a write of R15, from a state that differs at most in its draws: an exception return
(R199, R365). -/
theorem returnsTo_of_loadCpsr {i : Instr} {w v : Word} {s : State} {n : Nat}
    (hexec : exec i s = thenDo (loadCpsr w { s with draws := n }) (writePc v)) : returnsTo i w v s := by
  refine ⟨fun hbad => ⟨n, ?_⟩, fun m h5 hm => ⟨fun hv => ⟨n, ?_⟩, fun hv => ?_⟩⟩
  · rw [hexec, loadCpsr_of_bad _ hbad]; rfl
  · rw [hexec, loadCpsr_of_good _ h5 hm, thenDo_next, writePc_of_misaligned _ hv]; rfl
  · rw [hexec, loadCpsr_of_good _ h5 hm, thenDo_next, writePc_of_aligned _ hv]
    exact ⟨_, rfl, rfl, rfl, rfl, fun _ _ => rfl, ⟨rfl, rfl, rfl, rfl, rfl, rfl⟩, fun _ => rfl, rfl⟩

@[simp] theorem writeAlu_true_pc (r : Alu) (s : State) :
    writeAlu true 15#4 r s = thenDo (restoreCpsr s) (writePc r.value) := rfl

/-- Settles O31: with S = 1 and Rd = R15 the instruction loads the SPSR, then writes R15. -/
theorem dataProcessingReturn : Obligations.DataProcessingReturn := by
  intro i s v w hc hv hw
  obtain ⟨r, rfl, hexec⟩ := exec_of_dataResult hc hv
  refine returnsTo_of_loadCpsr (n := s.draws) ?_
  rw [hexec, writeAlu_true_pc, restoreCpsr_of_some hw]

end Sys2Proof.Machine
end

section
/-!
PROOFS. The step (spec 40_execution_cycle.md R140 to R150): what one turn of the loop of `Cpu.Run` can do, said once,
and the rules that follow for every step: its cost (R147), the invariant, the table of Regions (R85), and the privilege
rule (R371). With them the sampling point (R362) and the failed fetch (R358).
-/

namespace Sys2Proof.Machine

/-! ### The sampling point -/

/-- Settles O11: by the two tests of `SampleInterrupts`; an entry of FIQ masks IRQ before its test (R355). -/
theorem interruptsSampledFiqFirst : Obligations.InterruptsSampledFiqFirst := by
  intro s
  refine ⟨fun hline hmask => ?fiq, fun hoff hline hmask => ?irq, fun ⟨hfiq, hirq⟩ => ?none⟩
  case fiq => simp [sampleInterrupts, hline, hmask, entryPsr]
  case irq =>
    have hfiq : (s.sched.fiq && !s.cpsr.f) = false := by rcases hoff with h | h <;> simp [h]
    simp [sampleInterrupts, hfiq, hline, hmask]
  case none => simp [sampleInterrupts, hfiq, hirq]

/-- The sampling point enters an exception other than Reset, or does nothing (R150). -/
theorem sampleInterrupts_cases (s : State) :
    sampleInterrupts s = s ∨ ∃ kind u, kind ≠ .reset ∧ sampleInterrupts s = raiseException kind u := by
  unfold sampleInterrupts
  dsimp only
  split <;> split
  · exact .inr ⟨.irq, _, by decide, rfl⟩
  · exact .inr ⟨.fiq, s, by decide, rfl⟩
  · exact .inr ⟨.irq, s, by decide, rfl⟩
  · exact .inl rfl

@[simp] theorem sampleInterrupts_cycles (s : State) : (sampleInterrupts s).cycles = s.cycles := by
  unfold sampleInterrupts; dsimp only; split <;> split <;> simp

@[simp] theorem sampleInterrupts_regions (s : State) : (sampleInterrupts s).regions = s.regions := by
  unfold sampleInterrupts; dsimp only; split <;> split <;> simp

/-! ### One step -/

/-- A step that answers is `Step()` of a machine that runs, then the sampling (R149). -/
theorem step_eq_next {s t : State} :
    step s = .next t ↔ s.halted = none ∧ ∃ u, cpuStep s = .next u ∧ clearMark (sampleInterrupts u) = t := by
  unfold step
  cases s.halted <;> simp [runTurn, thenDo_eq_next]

theorem cpuStep_of_failed {s u : State} (h : memRead s s.pc .word = (none, u)) : cpuStep s = .next (fetchFault u) := by
  simp [cpuStep, h]

/-- `Step()` takes the Prefetch Abort, or runs the fetched instruction and adds its cost (R140, R358). -/
theorem cpuStep_eq_next {s u : State} (e : cpuStep s = .next u) :
    (∃ v, memRead s s.pc .word = (none, v) ∧ u = fetchFault v) ∨
    ∃ iw v w, memRead s s.pc .word = (some iw, v) ∧ exec (decodeWord iw) (enterExecute v) = .next w ∧
      u = finish (cost (decodeWord iw) iw (enterExecute v)) w := by
  rcases hfetch : memRead s s.pc .word with ⟨_ | iw, v⟩
  · rw [cpuStep_of_failed hfetch] at e
    cases e
    exact .inl ⟨v, rfl, rfl⟩
  · rw [cpuStep_of_fetched hfetch, runWord] at e
    obtain ⟨w, hw, hu⟩ := thenDo_eq_next.1 e
    cases hu
    exact .inr ⟨iw, v, w, rfl, hw, rfl⟩

/-- Settles O5: a step is the fetch, then `exec` of the decoded word with the bookkeeping around it; four bytes of a
readable buffer are fetched as their word, with nothing changed. -/
theorem stepRunsTheDecodedInstruction : Obligations.StepRunsTheDecodedInstruction := by
  intro s i hrun
  have fetched (iw : Word) (t : State) (hfetch : memRead s s.pc .word = (some iw, t)) (hi : decodeWord iw = i) :
      step s = thenDo (exec i { t with pc := t.pc + 8, pcAltered := false }) fun u =>
        .next (clearMark (sampleInterrupts
          (finish (cost i iw { t with pc := t.pc + 8, pcAltered := false }) u))) := by
    subst hi
    simp only [step, hrun, runTurn, cpuStep_of_fetched hfetch, runWord, enterExecute]
    generalize exec (decodeWord iw) _ = r
    cases r <;> rfl
  refine ⟨fetched, fun r haligned hr hkind hdecode => fetched _ s ?_ ?_⟩
  · have hpc : (alignTo .word s.pc).toNat = s.pc.toNat := by
      rw [toNat_alignTo, Width.bytes, fld_low_two.1 haligned, Nat.sub_zero]
    rw [← hpc] at hr ⊢
    exact memRead_buffer hr hkind
  · exact congrArg Prod.fst (Except.ok.inj hdecode)

/-- A property that every update of an instruction keeps, and the bookkeeping around it too, is kept by every step. -/
theorem step_closed {P : State → Prop} (c : Closed P) (enter : ∀ s, P s → P (enterExecute s))
    (leave : ∀ n s, P s → P (finish n s)) (clear : ∀ s, P s → P (clearMark s)) {s t : State} (h : P s)
    (e : step s = .next t) : P t := by
  obtain ⟨-, u, hu, rfl⟩ := step_eq_next.1 e
  refine clear _ (c.sampleInterrupts ?_)
  rcases cpuStep_eq_next hu with ⟨v, hfetch, rfl⟩ | ⟨iw, v, w, hfetch, hexec, rfl⟩
  · exact leave _ _ (c.raise _ .prefetch (by decide) (enter v (c.read _ _ _ _ _ hfetch h)))
  · exact leave _ _ (exec_closed c (enter v (c.read _ _ _ _ _ hfetch h)) hexec)

/-! ### The invariant -/

theorem fit_of_inv {s : State} (h : s.Inv) : Fit s := ⟨h.1, h.2.2⟩

theorem inv_of_fit {s : State} (h : Fit s) (hmark : s.pcAltered = false) : s.Inv := ⟨h.1, hmark, h.2⟩

theorem Fit.clearMark {s : State} (h : Fit s) : Fit (clearMark s) := h.of_eq h.pc h.t rfl rfl rfl rfl

/-- Settles O14: `Fit`, the part of the invariant that holds inside a step as well, is kept by every update, and the
mark is dropped at the end of a step. -/
theorem everyStepKeepsInvariant : Obligations.EveryStepKeepsInvariant := by
  intro s t hinv e
  have hfit : Fit t :=
    step_closed fit_closed (fun _ h => h.enterExecute) (fun n _ h => h.finish n) (fun _ h => h.clearMark)
      (fit_of_inv hinv) e
  obtain ⟨-, u, -, rfl⟩ := step_eq_next.1 e
  exact inv_of_fit hfit rfl

/-! ### Privilege -/

/-- In User mode, or at the vector of an exception other than Reset, in its mode, with IRQ masked (R353, R371). -/
def userOrEntered (s : State) : Prop :=
  s.cpsr.mode = .user ∨
    ∃ kind, kind ≠ .reset ∧ s.pc = vectorOf kind ∧ s.cpsr.mode = targetMode kind ∧ s.cpsr.i = true

theorem userOrEntered_raiseException {kind : Exception} (s : State) (h : kind ≠ .reset) :
    userOrEntered (raiseException kind s) := .inr ⟨kind, h, rfl, rfl, rfl⟩

/-- An instruction that starts in User mode ends there, or in an exception it raised. -/
theorem exec_userOrEntered {i : Instr} {s t : State} (hs : s.cpsr.mode = .user) (e : exec i s = .next t) :
    t.cpsr.mode = .user ∨ ∃ kind u, kind ≠ .reset ∧ t = raiseException kind u := by
  obtain ⟨u, ⟨hu, -⟩, hend⟩ := exec_phased e
  have huser : u.cpsr.mode = .user := by rw [hu]; exact hs
  rcases hend with ⟨kind, hk, rfl⟩ | hw | ⟨r, fields, operand, hm, -⟩
  · exact .inr ⟨kind, u, hk, rfl⟩
  · exact .inl (hw.user huser)
  · exact .inl (moveToStatus_user huser hm)

theorem finish_raiseException (n : Nat) (kind : Exception) (s : State) :
    finish n (raiseException kind s) = raiseException kind { s with cycles := s.cycles + n } := by
  cases kind <;> rfl

/-- `Step()` of a machine in User mode ends there, or at the vector of an exception (R371). -/
theorem cpuStep_userOrEntered {s u : State} (hs : s.cpsr.mode = .user) (e : cpuStep s = .next u) :
    userOrEntered u := by
  rcases cpuStep_eq_next e with ⟨v, hfetch, rfl⟩ | ⟨iw, v, w, hfetch, hexec, rfl⟩
  · rw [fetchFault, finish_raiseException]
    exact userOrEntered_raiseException _ (by decide)
  · have hv : (enterExecute v).cpsr.mode = .user := by rw [memRead_frame hfetch]; exact hs
    rcases exec_userOrEntered hv hexec with hw | ⟨kind, v', hk, rfl⟩
    · exact .inl hw
    · rw [finish_raiseException]
      exact userOrEntered_raiseException _ hk

/-- Settles O13: `Step()` stays in User mode or enters an exception, and so does the sampling after it. -/
theorem onlyExceptionsLeaveUserMode : Obligations.OnlyExceptionsLeaveUserMode := by
  intro s t hs e hleft
  obtain ⟨-, u, hu, rfl⟩ := step_eq_next.1 e
  have hsampled : userOrEntered (sampleInterrupts u) := by
    rcases sampleInterrupts_cases u with h | ⟨kind, v, hk, h⟩ <;> rw [h]
    · exact cpuStep_userOrEntered hs hu
    · exact userOrEntered_raiseException v hk
  exact hsampled.resolve_left hleft

/-! ### The table of Regions and memory -/

/-- No step changes the table of Regions (R85). -/
theorem step_regions {s t : State} (e : step s = .next t) : t.regions = s.regions := by
  obtain ⟨-, u, hu, rfl⟩ := step_eq_next.1 e
  rw [clearMark_regions, sampleInterrupts_regions]
  rcases cpuStep_eq_next hu with ⟨v, hfetch, rfl⟩ | ⟨iw, v, w, hfetch, hexec, rfl⟩
  · rw [fetchFault, finish_regions, raiseException_regions, enterExecute_regions, memRead_frame hfetch]
  · rw [finish_regions, exec_regions hexec, enterExecute_regions, memRead_frame hfetch]

/-! ### Costs -/

/-- Every cost of the default table is at least 1 (R147, R410). -/
theorem tableCost_pos (i : Instr) (s : State) : 0 < tableCost i s := by
  cases i <;> simp only [tableCost] <;> omega

theorem cost_pos (i : Instr) (iw : Word) (s : State) : 0 < cost i iw s := by
  unfold cost
  split
  · split
    · exact tableCost_pos i s
    · omega
  · exact Nat.one_pos

theorem prefetchCost_pos (s : State) : 0 < prefetchCost s := by
  unfold prefetchCost
  split <;> omega

/-- The cost of a failed fetch does not depend on what Devices did in it. -/
theorem prefetchCost_memRead {s v : State} {addr : Word} {w : Width} {o : Option Word}
    (h : memRead s addr w = (o, v)) : prefetchCost v = prefetchCost s := by
  rw [memRead_frame h]; rfl

/-- The cycles of a step are those of its `Step()`: the sampling adds none (R148). -/
theorem step_cycles {s t : State} (e : step s = .next t) :
    (∃ v, memRead s s.pc .word = (none, v) ∧ t.cycles = s.cycles + prefetchCost s) ∨
    ∃ iw v, memRead s s.pc .word = (some iw, v) ∧
      t.cycles = s.cycles + cost (decodeWord iw) iw (enterExecute v) := by
  obtain ⟨-, u, hu, rfl⟩ := step_eq_next.1 e
  rw [clearMark_cycles, sampleInterrupts_cycles]
  rcases cpuStep_eq_next hu with ⟨v, hfetch, rfl⟩ | ⟨iw, v, w, hfetch, hexec, rfl⟩
  · have hcycles : v.cycles = s.cycles := by rw [memRead_frame hfetch]
    refine .inl ⟨v, hfetch, ?_⟩
    rw [fetchFault, finish_cycles, raiseException_cycles, enterExecute_cycles, prefetchCost_memRead hfetch, hcycles]
  · have hcycles : v.cycles = s.cycles := by rw [memRead_frame hfetch]
    refine .inr ⟨iw, v, hfetch, ?_⟩
    rw [finish_cycles, exec_cycles hexec, enterExecute_cycles, hcycles]

/-- Every step costs at least one cycle (R147). -/
theorem step_cycles_lt {s t : State} (e : step s = .next t) : s.cycles < t.cycles := by
  rcases step_cycles e with ⟨v, -, h⟩ | ⟨iw, v, -, h⟩ <;> rw [h]
  · exact Nat.lt_add_of_pos_right (prefetchCost_pos s)
  · exact Nat.lt_add_of_pos_right (cost_pos ..)

/-- Settles O9: by the two forms of a step and the bounds of their costs. -/
theorem stepAddsItsCost : Obligations.StepAddsItsCost := by
  intro s t e
  refine ⟨step_cycles_lt e, fun iw u hfetch => ?_, fun u hfetch => ?_⟩ <;>
    rcases step_cycles e with ⟨v, h, hc⟩ | ⟨iw', v, h, hc⟩ <;> rw [h] at hfetch <;> cases hfetch <;> exact hc

/-! ### The failed fetch -/

/-- Settles O10: `FetchFault` is one entry of the Prefetch Abort from R15 = A + 8, with its cost added. -/
theorem fetchFaultTakesPrefetchAbort : Obligations.FetchFaultTakesPrefetchAbort := by
  intro s u hfetch
  have hframe : sameButDevices s u := memRead_frame hfetch
  have hpc : u.pc = s.pc := by rw [hframe]
  have hcycles : u.cycles = s.cycles := by rw [hframe]
  let v : State := { u with pc := s.pc + 8, cycles := s.cycles + prefetchCost u }
  have hfault : fetchFault u = raiseException .prefetch v := by
    rw [fetchFault, finish_raiseException, enterExecute, hpc, hcycles]; rfl
  have hlink : (raiseException .prefetch v).gpr[phys .abort 14#4] = s.pc + 4 := by
    rw [show s.pc + 4 = s.pc + 8 - 4 by bv_omega]
    exact raiseException_link .prefetch v (by decide)
  refine ⟨hframe, raiseException .prefetch v, prefetchCost u, ?_, prefetchCost_pos u, rfl,
    entered_raiseException .prefetch v, hlink, rfl⟩
  rw [cpuStep_of_failed hfetch, hfault]

end Sys2Proof.Machine
end

section
/-!
PROOFS. The decoder and the encoder (spec 30_encoding.md R100 to R125): one round trip per format, the words that trap
(R306 to R310), and the conditions.
-/

namespace Sys2Proof

/-! ### Keys -/

/-- One field of another format is enough to tell a word from BX (R102, R117). -/
theorem bxKey_eq_false {iw : Word}
    (h : bit 24 iw = false ∨ bit 23 iw = true ∨ bit 21 iw = false ∨ bit 20 iw = true ∨ fld 8 4 iw ≠ 15#4 ∨
      bit 7 iw = true) : bxKey iw = false := by
  by_contra hk
  obtain ⟨h24, h23, h21, h20, h8, h7⟩ := bxKey_fields (Bool.eq_true_of_not_eq_false hk)
  simp [h24, h23, h21, h20, h8, h7] at h

/-- BX has the key of MRS and MSR as well, and is tested first (R102). -/
theorem bxKey_eq_false_of_psrKey {iw : Word} (h : psrKey iw = false) : bxKey iw = false := by
  by_contra hk
  obtain ⟨h24, h23, -, h20, -, -⟩ := bxKey_fields (Bool.eq_true_of_not_eq_false hk)
  have h2 : fld 23 2 iw = 0b10#2 := by
    apply BitVec.eq_of_getLsbD_eq
    intro k hk
    change bit k (fld 23 2 iw) = _
    rw [bit_fld _ hk]
    interval_cases k
    · exact h23
    · exact h24
  simp [psrKey, h2, h20] at h

/-! ### Format DP -/

/-- The data-processing instruction of an opcode and its fields (R111). -/
def dataInstr (c : Cond) (opcode : BitVec 4) (s : Bool) (rn rd : Reg) (o : Operand2) : Instr :=
  match opcode.toNat with
  | 0 => .and c s rd rn o
  | 1 => .eor c s rd rn o
  | 2 => .sub c s rd rn o
  | 3 => .rsb c s rd rn o
  | 4 => .add c s rd rn o
  | 5 => .adc c s rd rn o
  | 6 => .sbc c s rd rn o
  | 7 => .rsc c s rd rn o
  | 8 => .tst c rn o
  | 9 => .teq c rn o
  | 10 => .cmp c rn o
  | 11 => .cmn c rn o
  | 12 => .orr c s rd rn o
  | 13 => .mov c s rd o
  | 14 => .bic c s rd rn o
  | _ => .mvn c s rd o

theorem dataOf_eq (c : Cond) (iw : Word) :
    dataOf c iw = dataInstr c (fld 21 4 iw) (bit 20 iw) (fld 16 4 iw) (fld 12 4 iw) (operand2Of iw) := rfl

/-- Operand 2 is read back from a word of format DP (R112). -/
theorem operand2Of_encodeData (c : Cond) (opcode : BitVec 4) (s : Bool) (rn rd : Reg) (o : Operand2) :
    operand2Of (encodeData c opcode s rn rd o) = o := by
  cases o <;> simp [operand2Of, encodeData, Operand2.classBits, Operand2.code]

theorem dataOf_encodeData (c : Cond) (opcode : BitVec 4) (s : Bool) (rn rd : Reg) (o : Operand2) :
    dataOf c (encodeData c opcode s rn rd o) = dataInstr c opcode s rn rd o := by
  rw [dataOf_eq, operand2Of_encodeData]
  simp [encodeData]

/-- A comparison with S = 0 is not of format DP: its word has the key of MRS and MSR (R113). -/
theorem psrKey_encodeData {opcode : BitVec 4} {s : Bool} (h : fld 2 2 opcode = 0b10#2 → s = true) (c : Cond)
    (rn rd : Reg) (o : Operand2) : psrKey (encodeData c opcode s rn rd o) = false := by
  by_cases h2 : fld 2 2 opcode = 0b10#2 <;> simp [psrKey, encodeData, h2, h]

/-- Format DP round trip (R111, R112). -/
theorem decodeWord_encodeData {opcode : BitVec 4} {s : Bool} (h : fld 2 2 opcode = 0b10#2 → s = true) (c : Cond)
    (rn rd : Reg) (o : Operand2) : decodeWord (encodeData c opcode s rn rd o) = dataInstr c opcode s rn rd o := by
  have hpsr := psrKey_encodeData h c rn rd o
  have hbx := bxKey_eq_false_of_psrKey hpsr
  have hdata := dataOf_encodeData c opcode s rn rd o
  have hcond : fld 28 4 (encodeData c opcode s rn rd o) = c.code := fld_cond _ _
  have hclass : fld 25 3 (encodeData c opcode s rn rd o) = o.classBits := by simp [encodeData]
  cases o with
  | imm rot imm8 => simp [decodeWord, hclass, hcond, Operand2.classBits, classOne, hpsr, hdata]
  | shiftImm rm ty n =>
    have h4 : bit 4 (encodeData c opcode s rn rd (.shiftImm rm ty n)) = false := by simp [encodeData, Operand2.code]
    simp [decodeWord, hclass, hcond, Operand2.classBits, classZero, hbx, h4, hpsr, hdata]
  | shiftReg rm ty rs =>
    have h7 : bit 7 (encodeData c opcode s rn rd (.shiftReg rm ty rs)) = false := by simp [encodeData, Operand2.code]
    simp [decodeWord, hclass, hcond, Operand2.classBits, classZero, hbx, h7, hpsr, hdata]

/-! ### Format SINGLE -/

/-- The address operand is read back from a word of format SINGLE (R119). -/
theorem addressOf_encodeSingle (c : Cond) (byte l : Bool) (rd : Reg) (a : Address) :
    addressOf (encodeSingle c byte l rd a) = a := by
  obtain ⟨p, u, w, rn, off⟩ := a
  cases off <;> simp [addressOf, offsetOf, encodeSingle, Offset.classBits, Offset.code]

/-- A word of format SINGLE is decoded by its class's handler (R102). -/
theorem decodeWord_encodeSingle (c : Cond) (byte l : Bool) (rd : Reg) (a : Address) :
    decodeWord (encodeSingle c byte l rd a) = singleOf c (encodeSingle c byte l rd a) := by
  have hcond : fld 28 4 (encodeSingle c byte l rd a) = c.code := fld_cond _ _
  have hclass : fld 25 3 (encodeSingle c byte l rd a) = a.off.classBits := by simp [encodeSingle]
  obtain ⟨p, u, w, rn, off⟩ := a
  cases off with
  | imm off => simp [decodeWord, hclass, hcond, Offset.classBits]
  | reg rm ty n =>
    have h4 : bit 4 (encodeSingle c byte l rd ⟨p, u, w, rn, .reg rm ty n⟩) = false := by
      simp [encodeSingle, Offset.code]
    simp [decodeWord, hclass, hcond, Offset.classBits, classThree, h4]

/-- The fields of a word of format SINGLE, as its handler reads them (R119). -/
theorem encodeSingle_fields (c : Cond) (byte l : Bool) (rd : Reg) (a : Address) :
    let iw := encodeSingle c byte l rd a
    bit 24 iw = a.p ∧ bit 21 iw = a.w ∧ bit 22 iw = byte ∧ bit 20 iw = l ∧ fld 12 4 iw = rd := by
  simp [encodeSingle]

/-- Format SINGLE round trip of the plain forms (R119). -/
theorem singleOf_encodeSingle_plain {a : Address} (h : a.plain = true) (c : Cond) (byte l : Bool) (rd : Reg) :
    singleOf c (encodeSingle c byte l rd a) =
      if byte then (if l then .ldrb c rd a else .strb c rd a) else (if l then .ldr c rd a else .str c rd a) := by
  obtain ⟨h24, h21, h22, h20, hrd⟩ := encodeSingle_fields c byte l rd a
  have hplain : (!a.p && a.w) = false := by
    cases hp : a.p <;> cases hw : a.w <;> simp [Address.plain, hp, hw] at h ⊢
  simp only [singleOf, addressOf_encodeSingle, h24, h21, h22, h20, hrd, hplain]
  cases byte <;> cases l <;> rfl

/-- Format SINGLE round trip of the T variants (R119). -/
theorem singleOf_encodeSingle_translated (c : Cond) (byte l : Bool) (rd : Reg) (u : Bool) (rn : Reg) (off : Offset) :
    singleOf c (encodeSingle c byte l rd ⟨false, u, true, rn, off⟩) =
      if byte then (if l then .ldrbt c rd u rn off else .strbt c rd u rn off)
      else (if l then .ldrt c rd u rn off else .strt c rd u rn off) := by
  obtain ⟨h24, h21, h22, h20, hrd⟩ := encodeSingle_fields c byte l rd ⟨false, u, true, rn, off⟩
  simp only [singleOf, addressOf_encodeSingle, h24, h21, h22, h20, hrd]
  cases byte <;> cases l <;> rfl

/-! ### Format HALFWORD -/

/-- The address operand is read back from a word of format HALFWORD (R118). -/
theorem halfAddressOf_encodeHalfword (c : Cond) (l : Bool) (sh : BitVec 2) (rd : Reg) (a : HalfAddress) :
    halfAddressOf (encodeHalfword c l sh rd a) = a := by
  obtain ⟨p, u, w, rn, off⟩ := a
  cases off <;>
    simp [halfAddressOf, halfOffsetOf, encodeHalfword, HalfOffset.isImm, HalfOffset.high, HalfOffset.low]

/-- The halfword instruction of L, SH and its operands (R118). -/
def halfwordInstr (c : Cond) (l : Bool) (sh : BitVec 2) (rd : Reg) (a : HalfAddress) : Instr :=
  match l, sh.toNat with
  | true, 2 => .ldrsb c rd a
  | true, 3 => .ldrsh c rd a
  | true, _ => .ldrh c rd a
  | false, 2 => .halfwordL0Sh2 c rd a
  | false, 3 => .halfwordL0Sh3 c rd a
  | false, _ => .strh c rd a

theorem halfwordOf_eq (c : Cond) (iw : Word) :
    halfwordOf c iw = halfwordInstr c (bit 20 iw) (fld 5 2 iw) (fld 12 4 iw) (halfAddressOf iw) := rfl

/-- Format HALFWORD round trip (R118). -/
theorem decodeWord_encodeHalfword {sh : BitVec 2} (h : sh ≠ 0#2) (c : Cond) (l : Bool) (rd : Reg) (a : HalfAddress) :
    decodeWord (encodeHalfword c l sh rd a) = halfwordInstr c l sh rd a := by
  have h7 : bit 7 (encodeHalfword c l sh rd a) = true := by simp [encodeHalfword]
  have h4 : bit 4 (encodeHalfword c l sh rd a) = true := by simp [encodeHalfword]
  have hl : bit 20 (encodeHalfword c l sh rd a) = l := by simp [encodeHalfword]
  have hsh : fld 5 2 (encodeHalfword c l sh rd a) = sh := by simp [encodeHalfword]
  have hrd : fld 12 4 (encodeHalfword c l sh rd a) = rd := by simp [encodeHalfword]
  have hcond : fld 28 4 (encodeHalfword c l sh rd a) = c.code := fld_cond _ _
  have hclass : fld 25 3 (encodeHalfword c l sh rd a) = 0#3 := by simp [encodeHalfword]
  have hbx := bxKey_eq_false (.inr (.inr (.inr (.inr (.inr h7)))))
  have hhandler : decodeWord (encodeHalfword c l sh rd a) = halfwordOf c (encodeHalfword c l sh rd a) := by
    simp [decodeWord, hclass, hcond, classZero, hbx, h7, h4, hsh, h]
  rw [hhandler, halfwordOf_eq, hl, hsh, hrd, halfAddressOf_encodeHalfword]

/-! ### The round trip -/

/-- Every well-formed instruction is decoded from its standard word (R102, R111 to R123). -/
theorem decodeWord_encode {i : Instr} (h : wellFormed i = true) : decodeWord (encode i) = i := by
  cases i
  case and | eor | sub | rsb | add | adc | sbc | rsc | orr | mov | bic | mvn =>
    exact decodeWord_encodeData (fun h => by cases h) _ _ _ _
  case tst | teq | cmp | cmn => exact decodeWord_encodeData (fun _ => rfl) _ _ _ _
  case ldr | ldrb | str | strb =>
    exact (decodeWord_encodeSingle ..).trans (singleOf_encodeSingle_plain h ..)
  case ldrt | ldrbt | strt | strbt =>
    exact (decodeWord_encodeSingle ..).trans (singleOf_encodeSingle_translated ..)
  case ldrh | ldrsb | ldrsh | strh | halfwordL0Sh2 | halfwordL0Sh3 =>
    exact decodeWord_encodeHalfword (by decide) _ _ _ _
  case mul | mla | umull | umlal | smull | smlal =>
    simp [decodeWord, encode, encodeMultiply, classZero, multiplyOf, bxKey_eq_false]
  case swp | swpb => simp [decodeWord, encode, encodeSwap, classZero, multiplyOf, bxKey_eq_false]
  case bx => simp [decodeWord, encode, classZero, bxKey]
  case mrs => simp [decodeWord, encode, encodeMrs, classZero, psrKey, psrRegOf, bxKey_eq_false]
  case msr => simp [decodeWord, encode, encodeMsr, classZero, psrKey, psrRegOf, bxKey_eq_false]
  case mrsI => simp [decodeWord, encode, encodeMrs, classOne, psrKey, psrImmOf]
  case msrI => simp [decodeWord, encode, encodeMsr, classOne, psrKey, psrImmOf]
  case undefined => simp [decodeWord, encode, classThree]
  case ldm | stm => simp [decodeWord, encode, encodeBlock, blockOf]
  case b | bl => simp [decodeWord, encode, branchOf]
  case ldc | stc => simp [decodeWord, encode, encodeTransfer, coprocTransferOf]
  case swi | cdp => simp [decodeWord, encode, classSeven]
  case mrc | mcr => simp [decodeWord, encode, encodeCoprocReg, classSeven]

/-- Settles O1: four bytes are decoded as their word, and the word of a well-formed instruction is read back format by
format. -/
theorem decodeEncodeRoundTrip : Obligations.DecodeEncodeRoundTrip := by
  intro i rest h
  rw [encodeBytes, decode_bytesOfWord, decodeWord_encode h]

/-! ### Every word -/

/-- What an instruction is by R306 to R310 and R123: well-formed, trapping as `traps` says, SWI as `swi` says. -/
def sorted (i : Instr) (traps swi : Bool) : Prop :=
  wellFormed i = true ∧ Machine.trapsUndefined i = traps ∧ ((∃ c n, i = .swi c n) ↔ swi = true)

/-- Any instruction but SWI. -/
theorem sorted_of_ne_swi {i : Instr} {traps : Bool} (hwf : wellFormed i = true)
    (htraps : Machine.trapsUndefined i = traps) (hswi : ∀ c n, i ≠ .swi c n) : sorted i traps false :=
  ⟨hwf, htraps, by simpa using hswi⟩

theorem sorted_dataOf (c : Cond) (iw : Word) : sorted (dataOf c iw) false false := by
  unfold dataOf; dsimp only; split <;> exact sorted_of_ne_swi rfl rfl nofun

theorem sorted_psrRegOf (c : Cond) (iw : Word) : sorted (psrRegOf c iw) false false := by
  unfold psrRegOf; split <;> exact sorted_of_ne_swi rfl rfl nofun

theorem sorted_psrImmOf (c : Cond) (iw : Word) : sorted (psrImmOf c iw) false false := by
  unfold psrImmOf; split <;> exact sorted_of_ne_swi rfl rfl nofun

theorem sorted_multiplyOf (c : Cond) (iw : Word) : sorted (multiplyOf c iw) false false := by
  unfold multiplyOf
  dsimp only
  split
  · split <;> exact sorted_of_ne_swi rfl rfl nofun
  · split <;> split <;> exact sorted_of_ne_swi rfl rfl nofun

theorem sorted_halfwordOf (c : Cond) (iw : Word) : sorted (halfwordOf c iw) false false := by
  unfold halfwordOf; dsimp only; split <;> exact sorted_of_ne_swi rfl rfl nofun

theorem sorted_classZero (c : Cond) (iw : Word) : sorted (classZero c iw) false false := by
  unfold classZero
  split
  · exact sorted_of_ne_swi rfl rfl nofun
  · split
    · split
      · exact sorted_multiplyOf c iw
      · exact sorted_halfwordOf c iw
    · split
      · exact sorted_psrRegOf c iw
      · exact sorted_dataOf c iw

theorem sorted_classOne (c : Cond) (iw : Word) : sorted (classOne c iw) false false := by
  unfold classOne
  split
  · exact sorted_psrImmOf c iw
  · exact sorted_dataOf c iw

/-- The plain forms of format SINGLE are well-formed where their handler is reached: P = 0 with W = 1 is not (R119). -/
theorem sorted_singleOf (c : Cond) (iw : Word) : sorted (singleOf c iw) false false := by
  unfold singleOf
  dsimp only
  split
  · split <;> exact sorted_of_ne_swi rfl rfl nofun
  · rename_i h
    have hplain : (addressOf iw).plain = true := by
      cases hp : bit 24 iw <;> cases hw : bit 21 iw <;> simp [Address.plain, addressOf, hp, hw] at h ⊢
    split <;> exact sorted_of_ne_swi hplain rfl nofun

theorem sorted_classThree (c : Cond) (iw : Word) : sorted (classThree c iw) (bit 4 iw) false := by
  unfold classThree
  split
  · rename_i h
    rw [h]
    exact sorted_of_ne_swi rfl rfl nofun
  · rename_i h
    rw [Bool.eq_false_of_not_eq_true h]
    exact sorted_singleOf c iw

theorem sorted_blockOf (c : Cond) (iw : Word) : sorted (blockOf c iw) false false := by
  unfold blockOf; split <;> exact sorted_of_ne_swi rfl rfl nofun

theorem sorted_branchOf (c : Cond) (iw : Word) : sorted (branchOf c iw) false false := by
  unfold branchOf; split <;> exact sorted_of_ne_swi rfl rfl nofun

theorem sorted_coprocTransferOf (c : Cond) (iw : Word) : sorted (coprocTransferOf c iw) true false := by
  unfold coprocTransferOf; split <;> exact sorted_of_ne_swi rfl rfl nofun

theorem sorted_classSeven (c : Cond) (iw : Word) : sorted (classSeven c iw) (!bit 24 iw) (bit 24 iw) := by
  unfold classSeven
  split
  · rename_i h
    rw [h]
    exact ⟨rfl, rfl, iff_of_true ⟨_, _, rfl⟩ rfl⟩
  · rename_i h
    rw [Bool.eq_false_of_not_eq_true h]
    split
    · split <;> exact sorted_of_ne_swi rfl rfl nofun
    · exact sorted_of_ne_swi rfl rfl nofun

/-- Which words trap, and which are SWI, by class and one bit (R102, R123, R306 to R310). -/
theorem sorted_decodeWord (w : Word) :
    sorted (decodeWord w)
      ((fld 25 3 w == 3#3 && bit 4 w) || fld 25 3 w == 6#3 || (fld 25 3 w == 7#3 && !bit 24 w))
      (fld 25 3 w == 7#3 && bit 24 w) := by
  unfold decodeWord
  dsimp only
  generalize Cond.ofCode (fld 28 4 w) = c
  have class_of {k : Nat} (hk : (fld 25 3 w).toNat = k) : fld 25 3 w = BitVec.ofNat 3 k := by
    rw [← hk, BitVec.ofNat_toNat]; simp
  split
  case h_1 h => rw [class_of h]; exact sorted_classZero c w
  case h_2 h => rw [class_of h]; exact sorted_classOne c w
  case h_3 h => rw [class_of h]; exact sorted_singleOf c w
  case h_4 h => rw [class_of h]; simpa using sorted_classThree c w
  case h_5 h => rw [class_of h]; exact sorted_blockOf c w
  case h_6 h => rw [class_of h]; exact sorted_branchOf c w
  case h_7 h => rw [class_of h]; exact sorted_coprocTransferOf c w
  case h_8 h0 h1 h2 h3 h4 h5 h6 =>
    have h7 : (fld 25 3 w).toNat = 7 := by
      have hlt := (fld 25 3 w).isLt
      simp only [imp_false] at h0 h1 h2 h3 h4 h5 h6
      omega
    rw [class_of h7]
    simpa using sorted_classSeven c w

/-- Settles O2: every handler answers well-formed instructions, and class by class the trapping words are told by their
class and one bit. -/
theorem everyWordDecodes : Obligations.EveryWordDecodes := by
  refine ⟨fun w => ⟨(sorted_decodeWord w).1, Machine.decodeWord_cond w⟩, fun w => ?_⟩
  obtain ⟨-, htraps, hswi⟩ := sorted_decodeWord w
  rw [htraps, hswi]
  simp [or_assoc]

/-- Settles O3: each word is decoded by computation. -/
theorem knownWordsDecode : Obligations.KnownWordsDecode := by
  unfold Obligations.KnownWordsDecode
  decide

end Sys2Proof
end

section
/-!
PROOFS. The conditions (spec 30_encoding.md R101, 40_execution_cycle.md R142, R146): the truth table, and the condition
NV, which executes as AL because the handlers read bits 27 to 0 only and every meaning is guarded by its condition.
-/

namespace Sys2Proof.Machine

/-- Settles O6: each code names its condition, whose test is the row of the table. -/
theorem conditionTest : Obligations.ConditionTest := by
  intro p
  refine ⟨?_, ?_, ?_, ?_, ?_, ?_, ?_, ?_, ?_, ?_, ?_, ?_, ?_, ?_, rfl, rfl⟩ <;> simp [condHolds, Cond.ofCode]

/-! ### The handlers read bits 27 to 0 only -/

section
variable (c : Cond) (k j : BitVec 4) (x : BitVec 28)

theorem classZero_cat : classZero c (cat 32 k x) = classZero c (cat 32 j x) := by
  simp [classZero, multiplyOf, halfwordOf, halfAddressOf, halfOffsetOf, psrKey, psrRegOf, dataOf, operand2Of, bxKey]

theorem classOne_cat : classOne c (cat 32 k x) = classOne c (cat 32 j x) := by
  simp [classOne, psrKey, psrImmOf, dataOf, operand2Of]

theorem singleOf_cat : singleOf c (cat 32 k x) = singleOf c (cat 32 j x) := by
  simp [singleOf, addressOf, offsetOf]

theorem classThree_cat : classThree c (cat 32 k x) = classThree c (cat 32 j x) := by
  simp [classThree, singleOf_cat c k j x]

theorem blockOf_cat : blockOf c (cat 32 k x) = blockOf c (cat 32 j x) := by simp [blockOf]

theorem branchOf_cat : branchOf c (cat 32 k x) = branchOf c (cat 32 j x) := by simp [branchOf]

theorem coprocTransferOf_cat : coprocTransferOf c (cat 32 k x) = coprocTransferOf c (cat 32 j x) := by
  simp [coprocTransferOf]

theorem classSeven_cat : classSeven c (cat 32 k x) = classSeven c (cat 32 j x) := by simp [classSeven]

end

/-! ### Instructions that differ in their condition only -/

/-- The same guarded body, and the same cost by the default table. -/
def alike (i j : Instr) : Prop :=
  (∃ body : State → Result, ∀ s, exec i s = guarded i.cond s body ∧ exec j s = guarded j.cond s body) ∧
    ∀ s, tableCost i s = tableCost j s

theorem alike_intro {i j : Instr} (body : State → Result) (hi : ∀ s, exec i s = guarded i.cond s body)
    (hj : ∀ s, exec j s = guarded j.cond s body) (hcost : ∀ s, tableCost i s = tableCost j s) : alike i j :=
  ⟨⟨body, fun s => ⟨hi s, hj s⟩⟩, hcost⟩

/-- A choice that does not read the condition. -/
theorem alike_ite {p : Prop} [Decidable p] {i j i' j' : Instr} (h : alike i j) (h' : alike i' j') :
    alike (if p then i else i') (if p then j else j') := by
  split
  · exact h
  · exact h'

section
variable (c d : Cond) (iw : Word)

theorem alike_dataOf : alike (dataOf c iw) (dataOf d iw) := by
  rw [dataOf_eq, dataOf_eq]
  obtain ⟨⟨opcode, hopcode⟩⟩ := fld 21 4 iw
  interval_cases opcode <;> exact alike_intro _ (fun _ => rfl) (fun _ => rfl) fun _ => rfl

theorem alike_psrRegOf : alike (psrRegOf c iw) (psrRegOf d iw) := by
  refine alike_ite ?_ ?_ <;> exact alike_intro _ (fun _ => rfl) (fun _ => rfl) fun _ => rfl

theorem alike_psrImmOf : alike (psrImmOf c iw) (psrImmOf d iw) := by
  refine alike_ite ?_ ?_ <;> exact alike_intro _ (fun _ => rfl) (fun _ => rfl) fun _ => rfl

theorem alike_multiplyOf : alike (multiplyOf c iw) (multiplyOf d iw) := by
  refine alike_ite (alike_ite ?_ ?_) (alike_ite ?long (alike_ite ?_ ?_))
  case long =>
    cases bit 22 iw <;> cases bit 21 iw <;> exact alike_intro _ (fun _ => rfl) (fun _ => rfl) fun _ => rfl
  all_goals exact alike_intro _ (fun _ => rfl) (fun _ => rfl) fun _ => rfl

theorem alike_halfwordOf : alike (halfwordOf c iw) (halfwordOf d iw) := by
  rw [halfwordOf_eq, halfwordOf_eq]
  obtain ⟨⟨sh, hsh⟩⟩ := fld 5 2 iw
  cases bit 20 iw <;> interval_cases sh <;> exact alike_intro _ (fun _ => rfl) (fun _ => rfl) fun _ => rfl

theorem alike_classZero : alike (classZero c iw) (classZero d iw) :=
  alike_ite (alike_intro _ (fun _ => rfl) (fun _ => rfl) fun _ => rfl)
    (alike_ite (alike_ite (alike_multiplyOf c d iw) (alike_halfwordOf c d iw))
      (alike_ite (alike_psrRegOf c d iw) (alike_dataOf c d iw)))

theorem alike_classOne : alike (classOne c iw) (classOne d iw) :=
  alike_ite (alike_psrImmOf c d iw) (alike_dataOf c d iw)

theorem alike_singleOf : alike (singleOf c iw) (singleOf d iw) := by
  refine alike_ite ?_ ?_ <;> cases bit 22 iw <;> cases bit 20 iw <;>
    exact alike_intro _ (fun _ => rfl) (fun _ => rfl) fun _ => rfl

theorem alike_classThree : alike (classThree c iw) (classThree d iw) :=
  alike_ite (alike_intro _ (fun _ => rfl) (fun _ => rfl) fun _ => rfl) (alike_singleOf c d iw)

theorem alike_blockOf : alike (blockOf c iw) (blockOf d iw) := by
  refine alike_ite ?_ ?_ <;> exact alike_intro _ (fun _ => rfl) (fun _ => rfl) fun _ => rfl

theorem alike_branchOf : alike (branchOf c iw) (branchOf d iw) := by
  refine alike_ite ?_ ?_ <;> exact alike_intro _ (fun _ => rfl) (fun _ => rfl) fun _ => rfl

theorem alike_coprocTransferOf : alike (coprocTransferOf c iw) (coprocTransferOf d iw) := by
  refine alike_ite ?_ ?_ <;> exact alike_intro _ (fun _ => rfl) (fun _ => rfl) fun _ => rfl

theorem alike_classSeven : alike (classSeven c iw) (classSeven d iw) := by
  refine alike_ite ?_ (alike_ite (alike_ite ?_ ?_) ?_) <;>
    exact alike_intro _ (fun _ => rfl) (fun _ => rfl) fun _ => rfl

end

/-- Two words that differ in their conditions only are alike (R101, R102). -/
theorem alike_decodeWord (k j : BitVec 4) (x : BitVec 28) :
    alike (decodeWord (cat 32 k x)) (decodeWord (cat 32 j x)) := by
  have hcond (k : BitVec 4) : fld 28 4 (cat 32 k x) = k := by simp
  have hclass (k : BitVec 4) : fld 25 3 (cat 32 k x) = fld 25 3 x := by simp
  simp only [decodeWord, hcond, hclass]
  obtain ⟨⟨cls, hcls⟩⟩ := fld 25 3 x
  interval_cases cls
  · rw [classZero_cat _ k j]; exact alike_classZero _ _ _
  · rw [classOne_cat _ k j]; exact alike_classOne _ _ _
  · rw [singleOf_cat _ k j]; exact alike_singleOf _ _ _
  · rw [classThree_cat _ k j]; exact alike_classThree _ _ _
  · rw [blockOf_cat _ k j]; exact alike_blockOf _ _ _
  · rw [branchOf_cat _ k j]; exact alike_branchOf _ _ _
  · rw [coprocTransferOf_cat _ k j]; exact alike_coprocTransferOf _ _ _
  · rw [classSeven_cat _ k j]; exact alike_classSeven _ _ _

/-- Settles O8: the two words are alike, both conditions hold, and the default cost reads the word in nothing else. -/
theorem neverExecutesAsAlways : Obligations.NeverExecutesAsAlways := by
  intro x s
  obtain ⟨⟨body, hbody⟩, hcost⟩ := alike_decodeWord 15#4 14#4 x
  have hnv : (decodeWord (cat 32 15#4 x)).cond = .nv := by rw [decodeWord_cond]; simp [Cond.ofCode]
  have hal : (decodeWord (cat 32 14#4 x)).cond = .al := by rw [decodeWord_cond]; simp [Cond.ofCode]
  have hexec (t : State) : exec (decodeWord (cat 32 15#4 x)) t = exec (decodeWord (cat 32 14#4 x)) t := by
    rw [(hbody t).1, (hbody t).2, hnv, hal]; rfl
  refine ⟨hexec s, fun hmodel => ?_⟩
  have hsame : cost (decodeWord (cat 32 15#4 x)) (cat 32 15#4 x) (enterExecute s) =
      cost (decodeWord (cat 32 14#4 x)) (cat 32 14#4 x) (enterExecute s) := by
    simp only [cost, hnv, hal, enterExecute_costModel, hmodel, hcost, condHolds]
  simp only [runWord, hexec, hsame]

end Sys2Proof.Machine
end

section
/-!
PROOFS. The barrel shifter (spec 41_data_processing.md R171 to R178) in independent arithmetic: bits for a rotation,
multiplication and division by powers of two for a shift; and the inverse of the rotated immediate (30_encoding.md R125).
-/

namespace Sys2Proof.Machine

/-! ### Rotation -/

/-- A rotation to the right reads each bit `n` places further up, around the word (R177). -/
theorem bit_rotateRight (w : Word) (n : Nat) {k : Nat} (hk : k < 32) :
    bit k (w.rotateRight n) = bit ((k + n) % 32) w := by
  rw [bit, BitVec.getLsbD_rotateRight, bit]
  have hn : n % 32 < 32 := Nat.mod_lt _ (by decide)
  rw [Bool.cond_decide]
  split
  · congr 1; omega
  · rw [decide_eq_true hk, Bool.true_and]
    congr 1; omega

/-- Two rotations that make a whole turn undo each other. -/
theorem rotateRight_rotateRight (w : Word) {n m : Nat} (h : (n + m) % 32 = 0) : (w.rotateRight n).rotateRight m = w := by
  refine word_ext fun k hk => ?_
  rw [bit_rotateRight _ _ hk, bit_rotateRight _ _ (Nat.mod_lt _ (by decide))]
  congr 1
  omega

/-- Rotating back what a rotated immediate builds gives its 8 bits (R125, R171). -/
theorem rotatedImm_eq_iff {rot : BitVec 4} {imm8 : BitVec 8} {w : Word} :
    rotatedImm rot imm8 = w ↔ w.rotateRight (32 - 2 * rot.toNat) = imm8.setWidth 32 := by
  have hturn : (2 * rot.toNat + (32 - 2 * rot.toNat)) % 32 = 0 := by have := rot.isLt; omega
  constructor
  · rintro rfl
    exact rotateRight_rotateRight _ hturn
  · intro h
    rw [rotatedImm, ← h]
    exact rotateRight_rotateRight _ (by rw [Nat.add_comm]; exact hturn)

/-- A word below 256 is its low byte, extended. -/
theorem setWidth_setWidth_of_lt {w : Word} (h : w.toNat < 256) : (w.setWidth 8).setWidth 32 = w := by
  apply BitVec.eq_of_toNat_eq
  simp only [BitVec.toNat_setWidth]
  omega

theorem toNat_setWidth_lt (imm8 : BitVec 8) : (imm8.setWidth 32).toNat < 256 := by
  simp only [BitVec.toNat_setWidth]
  have := imm8.isLt
  omega

/-! ### `EncodeImmediate` -/

/-- The search answers the first rotation from `first` on that gives an 8-bit value. -/
theorem searchRotation_eq_some {w : Word} {first left rot : Nat} {imm8 : BitVec 8}
    (h : searchRotation w first left = some (imm8, rot)) :
    first ≤ rot ∧ rot < first + left ∧ w.rotateRight (32 - 2 * rot) = imm8.setWidth 32 ∧
      ∀ q, first ≤ q → q < rot → ¬ (w.rotateRight (32 - 2 * q)).toNat < 256 := by
  induction left generalizing first with
  | zero => cases h
  | succ left ih =>
    rw [searchRotation] at h
    split at h
    · rename_i hlt
      cases h
      exact ⟨Nat.le_refl _, by omega, (setWidth_setWidth_of_lt hlt).symm, fun q _ _ => by omega⟩
    · rename_i hge
      obtain ⟨h1, h2, h3, h4⟩ := ih h
      refine ⟨by omega, by omega, h3, fun q hq hlt => ?_⟩
      by_cases he : q = first
      · rw [he]; exact hge
      · exact h4 q (by omega) hlt

/-- The search fails only where no rotation gives an 8-bit value. -/
theorem searchRotation_eq_none {w : Word} {first left : Nat} (h : searchRotation w first left = none) :
    ∀ q, first ≤ q → q < first + left → ¬ (w.rotateRight (32 - 2 * q)).toNat < 256 := by
  induction left generalizing first with
  | zero => intro q _ _; omega
  | succ left ih =>
    rw [searchRotation] at h
    split at h
    · cases h
    · rename_i hge
      intro q hq hlt
      by_cases he : q = first
      · rw [he]; exact hge
      · exact ih h q (by omega) (by omega)

/-- A form is an 8-bit value under its rotation back. -/
theorem rotateRight_lt_of_form {rot : BitVec 4} {imm8 : BitVec 8} {w : Word} (h : rotatedImm rot imm8 = w) :
    (w.rotateRight (32 - 2 * rot.toNat)).toNat < 256 := by
  rw [rotatedImm_eq_iff.1 h]
  exact toNat_setWidth_lt imm8

theorem form_of_searchRotation {w : Word} {imm8 : BitVec 8} {rot : Nat} (h : searchRotation w 0 16 = some (imm8, rot)) :
    rot < 16 ∧ rotatedImm (BitVec.ofNat 4 rot) imm8 = w ∧ ∀ rot' imm8', rotatedImm rot' imm8' = w → rot ≤ rot'.toNat := by
  obtain ⟨-, hlt, hform, hfirst⟩ := searchRotation_eq_some h
  have hrot : (BitVec.ofNat 4 rot).toNat = rot := by
    rw [BitVec.toNat_ofNat]; omega
  refine ⟨by omega, rotatedImm_eq_iff.2 (by rw [hrot]; exact hform), fun rot' imm8' hw => ?_⟩
  by_contra hlt'
  exact hfirst rot'.toNat (Nat.zero_le _) (by omega) (rotateRight_lt_of_form hw)

theorem no_form_of_searchRotation {w : Word} (h : searchRotation w 0 16 = none) (rot : BitVec 4) (imm8 : BitVec 8) :
    rotatedImm rot imm8 ≠ w := fun hw =>
  searchRotation_eq_none h rot.toNat (Nat.zero_le _) (by have := rot.isLt; omega) (rotateRight_lt_of_form hw)

/-- Settles O4: by what the search answers for the value, and then for its complement. -/
theorem encodeImmediateInverts : Obligations.EncodeImmediateInverts := by
  intro v
  unfold encodeImmediate
  split
  · rename_i imm8 rot hplain
    obtain ⟨hlt, hform, hfirst⟩ := form_of_searchRotation hplain
    exact ⟨fun e he => by cases he; exact ⟨hlt, hform, nofun, hfirst⟩, nofun⟩
  · rename_i hplain
    have hno := no_form_of_searchRotation hplain
    split
    · rename_i imm8 rot hneg
      obtain ⟨hlt, hform, hfirst⟩ := form_of_searchRotation hneg
      exact ⟨fun e he => by cases he; exact ⟨hlt, hform, fun _ => hno, hfirst⟩, nofun⟩
    · rename_i hneg
      exact ⟨nofun, fun _ rot imm8 => ⟨hno rot imm8, no_form_of_searchRotation hneg rot imm8⟩⟩

/-! ### Shifts -/

/-- A shift by 1 to 31, type by type: value and carry-out (R172 to R177). -/
theorem shiftMid_lsl (m : Word) (n : Nat) : (shiftMid .lsl m n).value.toNat = m.toNat * 2 ^ n % 2 ^ 32 := by
  rw [shiftMid, BitVec.toNat_shiftLeft, Nat.shiftLeft_eq]

theorem shiftMid_lsr (m : Word) (n : Nat) : (shiftMid .lsr m n).value.toNat = m.toNat / 2 ^ n := by
  rw [shiftMid, BitVec.toNat_ushiftRight, Nat.shiftRight_eq_div_pow]

theorem shiftMid_asr (m : Word) (n : Nat) : (shiftMid .asr m n).value.toInt = m.toInt / 2 ^ n := by
  rw [shiftMid, BitVec.toInt_sshiftRight, Int.shiftRight_eq_div_pow]
  norm_cast

theorem bit_shiftMid_ror (m : Word) (n : Nat) {k : Nat} (hk : k < 32) :
    bit k (shiftMid .ror m n).value = bit ((k + n) % 32) m := bit_rotateRight m n hk

/-- The value of two fields side by side. -/
theorem toNat_cat {a b k : Nat} (x : BitVec a) (y : BitVec b) (h : a + b ≤ k) :
    (cat k x y).toNat = x.toNat * 2 ^ b + y.toNat := by
  rw [cat, BitVec.toNat_setWidth, BitVec.toNat_append, ← Nat.shiftLeft_add_eq_or_of_lt y.isLt, Nat.shiftLeft_eq,
    Nat.mod_eq_of_lt]
  have hx := x.isLt
  have hy := y.isLt
  calc x.toNat * 2 ^ b + y.toNat < x.toNat * 2 ^ b + 2 ^ b := by omega
    _ = (x.toNat + 1) * 2 ^ b := by ring
    _ ≤ 2 ^ a * 2 ^ b := Nat.mul_le_mul_right _ hx
    _ = 2 ^ (a + b) := (Nat.pow_add 2 a b).symm
    _ ≤ 2 ^ k := Nat.pow_le_pow_right (by decide) h

/-- RRX: the carry enters at the top (R178). -/
theorem rrx_value (m : Word) (cin : Bool) : (rrx m cin).value.toNat = cin.toNat * 2 ^ 31 + m.toNat / 2 := by
  have hm := m.isLt
  rw [rrx, toNat_cat _ _ (by decide), fld, BitVec.extractLsb'_toNat, Nat.shiftRight_eq_div_pow]
  have hflag : (flag cin).toNat = cin.toNat := by cases cin <;> rfl
  rw [hflag]
  omega

theorem bit_rotatedImm (rot : BitVec 4) (imm8 : BitVec 8) {k : Nat} (hk : k < 32) :
    bit k (rotatedImm rot imm8) = bit ((k + 2 * rot.toNat) % 32) imm8 := by
  rw [rotatedImm, bit_rotateRight _ _ hk, bit, BitVec.getLsbD_setWidth, bit,
    decide_eq_true (Nat.mod_lt _ (by decide)), Bool.true_and]

/-- Settles O24: the rotated immediate bit by bit; the amount 0 by its table, an amount from 1 up by `shiftMid`. -/
theorem immediateOperands : Obligations.ImmediateOperands := by
  refine ⟨fun rot imm8 s k hk => ⟨bit_rotatedImm rot imm8 hk, rfl⟩, fun rm n s => ⟨fun hn => ?zero, fun hn => ?mid⟩⟩
  case zero =>
    subst hn
    exact ⟨rfl, rfl, rfl, rrx_value _ _, rfl⟩
  case mid =>
    have hshift (ty : ShiftType) : operand2 (.shiftImm rm ty n) s = shiftMid ty (reg s rm) n.toNat := by
      have : n.toNat ≠ 0 := fun h => hn (BitVec.eq_of_toNat_eq h)
      simp [operand2, shiftImm, this]
    simp only [hshift]
    exact ⟨shiftMid_lsl _ _, rfl, shiftMid_lsr _ _, rfl, shiftMid_asr _ _, rfl, fun k hk => bit_shiftMid_ror _ _ hk, rfl⟩

/-- Settles O25: by the rows of the table: 0, 1 to 31, and 32 or more, where ROR goes by the amount modulo 32. -/
theorem registerShift : Obligations.RegisterShift := by
  intro rm rs s
  have hbyte : (fld 0 8 (reg s rs)).toNat = (reg s rs).toNat % 256 := by
    simp [fld, BitVec.extractLsb'_toNat]
  simp only [operand2, hbyte]
  generalize (reg s rs).toNat % 256 = n
  generalize reg s rm = m
  have hmid (ty : ShiftType) (h1 : 1 ≤ n) (h31 : n ≤ 31) : shiftReg ty m n s.cpsr.c = shiftMid ty m n := by
    simp [shiftReg, show n ≠ 0 by omega, show n < 32 by omega]
  refine ⟨fun h ty => ?zero, fun h1 h31 => ?mid, fun h => ?full, fun h => ?beyond, fun h => ?sign, fun h1 hn => ?rotate,
    fun h1 hn => ?turn⟩
  case zero => simp [shiftReg, h]
  case mid =>
    simp only [hmid _ h1 h31]
    exact ⟨shiftMid_lsl _ _, rfl, shiftMid_lsr _ _, rfl, shiftMid_asr _ _, rfl⟩
  case full => simp [shiftReg, h]
  case beyond => simp [shiftReg, show n ≠ 0 by omega, show ¬ n < 32 by omega, show n ≠ 32 by omega]
  case sign => simp [shiftReg, show n ≠ 0 by omega, show ¬ n < 32 by omega, allBits]
  case rotate =>
    have hror : shiftReg .ror m n s.cpsr.c = shiftMid .ror m (n % 32) := by
      by_cases h : n < 32
      · rw [hmid .ror h1 (by omega), Nat.mod_eq_of_lt h]
      · simp [shiftReg, show n ≠ 0 by omega, h, hn]
    rw [hror]
    exact ⟨fun k hk => bit_shiftMid_ror _ _ hk, rfl⟩
  case turn => simp [shiftReg, show n ≠ 0 by omega, show ¬ n < 32 by omega, hn]

/-! ### What the flags mean -/

/-- Bit 31 is the sign. -/
theorem bit_31 (w : Word) : bit 31 w = decide (2 ^ 31 ≤ w.toNat) := BitVec.msb_eq_decide w

/-- The value of a signed word, by its sign. -/
theorem toInt_word (w : Word) : w.toInt = if 2 ^ 31 ≤ w.toNat then (w.toNat : Int) - 2 ^ 32 else (w.toNat : Int) := by
  rw [BitVec.toInt_eq_toNat_cond]
  split <;> split <;> omega

theorem bit_xor {n : Nat} (k : Nat) (v w : BitVec n) : bit k (v ^^^ w) = (bit k v ^^ bit k w) := BitVec.getLsbD_xor

/-- V of an addition, by signs: the operands have one, the result the other (R181). -/
theorem bit_31_sum_overflow (a b r : Word) :
    bit 31 (~~~(a ^^^ b) &&& (a ^^^ r)) = true ↔
      (2 ^ 31 ≤ a.toNat ↔ 2 ^ 31 ≤ b.toNat) ∧ ¬(2 ^ 31 ≤ a.toNat ↔ 2 ^ 31 ≤ r.toNat) := by
  have hnot : bit 31 (~~~(a ^^^ b)) = !bit 31 (a ^^^ b) := by simp [bit]
  simp only [bit_and, hnot, bit_xor]
  simp only [bit_31, Bool.and_eq_true, Bool.not_eq_true', bne_eq_false_iff_eq, bne_iff_ne, ne_eq, decide_eq_decide]

/-- V of a subtraction, by signs: the operands have different ones, the result not the minuend's (R182). -/
theorem bit_31_difference_overflow (a b r : Word) :
    bit 31 ((a ^^^ b) &&& (a ^^^ r)) = true ↔
      ¬(2 ^ 31 ≤ a.toNat ↔ 2 ^ 31 ≤ b.toNat) ∧ ¬(2 ^ 31 ≤ a.toNat ↔ 2 ^ 31 ≤ r.toNat) := by
  simp only [bit_and, bit_xor]
  simp only [bit_31, Bool.and_eq_true, bne_iff_ne, ne_eq, decide_eq_decide]

/-- V of the addition family: the signed sum does not fit (R181, R203). -/
theorem additionFlags_v (a b : Word) (cin : Bool) :
    (additionFlags a b cin (a + b + BitVec.ofNat 32 cin.toNat)).v = true ↔
      (a + b + BitVec.ofNat 32 cin.toNat).toInt ≠ a.toInt + b.toInt + cin.toNat := by
  have hr : (a + b + BitVec.ofNat 32 cin.toNat).toNat = (a.toNat + b.toNat + cin.toNat) % 2 ^ 32 := by
    simp [BitVec.toNat_add]
  have hc := cin.toNat_le
  have ha := a.isLt
  have hb := b.isLt
  rw [additionFlags, bit_31_sum_overflow, toInt_word, toInt_word, toInt_word, hr]
  split_ifs <;> omega

/-- A difference with a borrow, as a natural number. -/
theorem toNat_difference (a b : Word) (borrow : Nat) (h : borrow ≤ 1) :
    (a - b - BitVec.ofNat 32 borrow).toNat = (2 ^ 33 + a.toNat - b.toNat - borrow) % 2 ^ 32 := by
  have ha := a.isLt
  have hb := b.isLt
  simp only [BitVec.toNat_sub, BitVec.toNat_ofNat]
  omega

/-- V of the subtraction family: the signed difference does not fit (R182, R203). -/
theorem subtractionFlags_v (a b : Word) (cin : Bool) :
    (subtractionFlags a b cin (a - b - BitVec.ofNat 32 (1 - cin.toNat))).v = true ↔
      (a - b - BitVec.ofNat 32 (1 - cin.toNat)).toInt ≠ a.toInt - b.toInt - (1 - cin.toNat : Nat) := by
  have hr := toNat_difference a b (1 - cin.toNat) (Nat.sub_le _ _)
  have ha := a.isLt
  have hb := b.isLt
  rw [subtractionFlags, bit_31_difference_overflow, toInt_word, toInt_word, toInt_word, hr]
  split_ifs <;> omega

/-- C of the subtraction family: the carry-out of `a + ~b + cin` (R182). -/
theorem subtractionFlags_c (a b r : Word) (cin : Bool) :
    (subtractionFlags a b cin r).c = true ↔ 2 ^ 32 ≤ a.toNat + (~~~b).toNat + cin.toNat := by
  have hb := b.isLt
  have hc := cin.toNat_le
  simp only [subtractionFlags, decide_eq_true_eq, BitVec.toNat_not]
  omega

/-- After a comparison N equals V exactly if the minuend is not the smaller one, as signed numbers (R193). -/
theorem difference_n_eq_v_iff (a b : Word) :
    bit 31 (a - b) = bit 31 ((a ^^^ b) &&& (a ^^^ (a - b))) ↔ b.toInt ≤ a.toInt := by
  have hr : (a - b).toNat = (2 ^ 33 + a.toNat - b.toNat - 0) % 2 ^ 32 := by simpa using toNat_difference a b 0 (by decide)
  have ha := a.isLt
  have hb := b.isLt
  rw [Bool.eq_iff_iff, bit_31_difference_overflow, bit_31, decide_eq_true_eq, toInt_word, toInt_word, hr]
  split_ifs <;> omega

/-- Settles O29: the flags by their definitions over the operands' values, and the conditions over the flags of a CMP. -/
theorem flagMeanings : Obligations.FlagMeanings := by
  refine ⟨fun a b cin => ⟨additionFlags_v a b cin, subtractionFlags_v a b cin, subtractionFlags_c a b _ cin⟩,
    fun c rn o s hc => ?_⟩
  obtain ⟨-, -, ⟨t, hexec, hflags, -⟩, -⟩ := compareResults c rn o s hc
  intro a b
  have hz : t.cpsr.z = decide (a - b = 0#32) := congrArg Flags.z hflags
  have hcarry : t.cpsr.c = decide (b.toNat ≤ a.toNat) := congrArg Flags.c hflags
  have hn : t.cpsr.n = bit 31 (a - b) := congrArg Flags.n hflags
  have hv : t.cpsr.v = bit 31 ((a ^^^ b) &&& (a ^^^ (a - b))) := congrArg Flags.v hflags
  have hzero : a - b = 0#32 ↔ a = b := sub_eq_zero
  have hge : t.cpsr.n = t.cpsr.v ↔ b.toInt ≤ a.toInt := by rw [hn, hv, difference_n_eq_v_iff]
  have hnat : a = b ↔ a.toNat = b.toNat := BitVec.toNat_inj.symm
  have hint : a = b ↔ a.toInt = b.toInt := BitVec.toInt_inj.symm
  refine ⟨t, hexec, ?_, ?_, ?_, ?_, ?_⟩
  · simp only [condHolds, hz, hzero, decide_eq_true_eq]
  · simp only [condHolds, hcarry, decide_eq_true_eq]
  · simp only [condHolds, hcarry, hz, hzero, hnat, Bool.and_eq_true, Bool.not_eq_true', decide_eq_true_eq,
      decide_eq_false_iff_not]
    omega
  · simp only [condHolds, beq_iff_eq, hge]
  · simp only [condHolds, hz, hzero, hint, Bool.and_eq_true, Bool.not_eq_true', decide_eq_false_iff_not, beq_iff_eq,
      hge]
    omega

end Sys2Proof.Machine
end

section
/-!
PROOFS. A write of any register, R15 among them (spec 10_state.md R12, R32), and the multiplies (43_multiply.md R231 to
R238), which end in one or two of these.
-/

namespace Sys2Proof.Machine

/-! ### A write of any register -/

/-- The state after a write of `x[r]` that succeeds: for R15 a PC write (R32). -/
def putReg (r : Reg) (v : Word) (s : State) : State :=
  if r = 15#4 then { s with pc := v, pcAltered := true } else setGpr (phys s.cpsr.mode r) v s

theorem putReg_of_ne {r : Reg} (v : Word) (s : State) (h : r ≠ 15#4) :
    putReg r v s = setGpr (phys s.cpsr.mode r) v s := if_neg h

@[simp] theorem putReg_pc (v : Word) (s : State) : putReg 15#4 v s = { s with pc := v, pcAltered := true } := rfl

theorem thenDo_of_fatal {r : Result} {kind : Fatal} {s : State} (h : r = fatal kind s) (k : State → Result) :
    thenDo r k = fatal kind s := by rw [h, thenDo_fatal]

/-- A write fails only for R15 and a misaligned value. -/
theorem setReg_of_good {r : Reg} {v : Word} (s : State) (h : r = 15#4 → fld 0 2 v = 0#2) :
    setReg r v s = .next (putReg r v s) := by
  by_cases hr : r = 15#4
  · subst hr; exact writePc_of_aligned s (h rfl)
  · rw [setReg_of_ne v s hr, putReg_of_ne v s hr]

theorem setReg_of_bad {r : Reg} {v : Word} (s : State) (hr : r = 15#4) (h : fld 0 2 v ≠ 0#2) :
    setReg r v s = fatal .alignmentError s := by
  subst hr
  exact writePc_of_misaligned s h

/-- A write of a register changes that register or R15 with its mark, and nothing else. -/
theorem putReg_frame (r : Reg) (v : Word) (s : State) :
    putReg r v s =
      { s with gpr := (putReg r v s).gpr, pc := (putReg r v s).pc, pcAltered := (putReg r v s).pcAltered } := by
  unfold putReg; split <;> rfl

section
variable (r : Reg) (v : Word) (s : State)

@[simp] theorem putReg_cpsr : (putReg r v s).cpsr = s.cpsr := by rw [putReg_frame]
@[simp] theorem putReg_spsr : (putReg r v s).spsr = s.spsr := by rw [putReg_frame]
@[simp] theorem putReg_cycles : (putReg r v s).cycles = s.cycles := by rw [putReg_frame]
@[simp] theorem putReg_halted : (putReg r v s).halted = s.halted := by rw [putReg_frame]
@[simp] theorem putReg_mem : (putReg r v s).mem = s.mem := by rw [putReg_frame]
@[simp] theorem putReg_regions : (putReg r v s).regions = s.regions := by rw [putReg_frame]
@[simp] theorem putReg_sched : (putReg r v s).sched = s.sched := by rw [putReg_frame]
@[simp] theorem putReg_clockRate : (putReg r v s).clockRate = s.clockRate := by rw [putReg_frame]
@[simp] theorem putReg_costModel : (putReg r v s).costModel = s.costModel := by rw [putReg_frame]
@[simp] theorem putReg_draws : (putReg r v s).draws = s.draws := by rw [putReg_frame]

theorem sameMachine_putReg : sameMachine s (putReg r v s) := by simp [sameMachine]

end

theorem putReg_gpr_same {r : Reg} (v : Word) {s : State} {m : Mode} (hm : s.cpsr.mode = m) (h : r ≠ 15#4) :
    (putReg r v s).gpr[phys m r] = v := by
  subst hm
  rw [putReg_of_ne v s h, setGpr_gpr_same]

theorem putReg_gpr_ne {r : Reg} (v : Word) (s : State) {q : Fin 30} (h : r = 15#4 ∨ q ≠ phys s.cpsr.mode r) :
    (putReg r v s).gpr[q] = s.gpr[q] := by
  by_cases hr : r = 15#4
  · subst hr; rfl
  · rw [putReg_of_ne v s hr, setGpr_gpr_ne v s (h.resolve_left hr)]

theorem putReg_pc_ne {r : Reg} (v : Word) (s : State) (h : r ≠ 15#4) :
    (putReg r v s).pc = s.pc ∧ (putReg r v s).pcAltered = s.pcAltered := by
  rw [putReg_of_ne v s h]; exact ⟨rfl, rfl⟩

/-! ### The short multiplies -/

/-- MUL and MLA that complete: Rd, and with S = 1 the flags and one free value used (R237). -/
theorem writeShort_of_good {sf : Bool} {rd rs rm : Reg} {v : Word} (s : State) (h : rd = 15#4 → fld 0 2 v = 0#2) :
    writeShort sf rd rs rm v s =
      .next (setFlagsIf sf (multiplyFlags v s.draws (reg s rm) (reg s rs) s.cpsr)
        (putReg rd v { s with draws := if sf then s.draws + 1 else s.draws })) := by
  cases sf <;> simp [writeShort, setReg_of_good _ h, setFlagsIf]

theorem writeShort_of_bad {sf : Bool} {rd rs rm : Reg} {v : Word} (s : State) (hr : rd = 15#4) (h : fld 0 2 v ≠ 0#2) :
    ∃ n, writeShort sf rd rs rm v s = .fault (.fatal .alignmentError ⟨s.sched, n⟩) := by
  cases sf with
  | false => exact ⟨s.draws, setReg_of_bad s hr h⟩
  | true => exact ⟨s.draws + 1, thenDo_of_fatal (setReg_of_bad { s with draws := s.draws + 1 } hr h) _⟩

/-- The flags of a multiply that completes, whatever its registers (R237). -/
theorem multiplied_setFlagsIf (sf : Bool) {fl : Flags} {n z short : Bool} {s t : State} (ht : t.cpsr = s.cpsr)
    (hn : fl.n = n) (hz : fl.z = z) (hv : short = true → fl.v = s.cpsr.v) :
    multiplied sf n z short s (setFlagsIf sf fl t) := by
  refine ⟨fun h => ?_, fun h => ?_⟩ <;> subst h
  · simp [flagsOf, setFlagsIf, ht]
  · exact ⟨hn, hz, hv⟩

theorem multiplied_short (sf : Bool) (v : Word) (draw : Nat) (x y : Word) {s t : State} (ht : t.cpsr = s.cpsr) :
    multiplied sf (bit 31 v) (decide (v = 0#32)) true s (setFlagsIf sf (multiplyFlags v draw x y s.cpsr) t) :=
  multiplied_setFlagsIf sf ht rfl rfl fun _ => rfl

/-- A short multiply into a register other than R15 (R231, R232, R237). -/
theorem shortMultiply_of_exec {i : Instr} {sf : Bool} {rd rs rm : Reg} {v : Word} {s : State} (hrd : rd ≠ 15#4)
    (hexec : exec i s = writeShort sf rd rs rm v s) :
    ∃ t, exec i s = .next t ∧ wroteRegister rd v s t ∧ multiplied sf (bit 31 v) (decide (v = 0#32)) true s t := by
  refine ⟨_, hexec.trans (writeShort_of_good s fun h => absurd h hrd), ?_, multiplied_short sf v _ _ _ (by simp)⟩
  rw [putReg_of_ne _ _ hrd]
  exact wroteRegister_setFlagsIf_setGpr sf _ rd v { s with draws := if sf then s.draws + 1 else s.draws }

/-- Settles O36: both meanings are `writeShort` of the product, or of the product with the accumulator. -/
theorem shortMultiply : Obligations.ShortMultiply := by
  intro c sf rd rn rs rm s hc hrd
  exact ⟨shortMultiply_of_exec hrd ((exec_mul c sf rd rs rm s).trans (guarded_of_holds hc)),
    shortMultiply_of_exec hrd ((exec_mla c sf rd rn rs rm s).trans (guarded_of_holds hc))⟩

/-! ### The long multiplies -/

/-- The two register writes of a long multiply fail where one of them would write R15 misaligned (R238). -/
def badLong (rdHi rdLo : Reg) (p : BitVec 64) : Prop :=
  (rdLo = 15#4 ∧ fld 0 2 p ≠ 0#2) ∨ (rdHi = 15#4 ∧ fld 32 2 p ≠ 0#2)

/-- The low word is written first, then the high word (R238). -/
def putLong (rdHi rdLo : Reg) (p : BitVec 64) (s : State) : State :=
  putReg rdHi (fld 32 32 p) (putReg rdLo (fld 0 32 p) s)

theorem fld_low_word (p : BitVec 64) : fld 0 2 (fld 0 32 p) = fld 0 2 p := fld_fld p (by decide)

theorem fld_high_word (p : BitVec 64) : fld 0 2 (fld 32 32 p) = fld 32 2 p := fld_fld p (by decide)

theorem setReg_setReg_of_good {rdHi rdLo : Reg} {p : BitVec 64} (s : State) (h : ¬ badLong rdHi rdLo p) :
    thenDo (setReg rdLo (fld 0 32 p) s) (setReg rdHi (fld 32 32 p)) = .next (putLong rdHi rdLo p s) := by
  simp only [badLong, not_or, not_and, not_not] at h
  rw [setReg_of_good s (by rw [fld_low_word]; exact h.1), thenDo_next,
    setReg_of_good _ (by rw [fld_high_word]; exact h.2)]
  rfl

theorem setReg_setReg_of_bad {rdHi rdLo : Reg} {p : BitVec 64} (s : State) (h : badLong rdHi rdLo p) :
    thenDo (setReg rdLo (fld 0 32 p) s) (setReg rdHi (fld 32 32 p)) = fatal .alignmentError s := by
  by_cases hlo : rdLo = 15#4 ∧ fld 0 2 p ≠ 0#2
  · rw [setReg_of_bad s hlo.1 (by rw [fld_low_word]; exact hlo.2), thenDo_fatal]
  · obtain ⟨hr, hhi⟩ := h.resolve_left hlo
    simp only [not_and, not_not] at hlo
    rw [setReg_of_good s (by rw [fld_low_word]; exact hlo), thenDo_next,
      setReg_of_bad _ hr (by rw [fld_high_word]; exact hhi)]
    simp [fatal]

theorem writeLong_of_good {sf : Bool} {rdHi rdLo rs rm : Reg} {p : BitVec 64} (s : State) (h : ¬ badLong rdHi rdLo p) :
    writeLong sf rdHi rdLo rs rm p s =
      .next (setFlagsIf sf (longMultiplyFlags p s.draws (reg s rm) (reg s rs))
        (putLong rdHi rdLo p { s with draws := if sf then s.draws + 1 else s.draws })) := by
  cases sf <;> simp [writeLong, setReg_setReg_of_good _ h, setFlagsIf]

theorem writeLong_of_bad {sf : Bool} {rdHi rdLo rs rm : Reg} {p : BitVec 64} (s : State) (h : badLong rdHi rdLo p) :
    ∃ n, writeLong sf rdHi rdLo rs rm p s = .fault (.fatal .alignmentError ⟨s.sched, n⟩) := by
  cases sf with
  | false => exact ⟨s.draws, setReg_setReg_of_bad s h⟩
  | true => exact ⟨s.draws + 1, thenDo_of_fatal (setReg_setReg_of_bad { s with draws := s.draws + 1 } h) _⟩

theorem multiplied_long (sf : Bool) (p : BitVec 64) (draw : Nat) (x y : Word) {s t : State} (ht : t.cpsr = s.cpsr) :
    multiplied sf (bit 63 p) (decide (p = 0#64)) false s (setFlagsIf sf (longMultiplyFlags p draw x y) t) :=
  multiplied_setFlagsIf sf ht rfl rfl nofun

/-- The registers after a long multiply: the high word is written last (R238). -/
theorem putLong_gpr (rdHi rdLo : Reg) (p : BitVec 64) (s : State) :
    (rdHi ≠ 15#4 → (putLong rdHi rdLo p s).gpr[phys s.cpsr.mode rdHi] = fld 32 32 p) ∧
    (rdLo ≠ 15#4 → rdLo ≠ rdHi → (putLong rdHi rdLo p s).gpr[phys s.cpsr.mode rdLo] = fld 0 32 p) ∧
    ∀ q : Fin 30, (rdHi = 15#4 ∨ q ≠ phys s.cpsr.mode rdHi) → (rdLo = 15#4 ∨ q ≠ phys s.cpsr.mode rdLo) →
      (putLong rdHi rdLo p s).gpr[q] = s.gpr[q] := by
  have hmode : (putReg rdLo (fld 0 32 p) s).cpsr.mode = s.cpsr.mode := by rw [putReg_cpsr]
  refine ⟨fun hhi => ?_, fun hlo hne => ?_, fun q hqhi hqlo => ?_⟩
  · exact putReg_gpr_same _ hmode hhi
  · rw [putLong, putReg_gpr_ne _ _ ?_, putReg_gpr_same _ rfl hlo]
    rw [hmode]
    by_cases hhi : rdHi = 15#4
    · exact .inl hhi
    · exact .inr fun e => hne (phys_injective _ _ _ hlo hhi e)
  · rw [putLong, putReg_gpr_ne _ _ (by rwa [hmode]), putReg_gpr_ne _ s hqlo]

theorem putLong_cpsr (rdHi rdLo : Reg) (p : BitVec 64) (s : State) : (putLong rdHi rdLo p s).cpsr = s.cpsr := by
  simp [putLong]

/-- A long multiply into registers other than R15 (R233 to R237). -/
theorem writesLong_of_exec {i : Instr} {sf : Bool} {rdHi rdLo rs rm : Reg} {p : BitVec 64} {s : State}
    (hhi : rdHi ≠ 15#4) (hlo : rdLo ≠ 15#4) (hexec : exec i s = writeLong sf rdHi rdLo rs rm p s) :
    writesLong i sf rdHi rdLo p s := by
  have hgood : ¬ badLong rdHi rdLo p := by simp [badLong, hhi, hlo]
  let u : State := { s with draws := if sf then s.draws + 1 else s.draws }
  obtain ⟨ghi, glo, gother⟩ := putLong_gpr rdHi rdLo p u
  have hcpsr := putLong_cpsr rdHi rdLo p u
  have hpc : (putLong rdHi rdLo p u).pc = u.pc ∧ (putLong rdHi rdLo p u).pcAltered = u.pcAltered := by
    simp [putLong, putReg_pc_ne, hhi, hlo]
  refine ⟨_, hexec.trans (writeLong_of_good s hgood), ?_, fun hne => ?_, fun q hq => ?_, ?_, ?_, ?_, ?_,
    multiplied_long sf p _ _ _ hcpsr⟩
  · rw [setFlagsIf_gpr]; exact ghi hhi
  · rw [setFlagsIf_gpr]; exact glo hlo hne
  · simp only [List.mem_cons, List.not_mem_nil, or_false, not_or] at hq
    rw [setFlagsIf_gpr]
    exact gother q (.inr hq.1) (.inr hq.2)
  · rw [setFlagsIf_pc]; exact hpc.1
  · rw [setFlagsIf_pcAltered]; exact hpc.2
  · simp [sameControl, putLong]
  · simp [putLong, sameElsewhere, sameMachine, sameBytes]

/-- Settles O37: the four meanings are `writeLong` of the 64-bit product, or of the product with the accumulator. -/
theorem longMultiply : Obligations.LongMultiply := by
  intro c sf rdHi rdLo rs rm s hc hhi hlo
  exact ⟨writesLong_of_exec hhi hlo ((exec_umull c sf rdHi rdLo rs rm s).trans (guarded_of_holds hc)),
    writesLong_of_exec hhi hlo ((exec_umlal c sf rdHi rdLo rs rm s).trans (guarded_of_holds hc)),
    writesLong_of_exec hhi hlo ((exec_smull c sf rdHi rdLo rs rm s).trans (guarded_of_holds hc)),
    writesLong_of_exec hhi hlo ((exec_smlal c sf rdHi rdLo rs rm s).trans (guarded_of_holds hc))⟩

/-! ### Multiplies into R15 -/

/-- A short multiply into R15 is a PC write with its check (R238). -/
theorem shortIntoPc_of_exec {i : Instr} {sf : Bool} {rs rm : Reg} {v : Word} {s : State}
    (hexec : exec i s = writeShort sf 15#4 rs rm v s) :
    (fld 0 2 v ≠ 0#2 → endsFatal .alignmentError s.sched i s) ∧
    (fld 0 2 v = 0#2 → ∃ t, exec i s = .next t ∧ t.pc = v ∧ t.pcAltered = true ∧ sameGprsBut [] s t ∧
      sameControl s t ∧ sameElsewhere s t ∧ multiplied sf (bit 31 v) (decide (v = 0#32)) true s t) := by
  refine ⟨fun hv => ?_, fun hv => ?_⟩
  · rw [endsFatal, hexec]
    exact writeShort_of_bad s rfl hv
  · refine ⟨_, hexec.trans (writeShort_of_good s fun _ => hv), by simp, by simp, fun q _ => by simp, ?_, ?_,
      multiplied_short sf v _ _ _ (by simp)⟩
    · simp [sameControl]
    · simp [sameElsewhere, sameMachine, sameBytes]

/-- A long multiply with R15 among its destinations: each write of R15 is checked (R238). -/
theorem longIntoPc_of_exec {i : Instr} {sf : Bool} {rdHi rdLo rs rm : Reg} {p : BitVec 64} {s : State}
    (h15 : rdHi = 15#4 ∨ rdLo = 15#4) (hexec : exec i s = writeLong sf rdHi rdLo rs rm p s) :
    longIntoPc i sf rdHi rdLo p s := by
  refine ⟨fun hbad => ?_, fun hgood => ?_⟩
  · rw [endsFatal, hexec]
    exact writeLong_of_bad s hbad
  · let u : State := { s with draws := if sf then s.draws + 1 else s.draws }
    obtain ⟨ghi, glo, gother⟩ := putLong_gpr rdHi rdLo p u
    have hcpsr := putLong_cpsr rdHi rdLo p u
    have hpc : (putLong rdHi rdLo p u).pc = (if rdHi = 15#4 then fld 32 32 p else fld 0 32 p) ∧
        (putLong rdHi rdLo p u).pcAltered = true := by
      by_cases hhi : rdHi = 15#4
      · subst hhi; exact ⟨rfl, rfl⟩
      · have hlo := h15.resolve_left hhi
        subst hlo
        simp [putLong, putReg_pc_ne, hhi]
    refine ⟨_, hexec.trans (writeLong_of_good s hgood), ?_, ?_, fun hhi => ?_, fun hlo => ?_,
      fun q hqhi hqlo => ?_, ?_, ?_,
      multiplied_long sf p _ _ _ hcpsr⟩
    · rw [setFlagsIf_pc]; exact hpc.1
    · rw [setFlagsIf_pcAltered]; exact hpc.2
    · rw [setFlagsIf_gpr]; exact ghi hhi
    · rw [setFlagsIf_gpr]
      exact glo hlo fun e => hlo (e.trans (h15.resolve_right hlo))
    · rw [setFlagsIf_gpr]; exact gother q hqhi hqlo
    · simp [sameControl, putLong]
    · simp [putLong, sameElsewhere, sameMachine, sameBytes]

/-- Settles O38: the meanings of O36 and O37, with R15 among their destinations. -/
theorem multiplyIntoR15 : Obligations.MultiplyIntoR15 := by
  intro c sf rn rs rm rdHi rdLo s hc
  exact ⟨shortIntoPc_of_exec ((exec_mul c sf 15 rs rm s).trans (guarded_of_holds hc)),
    shortIntoPc_of_exec ((exec_mla c sf 15 rn rs rm s).trans (guarded_of_holds hc)),
    fun h15 => ⟨longIntoPc_of_exec h15 ((exec_umull c sf rdHi rdLo rs rm s).trans (guarded_of_holds hc)),
      longIntoPc_of_exec h15 ((exec_umlal c sf rdHi rdLo rs rm s).trans (guarded_of_holds hc)),
      longIntoPc_of_exec h15 ((exec_smull c sf rdHi rdLo rs rm s).trans (guarded_of_holds hc)),
      longIntoPc_of_exec h15 ((exec_smlal c sf rdHi rdLo rs rm s).trans (guarded_of_holds hc))⟩⟩

end Sys2Proof.Machine
end

section
/-!
PROOFS. The single transfers (spec 44_load_store.md R240 to R258) and the swaps (46_swap.md R290 to R292): what the bus
left, then a write-back and a register write, R15 among the registers; or the Data Abort, with nothing written.
-/

namespace Sys2Proof.Machine

/-! ### Write-back -/

/-- The state after a write-back that succeeds (R250). -/
def putBase (wb : Bool) (rn : Reg) (v : Word) (s : State) : State := if wb then putReg rn v s else s

@[simp] theorem putBase_true (rn : Reg) (v : Word) (s : State) : putBase true rn v s = putReg rn v s := rfl

@[simp] theorem putBase_false (rn : Reg) (v : Word) (s : State) : putBase false rn v s = s := rfl

theorem writeBack_eq_blockBase (rn : Reg) (x : Access) (s : State) :
    writeBack rn x s = blockBase x.wb rn x.target s := rfl

/-- A write-back fails only for R15 and a misaligned value (R32). -/
theorem blockBase_of_good {wb : Bool} {rn : Reg} {v : Word} (s : State) (h : ¬ badBase wb rn v) :
    blockBase wb rn v s = .next (putBase wb rn v s) := by
  cases wb with
  | false => rfl
  | true => exact setReg_of_good s fun hrn => not_not.1 fun hv => h ⟨rfl, hrn, hv⟩

theorem blockBase_of_bad {wb : Bool} {rn : Reg} {v : Word} (s : State) (h : badBase wb rn v) :
    blockBase wb rn v s = fatal .alignmentError s := by
  obtain ⟨rfl, hrn, hv⟩ := h
  exact setReg_of_bad s hrn hv

theorem not_badBase_of_ne {wb : Bool} {rn : Reg} {v : Word} (h : wb = true → rn ≠ 15#4) : ¬ badBase wb rn v :=
  fun ⟨hwb, hrn, _⟩ => h hwb hrn

section
variable (wb : Bool) (rn : Reg) (v : Word) (s : State)

@[simp] theorem putBase_cpsr : (putBase wb rn v s).cpsr = s.cpsr := by cases wb <;> simp
@[simp] theorem putBase_spsr : (putBase wb rn v s).spsr = s.spsr := by cases wb <;> simp
@[simp] theorem putBase_mem : (putBase wb rn v s).mem = s.mem := by cases wb <;> simp
@[simp] theorem putBase_sched : (putBase wb rn v s).sched = s.sched := by cases wb <;> simp
@[simp] theorem putBase_draws : (putBase wb rn v s).draws = s.draws := by cases wb <;> simp

theorem sameMachine_putBase : sameMachine s (putBase wb rn v s) := by
  cases wb with
  | false => exact ⟨rfl, rfl, rfl, rfl, rfl, rfl⟩
  | true => exact sameMachine_putReg rn v s

end

theorem sameMachine.trans {s t u : State} (h : sameMachine s t) (k : sameMachine t u) : sameMachine s u := by
  obtain ⟨h1, h2, h3, h4, h5, h6⟩ := h
  obtain ⟨k1, k2, k3, k4, k5, k6⟩ := k
  exact ⟨k1.trans h1, k2.trans h2, k3.trans h3, k4.trans h4, k5.trans h5, k6.trans h6⟩

/-- The registers that a write-back changes, R15 aside. -/
theorem putBase_gpr (wb : Bool) (rn : Reg) (v : Word) (s : State) :
    (wb = true → rn ≠ 15#4 → (putBase wb rn v s).gpr[phys s.cpsr.mode rn] = v) ∧
    ∀ q : Fin 30, (wb = true → rn = 15#4 ∨ q ≠ phys s.cpsr.mode rn) → (putBase wb rn v s).gpr[q] = s.gpr[q] := by
  cases wb with
  | false => exact ⟨nofun, fun _ _ => rfl⟩
  | true => exact ⟨fun _ hrn => putReg_gpr_same v rfl hrn, fun q hq => putReg_gpr_ne v s (hq rfl)⟩

theorem sameGprsBut_putBase {wb : Bool} {rn : Reg} {v : Word} {s : State} :
    sameGprsBut (if wb then [phys s.cpsr.mode rn] else []) s (putBase wb rn v s) := by
  intro q hq
  refine (putBase_gpr wb rn v s).2 q fun hwb => .inr fun e => hq ?_
  rw [hwb, e]
  exact List.mem_singleton_self _

/-- R15 after a write-back to another register. -/
theorem putBase_pc {wb : Bool} {rn : Reg} (v : Word) (s : State) (h : wb = true → rn ≠ 15#4) :
    (putBase wb rn v s).pc = s.pc ∧ (putBase wb rn v s).pcAltered = s.pcAltered := by
  cases wb with
  | false => exact ⟨rfl, rfl⟩
  | true => exact putReg_pc_ne v s (h rfl)

/-! ### What the bus leaves -/

/-- What accesses leave: everything but memory, the Scheduler and the counter of free values. -/
def busLeft (s u : State) : Prop := u = { s with mem := u.mem, sched := u.sched, draws := u.draws }

theorem busLeft_of_sameButDevices {s u : State} (h : sameButDevices s u) : busLeft s u ∧ u.mem = s.mem := by
  rw [h]
  exact ⟨rfl, rfl⟩

section
variable {s u : State} (h : busLeft s u)
include h

theorem busLeft.exists_eq : ∃ m d n, u = { s with mem := m, sched := d, draws := n } := ⟨_, _, _, h⟩
theorem busLeft.cpsr : u.cpsr = s.cpsr := by rw [h]
theorem busLeft.gpr : u.gpr = s.gpr := by rw [h]
theorem busLeft.pc : u.pc = s.pc := by rw [h]
theorem busLeft.pcAltered : u.pcAltered = s.pcAltered := by rw [h]
theorem busLeft.spsr : u.spsr = s.spsr := by rw [h]
theorem busLeft.sameMachine : sameMachine s u := by rw [h]; exact ⟨rfl, rfl, rfl, rfl, rfl, rfl⟩

end

/-- The registers that a write-back changes, in terms of the state before the access. -/
theorem putBase_gpr_of_busLeft (wb : Bool) (rn : Reg) (v : Word) {s u : State} (hu : busLeft s u) :
    (wb = true → rn ≠ 15#4 → (putBase wb rn v u).gpr[phys s.cpsr.mode rn] = v) ∧
    sameGprsBut (if wb then [phys s.cpsr.mode rn] else []) s (putBase wb rn v u) := by
  obtain ⟨m, d, n, rfl⟩ := hu.exists_eq
  exact ⟨(putBase_gpr wb rn v { s with mem := m, sched := d, draws := n }).1,
    sameGprsBut_putBase (s := { s with mem := m, sched := d, draws := n })⟩

/-! ### Loads -/

/-- The state after a load that succeeds: the base is written back, then Rd is written (R242, R250). -/
def loaded (rd rn : Reg) (x : Access) (value : Word) (u : State) : State :=
  putReg rd value (putBase x.wb rn x.target u)

/-- A load whose read succeeds ends in the two register writes, each checked if it is of R15. -/
theorem loadTransfer_of_good {w : Width} {f : Word → Word → Word} {rd rn : Reg} {x : Access} {s u : State} {v : Word}
    (hread : memRead s x.addr w = (some v, u)) (hbase : ¬ badBase x.wb rn x.target)
    (hrd : rd = 15#4 → fld 0 2 (f x.addr v) = 0#2) :
    loadTransfer w f rd rn x s = .next (loaded rd rn x (f x.addr v) u) := by
  simp only [loadTransfer, hread, writeBack_eq_blockBase, blockBase_of_good u hbase, thenDo_next, setReg_of_good _ hrd,
    loaded]

theorem loadTransfer_of_bad {w : Width} {f : Word → Word → Word} {rd rn : Reg} {x : Access} {s u : State} {v : Word}
    (hread : memRead s x.addr w = (some v, u))
    (hbad : badBase x.wb rn x.target ∨ (rd = 15#4 ∧ fld 0 2 (f x.addr v) ≠ 0#2)) :
    loadTransfer w f rd rn x s = fatal .alignmentError u := by
  simp only [loadTransfer, hread, writeBack_eq_blockBase]
  by_cases hbase : badBase x.wb rn x.target
  · rw [blockBase_of_bad u hbase, thenDo_fatal]
  · obtain ⟨hrd, hv⟩ := hbad.resolve_left hbase
    rw [blockBase_of_good u hbase, thenDo_next, setReg_of_bad _ hrd hv]
    simp [fatal]

/-- What a load leaves unchanged, whatever its registers. -/
theorem loaded_frame {rd rn : Reg} {x : Access} {value : Word} {s u : State} (hu : sameButDevices s u) :
    (loaded rd rn x value u).cpsr = s.cpsr ∧ sameMachine s (loaded rd rn x value u) ∧
      sameBytes s (loaded rd rn x value u) ∧ (loaded rd rn x value u).sched = u.sched := by
  obtain ⟨hbus, hmem⟩ := busLeft_of_sameButDevices hu
  refine ⟨by simp [loaded, hbus.cpsr], ?_, fun a => by simp [loaded, hmem], by simp [loaded]⟩
  exact hbus.sameMachine.trans ((sameMachine_putBase ..).trans (sameMachine_putReg ..))

/-- The registers after a load: Rd wins over the base (R250). -/
theorem loaded_gpr (rd rn : Reg) (x : Access) (value : Word) {s u : State} (hu : busLeft s u) :
    (rd ≠ 15#4 → (loaded rd rn x value u).gpr[phys s.cpsr.mode rd] = value) ∧
    (x.wb = true → rn ≠ 15#4 → rn ≠ rd → (loaded rd rn x value u).gpr[phys s.cpsr.mode rn] = x.target) ∧
    ∀ q : Fin 30, (rd = 15#4 ∨ q ≠ phys s.cpsr.mode rd) → (x.wb = true → rn = 15#4 ∨ q ≠ phys s.cpsr.mode rn) →
      (loaded rd rn x value u).gpr[q] = s.gpr[q] := by
  obtain ⟨m, d, n, rfl⟩ := hu.exists_eq
  have hmode : (putBase x.wb rn x.target { s with mem := m, sched := d, draws := n }).cpsr.mode = s.cpsr.mode := by simp
  obtain ⟨gbase, gother⟩ := putBase_gpr x.wb rn x.target { s with mem := m, sched := d, draws := n }
  refine ⟨fun hrd => putReg_gpr_same _ hmode hrd, fun hwb hrn hne => ?_, fun q hqd hqn => ?_⟩
  · rw [loaded, putReg_gpr_ne _ _ ?_]
    · exact gbase hwb hrn
    · rw [hmode]
      by_cases hrd : rd = 15#4
      · exact .inl hrd
      · exact .inr fun e => hne (phys_injective _ _ _ hrn hrd e)
  · rw [loaded, putReg_gpr_ne _ _ (by rwa [hmode])]
    exact gother q hqn

section
variable {i : Instr} {w : Width} {f : Word → Word → Word} {rd rn : Reg} {x : Access} {value : Word → Word} {s : State}

/-- A load into a register other than R15, with no write-back to R15 (R242, R250). -/
theorem loadsAs_of_exec (hexec : exec i s = loadTransfer w f rd rn x s) (hvalue : f x.addr = value) :
    loadsAs i w rd rn x value s := by
  subst hvalue
  intro v u hread hrd hrn
  have hu : sameButDevices s u := memRead_frame hread
  obtain ⟨hbus, -⟩ := busLeft_of_sameButDevices hu
  obtain ⟨hcpsr, hmachine, hbytes, hsched⟩ := loaded_frame (rd := rd) (rn := rn) (x := x) (value := f x.addr v) hu
  obtain ⟨gd, gn, gother⟩ := loaded_gpr rd rn x (f x.addr v) hbus
  have hpcd := putReg_pc_ne (f x.addr v) (putBase x.wb rn x.target u) hrd
  have hpcn := putBase_pc x.target u hrn
  refine ⟨_, hexec.trans (loadTransfer_of_good hread (not_badBase_of_ne hrn) fun h => absurd h hrd), gd hrd,
    fun hwb hne => gn hwb (hrn hwb) hne, fun q hq => gother q (.inr ?_) fun hwb => .inr ?_, ?_, ?_, hcpsr, hmachine,
    hbytes,
    hsched⟩
  · exact fun e => hq (List.mem_cons.2 (.inl e))
  · refine fun e => hq (List.mem_cons_of_mem _ ?_)
    rw [backed, hwb, e]
    exact List.mem_singleton_self _
  · exact hpcd.1.trans (hpcn.1.trans hbus.pc)
  · exact hpcd.2.trans (hpcn.2.trans hbus.pcAltered)

/-- A load into R15, with no write-back to R15 (R252). -/
theorem loadsPcAs_of_exec (hexec : exec i s = loadTransfer w f 15#4 rn x s) (hvalue : f x.addr = value) :
    loadsPcAs i w rn x value s := by
  subst hvalue
  intro v u hread hrn
  have hu : sameButDevices s u := memRead_frame hread
  obtain ⟨hbus, -⟩ := busLeft_of_sameButDevices hu
  obtain ⟨hcpsr, hmachine, hbytes, hsched⟩ := loaded_frame (rd := 15#4) (rn := rn) (x := x) (value := f x.addr v) hu
  obtain ⟨-, gn, gother⟩ := loaded_gpr 15#4 rn x (f x.addr v) hbus
  refine ⟨fun hv => ⟨u.draws, hexec.trans (loadTransfer_of_bad hread (.inr ⟨rfl, hv⟩))⟩, fun hv =>
    ⟨_, hexec.trans (loadTransfer_of_good hread (not_badBase_of_ne hrn) fun _ => hv), rfl, rfl,
      fun hwb => gn hwb (hrn hwb) (hrn hwb), fun q hq => gother q (.inl rfl) fun hwb => .inr fun e => hq ?_, hcpsr,
      hmachine,
      hbytes, hsched⟩⟩
  rw [backed, hwb, e]
  exact List.mem_singleton_self _

/-- A load that writes its base R15 back (R250, R252). -/
theorem loadBacksPc_of_exec (hexec : exec i s = loadTransfer w f rd 15#4 x s) (hvalue : f x.addr = value) :
    loadBacksPc i w rd x value s := by
  subst hvalue
  intro v u hread hwb
  have hu : sameButDevices s u := memRead_frame hread
  obtain ⟨hbus, -⟩ := busLeft_of_sameButDevices hu
  obtain ⟨hcpsr, hmachine, hbytes, hsched⟩ := loaded_frame (rd := rd) (rn := 15#4) (x := x) (value := f x.addr v) hu
  obtain ⟨gd, -, gother⟩ := loaded_gpr rd 15#4 x (f x.addr v) hbus
  refine ⟨fun hbad => ⟨u.draws, hexec.trans (loadTransfer_of_bad hread (hbad.imp_left fun h => ⟨hwb, rfl, h⟩))⟩,
    fun htarget hvalue => ?_⟩
  have hpc : (loaded rd 15#4 x (f x.addr v) u).pc = (if rd = 15#4 then f x.addr v else x.target) ∧
      (loaded rd 15#4 x (f x.addr v) u).pcAltered = true := by
    by_cases hrd : rd = 15#4
    · subst hrd; exact ⟨rfl, rfl⟩
    · simp [loaded, hwb, putReg_pc_ne, hrd]
  refine ⟨_, hexec.trans (loadTransfer_of_good hread (fun ⟨_, _, h⟩ => h htarget) hvalue), hpc.1, hpc.2, gd,
    fun q hq => gother q ?_ fun _ => .inl rfl, hcpsr, hmachine, hbytes, hsched⟩
  by_cases hrd : rd = 15#4
  · exact .inl hrd
  · rw [if_neg hrd] at hq
    exact .inr fun e => hq (List.mem_singleton.2 e)

/-- A load whose read fails (R251). -/
theorem abortsOnRead_of_exec (hexec : exec i s = loadTransfer w f rd rn x s) : abortsOnRead i w x s := by
  intro u hread
  refine ⟨memRead_frame hread, _, hexec.trans ?_, entered_raiseException .data u⟩
  simp only [loadTransfer, hread]

end

/-! ### Stores -/

section
variable {i : Instr} {w : Width} {v : Word} {rn : Reg} {x : Access} {s u : State}

theorem storeTransfer_of_good (hwrite : memWrite s x.addr w v = (u, true)) (hbase : ¬ badBase x.wb rn x.target) :
    storeTransfer w v rn x s = .next (putBase x.wb rn x.target u) := by
  simp only [storeTransfer, hwrite, writeBack_eq_blockBase, blockBase_of_good u hbase]

/-- A store with no write-back to R15 (R244, R250). -/
theorem storesAs_of_exec (hexec : exec i s = storeTransfer w v rn x s) : storesAs i w v rn x s := by
  intro u hwrite hrn
  have hbus : busLeft s u := memWrite_frame hwrite
  have hpc := putBase_pc x.target u hrn
  obtain ⟨gbase, gother⟩ := putBase_gpr_of_busLeft x.wb rn x.target hbus
  refine ⟨_, hexec.trans (storeTransfer_of_good hwrite (not_badBase_of_ne hrn)), fun hwb => gbase hwb (hrn hwb),
    gother, hpc.1.trans hbus.pc, hpc.2.trans hbus.pcAltered, by simp [hbus.cpsr],
    hbus.sameMachine.trans (sameMachine_putBase ..), by simp, by simp, fun a ha => ?_⟩
  rw [putBase_mem, memWrite_outside hwrite ha]

/-- A store that writes its base R15 back (R250). -/
theorem storeBacksPc_of_exec (hexec : exec i s = storeTransfer w v 15#4 x s) : storeBacksPc i w v x s := by
  intro u hwrite hwb
  have hbus : busLeft s u := memWrite_frame hwrite
  refine ⟨fun hbad => ⟨u.draws, hexec.trans ?_⟩, fun htarget => ?_⟩
  · simp only [storeTransfer, hwrite, writeBack_eq_blockBase, blockBase_of_bad u ⟨hwb, rfl, hbad⟩, fatal]
  · have hput : putBase x.wb 15#4 x.target u = { u with pc := x.target, pcAltered := true } := by rw [hwb]; rfl
    refine ⟨_, hexec.trans (storeTransfer_of_good hwrite fun ⟨_, _, h⟩ => h htarget), ?_, ?_, fun q _ => ?_,
      by simp [hbus.cpsr], hbus.sameMachine.trans (sameMachine_putBase ..), by simp, by simp, fun a ha => ?_⟩
    · rw [hput]
    · rw [hput]
    · rw [hput, hbus.gpr]
    · rw [putBase_mem, memWrite_outside hwrite ha]

/-- A store whose write fails (R251). -/
theorem abortsOnWrite_of_exec (hexec : exec i s = storeTransfer w v rn x s) : abortsOnWrite i w v x s := by
  intro u hwrite
  have hbus : busLeft s u := memWrite_frame hwrite
  refine ⟨?_, _, hexec.trans ?_, entered_raiseException .data u⟩
  · rw [busLeft, memWrite_failed_mem hwrite] at hbus
    exact hbus
  · simp only [storeTransfer, hwrite]

end

/-! ### The values of the loads -/

/-- The word of an unaligned load is rotated by its address (R242). -/
theorem rotateByAddress_eq (addr : Word) : rotateByAddress addr = fun v => v.rotateRight (8 * (addr.toNat % 4)) := by
  funext v
  have : (fld 0 2 addr).toNat = addr.toNat % 4 := by simp [fld, BitVec.extractLsb'_toNat]
  rw [rotateByAddress, this]

theorem plainValue_eq (addr : Word) : plainValue addr = id := rfl

theorem sext8_eq : sext8 = fun v => (v.setWidth 8).signExtend 32 := by
  funext v
  rw [sext8, fld, BitVec.setWidth_eq_extractLsb' (by omega)]

theorem sext16_eq : sext16 = fun v => (v.setWidth 16).signExtend 32 := by
  funext v
  rw [sext16, fld, BitVec.setWidth_eq_extractLsb' (by omega)]

/-- Settles O40: each of the seven meanings is `loadTransfer` with its width and its value. -/
theorem loadsIntoRegisters : Obligations.LoadsIntoRegisters := by
  intro c rd a h u rn off s hc
  exact ⟨loadsAs_of_exec ((exec_ldr c rd a s).trans (guarded_of_holds hc)) (rotateByAddress_eq _),
    loadsAs_of_exec ((exec_ldrb c rd a s).trans (guarded_of_holds hc)) (plainValue_eq _),
    loadsAs_of_exec ((exec_ldrt c rd u rn off s).trans (guarded_of_holds hc)) (rotateByAddress_eq _),
    loadsAs_of_exec ((exec_ldrbt c rd u rn off s).trans (guarded_of_holds hc)) (plainValue_eq _),
    loadsAs_of_exec ((exec_ldrh c rd h s).trans (guarded_of_holds hc)) (plainValue_eq _),
    loadsAs_of_exec ((exec_ldrsb c rd h s).trans (guarded_of_holds hc)) sext8_eq,
    loadsAs_of_exec ((exec_ldrsh c rd h s).trans (guarded_of_holds hc)) sext16_eq⟩

/-- Settles O41: the same seven meanings with Rd = R15. -/
theorem loadsIntoR15 : Obligations.LoadsIntoR15 := by
  intro c a h u rn off s hc
  exact ⟨loadsPcAs_of_exec ((exec_ldr c 15 a s).trans (guarded_of_holds hc)) (rotateByAddress_eq _),
    loadsPcAs_of_exec ((exec_ldrb c 15 a s).trans (guarded_of_holds hc)) (plainValue_eq _),
    loadsPcAs_of_exec ((exec_ldrt c 15 u rn off s).trans (guarded_of_holds hc)) (rotateByAddress_eq _),
    loadsPcAs_of_exec ((exec_ldrbt c 15 u rn off s).trans (guarded_of_holds hc)) (plainValue_eq _),
    loadsPcAs_of_exec ((exec_ldrh c 15 h s).trans (guarded_of_holds hc)) (plainValue_eq _),
    loadsPcAs_of_exec ((exec_ldrsb c 15 h s).trans (guarded_of_holds hc)) sext8_eq,
    loadsPcAs_of_exec ((exec_ldrsh c 15 h s).trans (guarded_of_holds hc)) sext16_eq⟩

/-- Settles O42: each of the five meanings is `storeTransfer` of the register's value. -/
theorem storesToMemory : Obligations.StoresToMemory := by
  intro c rd a h u rn off s hc
  exact ⟨storesAs_of_exec ((exec_str c rd a s).trans (guarded_of_holds hc)),
    storesAs_of_exec ((exec_strb c rd a s).trans (guarded_of_holds hc)),
    storesAs_of_exec ((exec_strt c rd u rn off s).trans (guarded_of_holds hc)),
    storesAs_of_exec ((exec_strbt c rd u rn off s).trans (guarded_of_holds hc)),
    storesAs_of_exec ((exec_strh c rd h s).trans (guarded_of_holds hc))⟩

/-- Settles O43: the failing branch of `loadTransfer` and of `storeTransfer`. -/
theorem transferAborts : Obligations.TransferAborts := by
  intro c rd a h u rn off s hc
  exact ⟨⟨abortsOnRead_of_exec ((exec_ldr c rd a s).trans (guarded_of_holds hc)),
      abortsOnRead_of_exec ((exec_ldrb c rd a s).trans (guarded_of_holds hc)),
      abortsOnRead_of_exec ((exec_ldrt c rd u rn off s).trans (guarded_of_holds hc)),
      abortsOnRead_of_exec ((exec_ldrbt c rd u rn off s).trans (guarded_of_holds hc)),
      abortsOnRead_of_exec ((exec_ldrh c rd h s).trans (guarded_of_holds hc)),
      abortsOnRead_of_exec ((exec_ldrsb c rd h s).trans (guarded_of_holds hc)),
      abortsOnRead_of_exec ((exec_ldrsh c rd h s).trans (guarded_of_holds hc))⟩,
    ⟨abortsOnWrite_of_exec ((exec_str c rd a s).trans (guarded_of_holds hc)),
      abortsOnWrite_of_exec ((exec_strb c rd a s).trans (guarded_of_holds hc)),
      abortsOnWrite_of_exec ((exec_strt c rd u rn off s).trans (guarded_of_holds hc)),
      abortsOnWrite_of_exec ((exec_strbt c rd u rn off s).trans (guarded_of_holds hc)),
      abortsOnWrite_of_exec ((exec_strh c rd h s).trans (guarded_of_holds hc))⟩⟩

/-- Settles O45: the two meanings leave the state as it is, whether or not their condition holds. -/
theorem halfwordNoOperation : Obligations.HalfwordNoOperation := by
  intro c rd a s
  rw [exec_halfwordL0Sh2, exec_halfwordL0Sh3]
  cases hc : condHolds c s.cpsr with
  | true => simp only [guarded_of_holds hc, and_self]
  | false => simp only [guarded_of_fails hc, and_self]

end Sys2Proof.Machine
end

section
/-!
PROOFS. The swaps (spec 46_swap.md R290 to R292), which end in one register write, and the branches (47_branch.md R295
to R299), which end in one PC write.
-/

namespace Sys2Proof.Machine

/-! ### Swaps -/

theorem busLeft.trans {s t u : State} (h : busLeft s t) (k : busLeft t u) : busLeft s u := by
  rw [busLeft, k, h]

/-- What a swap does whose read and write succeed (R290, R291). -/
def swapsAs (i : Instr) (w : Width) (rn rd rm : Reg) (value : Word → Word) (s : State) : Prop :=
  ∀ v s1 s2, memRead s (reg s rn) w = (some v, s1) → memWrite s1 (reg s rn) w (reg s rm) = (s2, true) →
    (rd ≠ 15#4 → ∃ t, exec i s = .next t ∧ t.gpr[phys s.cpsr.mode rd] = value v ∧
      sameGprsBut [phys s.cpsr.mode rd] s t ∧ t.pc = s.pc ∧ t.pcAltered = s.pcAltered ∧ t.cpsr = s.cpsr ∧
      sameMachine s t ∧ t.mem = s2.mem ∧ t.sched = s2.sched ∧
      ∀ a, a < (alignTo w (reg s rn)).toNat ∨ (alignTo w (reg s rn)).toNat + w.bytes ≤ a →
        readByte t.mem a = readByte s.mem a) ∧
    (rd = 15#4 → fld 0 2 (value v) ≠ 0#2 → endsFatal .alignmentError s2.sched i s) ∧
    (rd = 15#4 → fld 0 2 (value v) = 0#2 → ∃ t, exec i s = .next t ∧ t.pc = value v ∧ t.pcAltered = true ∧
      sameGprsBut [] s t ∧ t.cpsr = s.cpsr ∧ sameMachine s t ∧ t.mem = s2.mem ∧ t.sched = s2.sched)

/-- What a swap does whose read or write fails (R292). -/
def swapAborts (i : Instr) (w : Width) (rn rm : Reg) (s : State) : Prop :=
  (∀ s1, memRead s (reg s rn) w = (none, s1) →
    sameButDevices s s1 ∧ ∃ t, exec i s = .next t ∧ entered .data s1 t ∧ t.mem = s.mem) ∧
  (∀ v s1 s2, memRead s (reg s rn) w = (some v, s1) → memWrite s1 (reg s rn) w (reg s rm) = (s2, false) →
    sameButDevices s s2 ∧ ∃ t, exec i s = .next t ∧ entered .data s2 t ∧ t.mem = s.mem)

section
variable {i : Instr} {w : Width} {f : Word → Word → Word} {rn rd rm : Reg} {s : State}

/-- What the read and the write of a swap leave. -/
theorem busLeft_of_swap {s s1 s2 : State} {o : Option Word} {ok : Bool} {a v : Word}
    (hread : memRead s a w = (o, s1)) (hwrite : memWrite s1 a w v = (s2, ok)) : busLeft s s2 ∧ s1.mem = s.mem := by
  obtain ⟨hbus, hmem⟩ := busLeft_of_sameButDevices (memRead_frame hread)
  exact ⟨hbus.trans (memWrite_frame hwrite), hmem⟩

theorem swapTransfer_of_good {v : Word} {s1 s2 : State} (hread : memRead s (reg s rn) w = (some v, s1))
    (hwrite : memWrite s1 (reg s rn) w (reg s rm) = (s2, true)) :
    swapTransfer w f rn rd rm s = setReg rd (f (reg s rn) v) s2 := by simp only [swapTransfer, hread, hwrite]

theorem swapsAs_of_exec {value : Word → Word} (hexec : exec i s = swapTransfer w f rn rd rm s)
    (hvalue : f (reg s rn) = value) : swapsAs i w rn rd rm value s := by
  subst hvalue
  intro v s1 s2 hread hwrite
  obtain ⟨hbus, hmem⟩ := busLeft_of_swap hread hwrite
  have hset : exec i s = setReg rd (f (reg s rn) v) s2 := hexec.trans (swapTransfer_of_good hread hwrite)
  have hmachine := hbus.sameMachine.trans (sameMachine_putReg rd (f (reg s rn) v) s2)
  refine ⟨fun hrd => ?_, fun hrd hbad => ?_, fun hrd hgood => ?_⟩
  · obtain ⟨hgpr, hgprs⟩ := putBase_gpr_of_busLeft true rd (f (reg s rn) v) hbus
    have hpc := putReg_pc_ne (f (reg s rn) v) s2 hrd
    refine ⟨_, hset.trans (setReg_of_good s2 fun h => absurd h hrd), hgpr rfl hrd, hgprs, hpc.1.trans hbus.pc,
      hpc.2.trans hbus.pcAltered, by simp [hbus.cpsr], hmachine, by simp, by simp, fun a ha => ?_⟩
    rw [putReg_mem, memWrite_outside hwrite ha, hmem]
  · exact ⟨s2.draws, hset.trans (setReg_of_bad s2 hrd hbad)⟩
  · subst hrd
    exact ⟨_, hset.trans (setReg_of_good s2 fun _ => hgood), rfl, rfl, fun q _ => by rw [putReg_pc, hbus.gpr],
      by simp [hbus.cpsr], hmachine, by simp, by simp⟩

theorem swapAborts_of_exec (hexec : exec i s = swapTransfer w f rn rd rm s) : swapAborts i w rn rm s := by
  refine ⟨fun s1 hread => ?_, fun v s1 s2 hread hwrite => ?_⟩
  · have hleft : sameButDevices s s1 := memRead_frame hread
    refine ⟨hleft, _, hexec.trans ?_, entered_raiseException .data s1, ?_⟩
    · simp only [swapTransfer, hread]
    · rw [raiseException_mem, (busLeft_of_sameButDevices hleft).2]
  · obtain ⟨hbus, hmem⟩ := busLeft_of_swap hread hwrite
    have hkept : s2.mem = s.mem := (memWrite_failed_mem hwrite).trans hmem
    refine ⟨?_, _, hexec.trans ?_, entered_raiseException .data s2, ?_⟩
    · rw [busLeft, hkept] at hbus
      exact hbus
    · simp only [swapTransfer, hread, hwrite]
    · rw [raiseException_mem, hkept]

end

/-- Settles O51: both meanings are `swapTransfer`, with the rotation of a load word or with the byte as it is. -/
theorem swaps : Obligations.Swaps := by
  refine ⟨fun c rn rd rm s hc => ⟨?swp, ?swpb⟩, fun c rn rd rm s hc => ⟨?swpAborts, ?swpbAborts⟩⟩
  case swp => exact swapsAs_of_exec ((exec_swp c rn rd rm s).trans (guarded_of_holds hc)) (rotateByAddress_eq _)
  case swpb => exact swapsAs_of_exec ((exec_swpb c rn rd rm s).trans (guarded_of_holds hc)) rfl
  case swpAborts => exact swapAborts_of_exec ((exec_swp c rn rd rm s).trans (guarded_of_holds hc))
  case swpbAborts => exact swapAborts_of_exec ((exec_swpb c rn rd rm s).trans (guarded_of_holds hc))

/-! ### Branches -/

/-- The target is R15 plus four times the signed offset (R295). -/
theorem branchTarget_eq (offset24 : BitVec 24) (s : State) :
    branchTarget offset24 s = BitVec.ofInt 32 (s.pc.toNat + 4 * offset24.toInt) := by
  have hfour : offset24.signExtend 32 <<< 2 = BitVec.ofInt 32 4 * BitVec.ofInt 32 offset24.toInt := by
    rw [BitVec.shiftLeft_eq_mul_twoPow, BitVec.mul_comm]
    rfl
  rw [branchTarget, hfour, BitVec.ofInt_add, BitVec.ofInt_mul, BitVec.ofInt_natCast, BitVec.ofNat_toNat,
    BitVec.setWidth_eq]

/-- The target of a branch from an aligned R15 is aligned. -/
theorem branchTarget_aligned {s : State} (offset24 : BitVec 24) (h : s.pc.toNat % 4 = 0) :
    fld 0 2 (branchTarget offset24 s) = 0#2 := by
  rw [fld_low_two, branchTarget, BitVec.toNat_add, BitVec.toNat_shiftLeft, Nat.shiftLeft_eq]
  omega

/-- A word is a multiple of 4 iff its low two bits are clear. -/
theorem fld_low_two_iff_bits {v : Word} : fld 0 2 v = 0#2 ↔ bit 0 v = false ∧ bit 1 v = false := by
  simp only [fld_low_two, bit, BitVec.getLsbD, Nat.testBit_eq_decide_div_mod_eq, decide_eq_false_iff_not]
  omega

theorem sameElsewhere_link (v : Word) (s : State) (p : Fin 30) (x : Word) :
    sameElsewhere s { setGpr p x s with pc := v, pcAltered := true } := by
  simp [sameElsewhere, sameMachine, sameBytes]

/-- Settles O52: B and BL end in a PC write of the aligned target, BX in one of its register unless bit 0 is set. -/
theorem branches : Obligations.Branches := by
  refine ⟨fun c offset24 s hc hpc => ?branch, fun c rm s hc => ?exchange⟩
  case branch =>
    have hgood := branchTarget_aligned offset24 hpc
    have hb := (exec_b c offset24 s).trans (guarded_of_holds hc)
    have hbl := (exec_bl c offset24 s).trans (guarded_of_holds hc)
    rw [setReg_of_ne _ s (by decide), thenDo_next, writePc_of_aligned _ hgood] at hbl
    simp only [← branchTarget_eq]
    exact ⟨(writesPc_of_writePc hb).1 hgood, _, hbl, rfl, rfl, setGpr_gpr_same .., sameGprsBut_setGpr _ _ s, rfl,
      sameElsewhere_link ..⟩
  case exchange =>
    have hbx := (exec_bx c rm s).trans (guarded_of_holds hc)
    refine ⟨fun hodd => ⟨s.draws, ?_⟩, fun heven htwo => ?_, fun hgood => ?_⟩
    · rw [hbx, if_pos hodd]; rfl
    · rw [if_neg (by simp [heven])] at hbx
      exact (writesPc_of_writePc hbx).2 fun h => by simp [fld_low_two_iff_bits, htwo] at h
    · rw [if_neg (by simp [(fld_low_two_iff_bits.1 hgood).1])] at hbx
      exact (writesPc_of_writePc hbx).1 hgood

end Sys2Proof.Machine
end

section
/-!
PROOFS. The block transfers (spec 45_block_transfer.md R270 to R281): what LDM and STM are once their words are read or
written, the registers after an LDM, and its two ends with R15 in the list.
-/

namespace Sys2Proof.Machine

/-! ### The registers after an LDM -/

/-- The state after an LDM's write-back and its loads, before R15 (R272, R275, R276). -/
def loadedRegs (sBit w : Bool) (rn : Reg) (list : BitVec 16) (wbval : Word) (vs : List Word) (u : State) : State :=
  loadRegisters (loadMode sBit list u) ((listed list).zip vs) (putBase w rn wbval u)

section
variable (sBit w : Bool) (rn : Reg) (list : BitVec 16) (wbval : Word) (vs : List Word) (u : State)

@[simp] theorem loadedRegs_cpsr : (loadedRegs sBit w rn list wbval vs u).cpsr = u.cpsr := by
  rw [loadedRegs, loadRegisters_frame]; exact putBase_cpsr ..
@[simp] theorem loadedRegs_spsr : (loadedRegs sBit w rn list wbval vs u).spsr = u.spsr := by
  rw [loadedRegs, loadRegisters_frame]; exact putBase_spsr ..
@[simp] theorem loadedRegs_mem : (loadedRegs sBit w rn list wbval vs u).mem = u.mem := by
  rw [loadedRegs, loadRegisters_frame]; exact putBase_mem ..
@[simp] theorem loadedRegs_sched : (loadedRegs sBit w rn list wbval vs u).sched = u.sched := by
  rw [loadedRegs, loadRegisters_frame]; exact putBase_sched ..
@[simp] theorem loadedRegs_draws : (loadedRegs sBit w rn list wbval vs u).draws = u.draws := by
  rw [loadedRegs, loadRegisters_frame]; exact putBase_draws ..
theorem loadedRegs_pc : (loadedRegs sBit w rn list wbval vs u).pc = (putBase w rn wbval u).pc := by
  rw [loadedRegs, loadRegisters_frame]
theorem loadedRegs_pcAltered : (loadedRegs sBit w rn list wbval vs u).pcAltered = (putBase w rn wbval u).pcAltered := by
  rw [loadedRegs, loadRegisters_frame]

theorem sameMachine_loadedRegs : sameMachine u (loadedRegs sBit w rn list wbval vs u) := by
  rw [loadedRegs, loadRegisters_frame]; exact sameMachine_putBase w rn wbval u

end

/-- A register that an LDM loads is one of its targets. -/
theorem phys_mem_loadTargets {sBit : Bool} {list : BitVec 16} {vs : List Word} {s : State} {q : Reg × Word}
    (hq : q ∈ (listed list).zip vs) (h : q.1 ≠ 15#4) :
    phys (loadMode sBit list s) q.1 ∈ loadTargets sBit list s := by
  refine List.mem_map_of_mem (List.mem_filter.2 ⟨(List.of_mem_zip hq).1, ?_⟩)
  simpa using h

/-- The listed registers have their values, the base is written back unless it is listed, the others are unchanged. -/
theorem loadedBlock_of_loadedRegs {sBit w : Bool} {rn : Reg} {list : BitVec 16} {wbval : Word} {vs : List Word}
    {s u x : State} (hlen : vs.length = (listed list).length) (hu : busLeft s u)
    (hx : x.gpr = (loadedRegs sBit w rn list wbval vs u).gpr) :
    loadedBlock sBit (w && rn != 15#4) rn list wbval vs s x := by
  obtain ⟨m, d, n, rfl⟩ := hu.exists_eq
  have hother {q : Fin 30} (hq : q ∉ loadTargets sBit list s) :
      x.gpr[q] = (putBase w rn wbval { s with mem := m, sched := d, draws := n }).gpr[q] := by
    rw [hx]
    exact loadRegisters_gpr_ne _ _ _ fun p hp h15 e => hq (e ▸ phys_mem_loadTargets hp h15)
  obtain ⟨gbase, gother⟩ := putBase_gpr w rn wbval { s with mem := m, sched := d, draws := n }
  refine ⟨fun k r hk hr => ?_, fun hwb hq => ?_, fun q hq => ?_⟩
  · have hkv : k < vs.length := hlen ▸ (List.getElem?_eq_some_iff.1 hk).1
    have hzip : ((listed list).zip vs)[k]? = some (r, vs[k]) := by
      rw [List.getElem?_zip_eq_some]; exact ⟨hk, List.getElem?_eq_getElem hkv⟩
    have hdistinct : (((listed list).zip vs).map Prod.fst).Pairwise (· ≠ ·) := by
      rw [List.map_fst_zip hlen.ge]
      exact (listed_pairwise_lt list).imp fun h e => by rw [e] at h; exact absurd h (Nat.lt_irrefl _)
    rw [List.getElem?_eq_getElem hkv, hx]
    exact congrArg some (loadRegisters_gpr hdistinct hzip hr).symm
  · simp only [Bool.and_eq_true, bne_iff_ne] at hwb
    rw [hother hq]
    exact gbase hwb.1 hwb.2
  · obtain ⟨hload, hback⟩ := not_or.1 (mt List.mem_append.2 hq)
    rw [hother hload]
    refine gother q fun hwb => ?_
    by_cases hrn : rn = 15#4
    · exact .inl hrn
    · refine .inr fun e => hback ?_
      simp [hwb, hrn, e]

/-! ### The ends of an LDM -/

section
variable {sBit w : Bool} {rn : Reg} {list : BitVec 16} {wbval : Word} {vs : List Word} (u : State)

theorem finishLoad_of_bad (h : badBase w rn wbval) :
    finishLoad sBit w rn list wbval vs u = fatal .alignmentError u := by
  rw [finishLoad, blockBase_of_bad u h, thenDo_fatal]

/-- After a write-back that succeeds, an LDM is its loads and then what R15 in the list asks for. -/
theorem finishLoad_of_good (h : ¬ badBase w rn wbval) :
    finishLoad sBit w rn list wbval vs u =
      if bit 15 list then
        if sBit then thenDo (restoreCpsr (loadedRegs sBit w rn list wbval vs u)) (writePc (vs.getLastD 0))
        else writePc (vs.getLastD 0) (loadedRegs sBit w rn list wbval vs u)
      else .next (loadedRegs sBit w rn list wbval vs u) := by
  have hmode : loadMode sBit list u = if sBit && !bit 15 list then .user else u.cpsr.mode := by simp [loadMode]
  rw [finishLoad, blockBase_of_good u h, thenDo_next, loadedRegs, hmode]

end

section
variable {c : Cond} {p u sBit w : Bool} {rn : Reg} {list : BitVec 16} {s v : State} {vs : List Word}

theorem exec_ldm_of_read (hc : condHolds c s.cpsr = true)
    (hread : readWords (blockAddresses p u rn list s) s = (some vs, v)) :
    exec (.ldm c p u sBit w rn list) s = finishLoad sBit w rn list (blockWriteBack u (reg s rn) list) vs v := by
  rw [blockAddresses] at hread
  rw [exec_ldm, guarded_of_holds hc]
  simp only [hread]

theorem exec_ldm_of_abort (hc : condHolds c s.cpsr = true)
    (hread : readWords (blockAddresses p u rn list s) s = (none, v)) :
    exec (.ldm c p u sBit w rn list) s = .next (raiseException .data v) := by
  rw [blockAddresses] at hread
  rw [exec_ldm, guarded_of_holds hc]
  simp only [hread]

theorem exec_stm_of_written (hc : condHolds c s.cpsr = true)
    (hwrite : writeWords (storedBlock p u sBit w rn list s) s = (v, true)) :
    exec (.stm c p u sBit w rn list) s = blockBase w rn (blockWriteBack u (reg s rn) list) v := by
  rw [storedBlock, blockAddresses] at hwrite
  rw [exec_stm, guarded_of_holds hc]
  simp only [hwrite]

theorem exec_stm_of_abort (hc : condHolds c s.cpsr = true)
    (hwrite : writeWords (storedBlock p u sBit w rn list s) s = (v, false)) :
    exec (.stm c p u sBit w rn list) s = .next (raiseException .data v) := by
  rw [storedBlock, blockAddresses] at hwrite
  rw [exec_stm, guarded_of_holds hc]
  simp only [hwrite]

/-- What the reads of an LDM leave, and how many values they answer. -/
theorem readBlock_frame (hread : readWords (blockAddresses p u rn list s) s = (some vs, v)) :
    busLeft s v ∧ v.mem = s.mem ∧ vs.length = (listed list).length := by
  obtain ⟨hbus, hmem⟩ := busLeft_of_sameButDevices (readWords_eq_frame hread)
  refine ⟨hbus, hmem, ?_⟩
  rw [readWords_length (by rw [hread]), blockAddresses, wordAddresses_length]

end

/-! ### LDM without R15 in its list -/

/-- An LDM without R15 in its list completes in `loadedRegs`, which leaves everything but registers alone. -/
theorem exec_ldm_without_pc {c : Cond} {p u sBit w : Bool} {rn : Reg} {list : BitVec 16} {s v : State} {vs : List Word}
    (hc : condHolds c s.cpsr = true) (hlist : bit 15 list = false)
    (hbase : ¬ badBase w rn (blockWriteBack u (reg s rn) list))
    (hread : readWords (blockAddresses p u rn list s) s = (some vs, v)) :
    ∃ t, exec (.ldm c p u sBit w rn list) s = .next t ∧
      loadedBlock sBit (w && rn != 15#4) rn list (blockWriteBack u (reg s rn) list) vs s t ∧
      t.pc = (putBase w rn (blockWriteBack u (reg s rn) list) v).pc ∧
      t.pcAltered = (putBase w rn (blockWriteBack u (reg s rn) list) v).pcAltered ∧
      t.cpsr = s.cpsr ∧ sameMachine s t ∧ sameBytes s t ∧ t.sched = v.sched := by
  obtain ⟨hbus, hmem, hlen⟩ := readBlock_frame hread
  refine ⟨_, (exec_ldm_of_read hc hread).trans ((finishLoad_of_good v hbase).trans (if_neg (by simp [hlist]))),
    loadedBlock_of_loadedRegs hlen hbus rfl, loadedRegs_pc .., loadedRegs_pcAltered .., by simp [hbus.cpsr],
    hbus.sameMachine.trans (sameMachine_loadedRegs ..), fun a => by rw [loadedRegs_mem, hmem], loadedRegs_sched ..⟩

/-- Settles O47: a base other than R15 is written back, and R15 stays. -/
theorem ldmLoadsRegisters : Obligations.LdmLoadsRegisters := by
  intro c p u sBit w rn list s v vs hc hlist hrn hread
  obtain ⟨t, hexec, hregs, hpc, halt, hcpsr, hmachine, hbytes, hsched⟩ :=
    exec_ldm_without_pc (sBit := sBit) hc hlist (not_badBase_of_ne hrn) hread
  obtain ⟨hbus, -, -⟩ := readBlock_frame hread
  obtain ⟨hpc', halt'⟩ := putBase_pc (blockWriteBack u (reg s rn) list) v hrn
  have hw : (w && rn != 15#4) = w := by
    cases w with
    | false => rfl
    | true => simpa using hrn rfl
  rw [hw] at hregs
  exact ⟨t, hexec, hregs, hpc.trans (hpc'.trans hbus.pc), halt.trans (halt'.trans hbus.pcAltered), hcpsr, hmachine,
    hbytes, hsched⟩

/-! ### LDM with R15 in its list -/

section
variable {i : Instr} {sBit w : Bool} {rn : Reg} {list : BitVec 16} {wbval target : Word} {vs : List Word} {s v : State}

/-- A PC write of the last word, from a state that differs from `loadedRegs` in status and free values only. -/
theorem blockBranches_of_writePc {psr : Psr} {n : Nat} (hlen : vs.length = (listed list).length) (hbus : busLeft s v)
    (hmem : v.mem = s.mem)
    (hexec : exec i s = writePc target { loadedRegs sBit w rn list wbval vs v with cpsr := psr, draws := n }) :
    blockBranches i sBit w rn list wbval vs target psr s v := by
  refine ⟨fun hbad => ⟨n, ?_⟩, fun hgood => ⟨_, hexec.trans (writePc_of_aligned _ hgood),
    loadedBlock_of_loadedRegs hlen hbus rfl, rfl, rfl, rfl, ?_, fun a => ?_, loadedRegs_sched ..⟩⟩
  · rw [hexec, writePc_of_misaligned _ hbad, fatal, loadedRegs_sched]
  · exact hbus.sameMachine.trans (sameMachine_loadedRegs sBit w rn list wbval vs v)
  · exact congrArg (readByte · a) ((loadedRegs_mem ..).trans hmem)

/-- The same behind a load of the status word (R274). -/
theorem blockReturns_of_loadCpsr {word : Word} {n : Nat} (hlen : vs.length = (listed list).length) (hbus : busLeft s v)
    (hmem : v.mem = s.mem)
    (hexec : exec i s =
      thenDo (loadCpsr word { loadedRegs true w rn list wbval vs v with draws := n }) (writePc target)) :
    blockReturns i w rn list wbval vs target word s v := by
  refine ⟨fun hbad => ⟨n, ?_⟩, fun m h5 hm => blockBranches_of_writePc (n := n) hlen hbus hmem ?_⟩
  · rw [hexec, loadCpsr_of_bad _ hbad, thenDo_fatal, fatal, loadedRegs_sched]
  · rw [hexec, loadCpsr_of_good _ h5 hm, thenDo_next]

/-- An LDM with R15 in its list ends in a PC write of its last word, behind the return's status load for S = 1. -/
theorem exec_ldm_with_pc {c : Cond} {p u : Bool} (hc : condHolds c s.cpsr = true) (hlist : bit 15 list = true)
    (hread : readWords (blockAddresses p u rn list s) s = (some vs, v)) (hlast : vs.getLast? = some target)
    (hbase : ¬ badBase w rn (blockWriteBack u (reg s rn) list)) :
    exec (.ldm c p u sBit w rn list) s =
      if sBit then
        thenDo (restoreCpsr (loadedRegs sBit w rn list (blockWriteBack u (reg s rn) list) vs v)) (writePc target)
      else writePc target (loadedRegs sBit w rn list (blockWriteBack u (reg s rn) list) vs v) := by
  rw [exec_ldm_of_read hc hread, finishLoad_of_good v hbase, if_pos hlist, List.getLastD_eq_getLast?, hlast,
    Option.getD_some]

end

theorem eq_with_cpsr_draws {x : State} {psr : Psr} {n : Nat} (hpsr : x.cpsr = psr) (hn : x.draws = n) :
    x = { x with cpsr := psr, draws := n } := by
  subst hpsr hn
  rfl

/-- Settles O48: the write-back of a base R15 may fail; else the two ends of an LDM with R15 in its list. -/
theorem ldmIntoR15 : Obligations.LdmIntoR15 := by
  intro c p u w rn list s v vs target hc hlist hread hlast wbval
  obtain ⟨hbus, hmem, hlen⟩ := readBlock_frame hread
  refine ⟨fun hbad sBit => ⟨v.draws, (exec_ldm_of_read hc hread).trans (finishLoad_of_bad v hbad)⟩,
    fun hbase => ⟨?branch, fun word hword => ?returns⟩⟩
  case branch =>
    refine blockBranches_of_writePc (n := v.draws) hlen hbus hmem
      ((exec_ldm_with_pc hc hlist hread hlast hbase).trans ?_)
    rw [if_neg Bool.false_ne_true]
    exact congrArg (writePc target) (eq_with_cpsr_draws (by rw [loadedRegs_cpsr, hbus.cpsr]) (loadedRegs_draws ..))
  case returns =>
    refine blockReturns_of_loadCpsr (n := v.draws) hlen hbus hmem
      ((exec_ldm_with_pc hc hlist hread hlast hbase).trans ?_)
    rw [if_pos rfl, restoreCpsr_of_some (by rwa [loadedRegs_cpsr, loadedRegs_spsr, hbus.cpsr, hbus.spsr])]
    exact congrArg (fun x => thenDo (loadCpsr word x) (writePc target)) (eq_with_cpsr_draws rfl (loadedRegs_draws ..))

/-! ### Returns where there is no SPSR -/

/-- Without an SPSR the return loads a free word, whose mode field stays User in User mode (log entry 7). -/
theorem restoreCpsr_of_none {s : State} {m : Mode} {n : Nat} (hm : s.cpsr.mode = m) (hn : s.draws = n)
    (h : spsrOf (bankOf m) s.spsr = none) :
    restoreCpsr s = loadCpsr (returnWord m (Config.absentSpsr n)) { s with draws := n + 1 } := by
  subst hm hn
  simp [restoreCpsr, readSpsr, h]

theorem moveFromStatus_of_none {s : State} (rd : Reg) (h : spsrOf (bankOf s.cpsr.mode) s.spsr = none) :
    moveFromStatus true rd s = setReg rd (Config.absentSpsr s.draws) { s with draws := s.draws + 1 } := by
  simp [moveFromStatus, readSpsr, h]

/-- User and System mode have no SPSR (R42). -/
theorem spsrOf_of_user_or_system {m : Mode} (p : SavedPsrs) (h : m = .system ∨ m = .user) :
    spsrOf (bankOf m) p = none := by
  rcases h with rfl | rfl <;> rfl

theorem returnWord_system (w : Word) : returnWord .system w = w := rfl

theorem returnWord_user (w : Word) : returnWord .user w = cat 32 (fld 5 27 w) (modeNumber .user) := rfl

/-- A PC write that also used free values. -/
theorem writesPc_of_writePc_draws {i : Instr} {v : Word} {s : State} {n : Nat}
    (hexec : exec i s = writePc v { s with draws := n }) : writesPc i v s := by
  refine ⟨fun hv => ⟨_, hexec.trans (writePc_of_aligned _ hv), rfl, rfl, fun _ _ => rfl, rfl, ?_⟩,
    fun hv => ⟨n, hexec.trans (writePc_of_misaligned _ hv)⟩⟩
  exact ⟨⟨rfl, rfl, rfl, rfl, rfl, rfl⟩, fun _ => rfl, rfl⟩

/-- Settles O32: in each reading of an absent SPSR, a free word stands for it. -/
theorem withoutSavedStatus : Obligations.WithoutSavedStatus := by
  refine ⟨fun i s v hc hv => ?data, fun c p u w rn list s v vs target hc hlist hread hlast => ?block,
    fun c rd s hc hnone => ?mrs⟩
  case data =>
    obtain ⟨r, rfl, hexec⟩ := exec_of_dataResult hc hv
    have hreturn (h : s.cpsr.mode = .system ∨ s.cpsr.mode = .user) :
        returnsTo i (returnWord s.cpsr.mode (Config.absentSpsr s.draws)) r.value s := by
      rw [writeAlu_true_pc, restoreCpsr_of_none rfl rfl (spsrOf_of_user_or_system _ h)] at hexec
      exact returnsTo_of_loadCpsr hexec
    exact ⟨fun h => by rw [← returnWord_system (Config.absentSpsr s.draws), ← h]; exact hreturn (.inl h),
      fun h => by rw [← returnWord_user, ← h]; exact hreturn (.inr h)⟩
  case block =>
    intro wbval returns hbase
    obtain ⟨hbus, hmem, hlen⟩ := readBlock_frame hread
    have hreturn (h : s.cpsr.mode = .system ∨ s.cpsr.mode = .user) :
        returns (returnWord s.cpsr.mode (Config.absentSpsr v.draws)) := by
      refine blockReturns_of_loadCpsr (n := v.draws + 1) hlen hbus hmem
        ((exec_ldm_with_pc hc hlist hread hlast hbase).trans ?_)
      rw [if_pos rfl, restoreCpsr_of_none (by rw [loadedRegs_cpsr, hbus.cpsr]) (loadedRegs_draws ..)
        (spsrOf_of_user_or_system _ h)]
    exact ⟨fun h => by rw [← returnWord_system (Config.absentSpsr v.draws), ← h]; exact hreturn (.inl h),
      fun h => by rw [← returnWord_user, ← h]; exact hreturn (.inr h)⟩
  case mrs =>
    have hmrs := (exec_mrs c true rd s).trans ((guarded_of_holds hc).trans (moveFromStatus_of_none rd hnone))
    have hmrsI := (exec_mrsI c true rd s).trans ((guarded_of_holds hc).trans (moveFromStatus_of_none rd hnone))
    refine ⟨fun hrd => ?_, fun hrd => ?_⟩
    · rw [setReg_of_ne _ _ hrd] at hmrs hmrsI
      exact ⟨_, hmrs, hmrsI, wroteRegister_setGpr rd _ { s with draws := s.draws + 1 }, rfl⟩
    · subst hrd
      exact ⟨writesPc_of_writePc_draws hmrs, writesPc_of_writePc_draws hmrsI⟩

/-! ### STM -/

/-- The state after an STM whose write-back succeeds: every byte outside the block is as before. -/
theorem writeBlock_frame {p u sBit w : Bool} {rn : Reg} {list : BitVec 16} {s v : State} {ok : Bool}
    (hwrite : writeWords (storedBlock p u sBit w rn list s) s = (v, ok)) :
    busLeft s v ∧
      ∀ a, (∀ b ∈ blockAddresses p u rn list s, a < (alignTo .word b).toNat ∨ (alignTo .word b).toNat + 4 ≤ a) →
        readByte v.mem a = readByte s.mem a := by
  refine ⟨writeWords_eq_frame hwrite, fun a ha => ?_⟩
  have hout := writeWords_outside (storedBlock p u sBit w rn list s) s (a := a) fun q hq => ha q.1 (List.of_mem_zip hq).1
  rwa [hwrite] at hout

/-- The value stored for the `k`-th listed register (R273). -/
theorem storedValues_getElem? {sBit w : Bool} {rn : Reg} {list : BitVec 16} {wbval : Word} {s : State} {k : Nat}
    {r : Reg} (h : (listed list)[k]? = some r) :
    (storedValues sBit w rn list wbval s)[k]? = some (storedValue sBit w rn wbval k r s) := by
  rw [storedValues, List.getElem?_mapIdx, h, Option.map_some]

theorem storedValue_eq (sBit w : Bool) (rn : Reg) (wbval : Word) (k : Nat) (r : Reg) (s : State) :
    storedValue sBit w rn wbval k r s =
      if r = rn ∧ w = true ∧ 0 < k then wbval
      else if r = 15#4 then s.pc
      else if sBit then s.gpr[phys .user r]
      else s.gpr[phys s.cpsr.mode r] := by
  unfold storedValue userReg reg
  cases sBit <;> split_ifs <;> rfl

/-- Settles O49: by the frame of the writes and the write-back; the values by the order of the tests. -/
theorem stmStores : Obligations.StmStores := by
  refine ⟨fun c p u sBit w rn list s v hc hrn hwrite => ?effect, fun sBit w rn list wbval s k r h => ?values⟩
  case effect =>
    obtain ⟨hbus, hout⟩ := writeBlock_frame hwrite
    obtain ⟨hgpr, hgprs⟩ := putBase_gpr_of_busLeft w rn (blockWriteBack u (reg s rn) list) hbus
    obtain ⟨hpc, halt⟩ := putBase_pc (blockWriteBack u (reg s rn) list) v hrn
    exact ⟨_, (exec_stm_of_written hc hwrite).trans (blockBase_of_good v (not_badBase_of_ne hrn)),
      fun hw => hgpr hw (hrn hw), hgprs, hpc.trans hbus.pc, halt.trans hbus.pcAltered, by simp [hbus.cpsr],
      hbus.sameMachine.trans (sameMachine_putBase ..), by simp, by simp, fun a ha => by rw [putBase_mem, hout a ha]⟩
  case values => rw [storedValues_getElem? h, storedValue_eq]

/-! ### Aborts -/

/-- Writes that all succeed, then more writes. -/
theorem writeWords_append {done rest : List (Word × Word)} {s v : State} (h : writeWords done s = (v, true)) :
    writeWords (done ++ rest) s = writeWords rest v := by
  induction done generalizing s with
  | nil => cases h; rfl
  | cons q more ih =>
    obtain ⟨a, x⟩ := q
    simp only [writeWords, List.cons_append] at h ⊢
    split at h
    · cases h
    · exact ih h

/-- Settles O50: the Data Abort of a block, and the writes that were made before it. -/
theorem blockAborts : Obligations.BlockAborts := by
  refine ⟨fun c p u sBit w rn list s v hc => ⟨fun hread => ?load, fun hwrite => ?store⟩,
    fun done rest a x s v hdone u hwrite => ⟨?devices, ?stops⟩⟩
  case load =>
    exact ⟨_, exec_ldm_of_abort hc hread, entered_raiseException .data v, readWords_eq_frame hread⟩
  case store =>
    exact ⟨_, exec_stm_of_abort hc hwrite, entered_raiseException .data v, raiseException_mem .data v,
      writeWords_eq_frame hwrite⟩
  case devices =>
    have hbus : busLeft v u := memWrite_frame hwrite
    rw [busLeft, memWrite_failed_mem hwrite] at hbus
    exact hbus
  case stops => rw [writeWords_append hdone, writeWords, hwrite]

/-! ### A written-back base R15 -/

/-- Settles O44: the single transfers' write-back to R15, then that of the blocks. -/
theorem writeBackToR15 : Obligations.WriteBackToR15 := by
  refine ⟨fun c rd a h u off s hc ha hh => ?single,
    fun c p u sBit list s v hc => ⟨fun vs hlist hread => ?load, fun hwrite => ?store⟩⟩
  case single =>
    obtain ⟨ap, au, aw, arn, aoff⟩ := a
    obtain ⟨hp, hu, hw, hrn, hoff⟩ := h
    subst ha hh
    exact ⟨⟨loadBacksPc_of_exec ((exec_ldr c rd _ s).trans (guarded_of_holds hc)) (rotateByAddress_eq _),
      loadBacksPc_of_exec ((exec_ldrb c rd _ s).trans (guarded_of_holds hc)) (plainValue_eq _),
      loadBacksPc_of_exec ((exec_ldrt c rd u 15 off s).trans (guarded_of_holds hc)) (rotateByAddress_eq _),
      loadBacksPc_of_exec ((exec_ldrbt c rd u 15 off s).trans (guarded_of_holds hc)) (plainValue_eq _),
      loadBacksPc_of_exec ((exec_ldrh c rd _ s).trans (guarded_of_holds hc)) (plainValue_eq _),
      loadBacksPc_of_exec ((exec_ldrsb c rd _ s).trans (guarded_of_holds hc)) sext8_eq,
      loadBacksPc_of_exec ((exec_ldrsh c rd _ s).trans (guarded_of_holds hc)) sext16_eq⟩,
      storeBacksPc_of_exec ((exec_str c rd _ s).trans (guarded_of_holds hc)),
      storeBacksPc_of_exec ((exec_strb c rd _ s).trans (guarded_of_holds hc)),
      storeBacksPc_of_exec ((exec_strt c rd u 15 off s).trans (guarded_of_holds hc)),
      storeBacksPc_of_exec ((exec_strbt c rd u 15 off s).trans (guarded_of_holds hc)),
      storeBacksPc_of_exec ((exec_strh c rd _ s).trans (guarded_of_holds hc))⟩
  case load =>
    refine ⟨fun hbad => ⟨v.draws, (exec_ldm_of_read hc hread).trans (finishLoad_of_bad v ⟨rfl, rfl, hbad⟩)⟩,
      fun hgood => ?_⟩
    have hbase : ¬ badBase true 15#4 (blockWriteBack u (reg s 15#4) list) := by
      rw [reg_pc]
      exact fun ⟨_, _, h⟩ => h hgood
    obtain ⟨t, hexec, hregs, hpc, halt, hframe⟩ :=
      exec_ldm_without_pc (sBit := sBit) (w := true) hc hlist hbase hread
    rw [reg_pc] at hregs hpc
    exact ⟨t, hexec, hpc, halt, hregs, hframe⟩
  case store =>
    have hexec := exec_stm_of_written hc hwrite
    rw [reg_pc] at hexec
    obtain ⟨hbus, -⟩ := writeBlock_frame hwrite
    refine ⟨fun hbad => ⟨v.draws, hexec.trans (blockBase_of_bad v ⟨rfl, rfl, hbad⟩)⟩, fun hgood =>
      ⟨_, hexec.trans (blockBase_of_good v fun ⟨_, _, h⟩ => h hgood), rfl, rfl, fun q _ => ?_, by simp [hbus.cpsr],
        hbus.sameMachine.trans (sameMachine_putBase ..), by simp, by simp⟩⟩
    rw [putBase_true, putReg_pc, hbus.gpr]

end Sys2Proof.Machine
end

section
/-!
PROOFS. Memory (spec 20_memory.md R61 to R70): what answers an access, the byte order of a datum, and the mapping of
Regions with the images of their buffers.
-/

namespace Sys2Proof.Machine

/-! ### The bus -/

/-- Where no Region holds an address, none answers for it (R72). -/
theorem regionAt_eq_none {regions : List Region} {a : Nat} (h : ∀ r ∈ regions, ¬(r.base ≤ a ∧ a < r.base + r.size)) :
    regionAt regions a = none :=
  List.find?_eq_none.2 fun r hr hold => h r hr (by simpa [regionHolds] using hold)

section
variable {s : State} {addr : Word} {w : Width} {r : Region} {id : Nat}

/-- A Device's answer to a read (R73, R77): masked, or a failure; its calls reach the Scheduler only. -/
theorem memRead_device (hr : regionAt s.regions (alignTo w addr).toNat = some r) (hk : r.kind = .device id) :
    memRead s addr w =
      let reply := Config.deviceRead s.draws s.cycles id (BitVec.ofNat 32 ((alignTo w addr).toNat - r.base)) w.bytes
      (reply.value.map (maskTo w), facadeCalls reply.calls { s with draws := s.draws + 1 }) := by
  simp only [memRead, hr, hk]

theorem memWrite_device (v : Word) (hr : regionAt s.regions (alignTo w addr).toNat = some r) (hk : r.kind = .device id) :
    memWrite s addr w v =
      let receipt := Config.deviceWrite s.draws s.cycles id (BitVec.ofNat 32 ((alignTo w addr).toNat - r.base)) w.bytes
        (maskTo w v)
      (facadeCalls receipt.calls { s with draws := s.draws + 1 }, receipt.accepted) := by
  simp only [memWrite, hr, hk]

end

/-- What a Device's code leaves. -/
theorem deviceCalls_frame (calls : List FacadeCall) (s : State) :
    (facadeCalls calls { s with draws := s.draws + 1 }).sched = (facadeCalls calls s).sched ∧
      sameButDevices s (facadeCalls calls { s with draws := s.draws + 1 }) := by
  refine ⟨facadeCalls_sched_congr calls rfl rfl rfl, ?_⟩
  rw [facadeCalls_eq]
  rfl

/-- Settles O54: one law of the bus for each kind of answer. -/
theorem busAccess : Obligations.BusAccess := by
  intro s addr v w a
  have ha : (alignTo w addr).toNat = a := toNat_alignTo w addr
  refine ⟨fun hnone => ?_,
    fun r hinv hr hold => ⟨fun hk => ?_, fun hk => ?_, fun hk => ?_, fun hk => ?_, fun id hk => ?_⟩⟩
  · have hat : regionAt s.regions (alignTo w addr).toNat = none := regionAt_eq_none (by rwa [ha])
    exact ⟨memRead_fails (by simp [hat]), memWrite_fails (by simp [hat])⟩
  all_goals
    have hat : regionAt s.regions (alignTo w addr).toNat = some r :=
      regionAt_of_mem hinv hr (by rw [ha]; simpa [regionHolds] using hold)
  · exact memRead_fails (by simp [hat, hk])
  · exact memWrite_fails (by simp [hat, hk])
  · rw [← ha]; exact memRead_buffer hat hk
  · rw [← ha]; exact memWrite_buffer hat hk
  · intro offset reply receipt
    have hread := memRead_device hat hk
    have hwrite := memWrite_device v hat hk
    rw [ha, funext (maskTo_eq w)] at hread
    rw [ha, maskTo_eq] at hwrite
    exact ⟨⟨_, hread, deviceCalls_frame ..⟩, ⟨_, hwrite, deviceCalls_frame ..⟩⟩

/-! ### Byte order -/

theorem toNat_fld (lo len : Nat) (v : Word) : (fld lo len v).toNat = v.toNat / 2 ^ lo % 2 ^ len := by
  rw [fld, BitVec.extractLsb'_toNat, Nat.shiftRight_eq_div_pow]

theorem bytesOfWord_getElem? (v : Word) {k : Nat} (hk : k < 4) : (bytesOfWord v)[k]? = some (fld (8 * k) 8 v) := by
  interval_cases k <;> rfl

/-- The bytes of a written datum are those of its value, the low byte first (R70). -/
theorem readByte_writeDatum {m : Memory} (h : Memory.wf m = true) (a : Nat) (v : Word) {w : Width} {k : Nat}
    (hk : k < w.bytes) : readByte (writeDatum m a w v) (a + k) = fld (8 * k) 8 v := by
  have hlen : k < ((bytesOfWord v).take w.bytes).length := by rwa [length_datum]
  have hbyte := bytesOfWord_getElem? v (Nat.lt_of_lt_of_le hk w.bytes_le)
  rw [writeDatum, readByte_writeBytes_inside h a _ k hlen]
  apply Option.some.inj
  rw [← List.getElem?_eq_getElem hlen, List.getElem?_take_of_lt hk, hbyte]

/-- The value of a halfword, and of a byte, by its bytes (R70). -/
theorem toNat_readDatum_halfword (m : Memory) (a : Nat) :
    (readDatum m a .halfword).toNat = (readByte m (a + 1)).toNat * 2 ^ 8 + (readByte m a).toNat := by
  rw [readDatum, toNat_cat _ _ (by decide), toNat_cat _ _ (by decide)]
  simp

theorem toNat_readDatum_byte (m : Memory) (a : Nat) : (readDatum m a .byte).toNat = (readByte m a).toNat := by
  rw [readDatum, toNat_cat _ _ (by decide)]
  simp

/-- A halfword whose two bytes are the bytes `k` and `k + 1` of `v`. -/
theorem readDatum_halfword_of_bytes {m : Memory} {a : Nat} {v : Word} {k : Nat}
    (h0 : readByte m (a + k) = fld (8 * k) 8 v) (h1 : readByte m (a + (k + 1)) = fld (8 * (k + 1)) 8 v) :
    readDatum m (a + k) .halfword = BitVec.ofNat 32 (v.toNat / 2 ^ (8 * k) % 2 ^ 16) := by
  apply BitVec.eq_of_toNat_eq
  rw [toNat_readDatum_halfword, h0, Nat.add_assoc, h1, toNat_fld, toNat_fld, BitVec.toNat_ofNat, Nat.mul_succ,
    Nat.pow_add, ← Nat.div_div_eq_div_mul]
  omega

/-- Settles O55: each width by the bytes of the written datum. -/
theorem littleEndianMemory : Obligations.LittleEndianMemory := by
  intro m a v h
  have hword (k : Nat) (hk : k < 4) : readByte (writeDatum m a .word v) (a + k) = fld (8 * k) 8 v :=
    readByte_writeDatum h a v hk
  have hhalf (k : Nat) (hk : k < 2) : readByte (writeDatum m a .halfword v) (a + k) = fld (8 * k) 8 v :=
    readByte_writeDatum h a v hk
  refine ⟨wf_writeDatum h _ _ _, readDatum_writeDatum_word h a v, hword, ?_, ?_, ?_, ?_,
    fun w b hb => readByte_writeDatum_outside m a w v hb⟩
  · refine (readDatum_halfword_of_bytes (hword 0 (by decide)) (hword 1 (by decide))).trans ?_
    rw [Nat.mul_zero, Nat.pow_zero, Nat.div_one]
  · refine (readDatum_halfword_of_bytes (hword 2 (by decide)) (hword 3 (by decide))).trans ?_
    have htop : v.toNat / 2 ^ 16 < 2 ^ 16 := Nat.div_lt_of_lt_mul v.isLt
    exact congrArg (BitVec.ofNat 32) (Nat.mod_eq_of_lt htop)
  · refine (readDatum_halfword_of_bytes (hhalf 0 (by decide)) (hhalf 1 (by decide))).trans ?_
    rw [Nat.mul_zero, Nat.pow_zero, Nat.div_one]
  · have hbyte : readByte (writeDatum m a .byte v) (a + 0) = fld (8 * 0) 8 v := readByte_writeDatum h a v Nat.one_pos
    apply BitVec.eq_of_toNat_eq
    rw [Nat.add_zero] at hbyte
    rw [toNat_readDatum_byte, hbyte, toNat_fld, BitVec.toNat_ofNat]
    omega

/-! ### Images -/

theorem placeImages_append (r : Region) (xs ys : List Image) (m : Memory) :
    placeImages r (xs ++ ys) m = placeImages r ys (placeImages r xs m) := by
  induction xs generalizing m with
  | nil => rfl
  | cons im rest ih => exact ih _

/-- A byte that no image covers reads as before. -/
theorem readByte_placeImages_outside {r : Region} {images : List Image} {m : Memory} {a : Nat}
    (h : ∀ im ∈ images, ¬(r.base + im.offset ≤ a ∧ a < r.base + im.offset + im.bytes.length)) :
    readByte (placeImages r images m) a = readByte m a := by
  induction images generalizing m with
  | nil => rfl
  | cons im rest ih =>
    have him := h im List.mem_cons_self
    rw [placeImages, ih fun q hq => h q (List.mem_cons_of_mem _ hq), readByte_writeBytes_outside _ _ _ (by omega)]

/-- The images lie in the buffer byte by byte, a later one over an earlier one (R66). -/
theorem imagesPlaced_placeImages (r : Region) (images : List Image) {m : Memory} (h : Memory.wf m = true) :
    imagesPlaced r images m (placeImages r images m) := by
  refine ⟨fun first later im k himages hk hlater => ?_, fun a ha => readByte_placeImages_outside ha⟩
  have hout : ∀ q ∈ later, ¬(r.base + q.offset ≤ r.base + im.offset + k ∧
      r.base + im.offset + k < r.base + q.offset + q.bytes.length) := fun q hq => by
    have := hlater q hq
    omega
  rw [himages, placeImages_append, placeImages, readByte_placeImages_outside hout,
    readByte_writeBytes_inside (wf_placeImages r first h) _ _ k hk, List.getElem?_eq_getElem hk]

/-! ### Map and Unmap -/

theorem intersects_iff (r q : Region) :
    intersects r q = true ↔ r.base < q.base + q.size ∧ q.base < r.base + r.size := by simp [intersects]

section
variable {r : Region} {images : List Image} {s : State}

theorem mapRegion_of_overlap (h : ∃ q ∈ s.regions, intersects r q = true) : mapRegion r images s = (false, s) := by
  rcases mapRegion_cases r images s with e | ⟨-, -, hd, -⟩
  · exact e
  · obtain ⟨q, hq, ho⟩ := h
    exact absurd ho (by simp [hd q hq])

theorem mapRegion_of_disjoint (hg : goodGeometry r = true) (hf : imagesFit r images = true)
    (h : ∀ q ∈ s.regions, ¬ intersects r q = true) :
    mapRegion r images s = (true, { s with
      regions := s.regions ++ [r]
      mem := if buffered r.kind then placeImages r images s.mem else s.mem }) := by
  have hany : ¬ (s.regions.any fun q => intersects r q) = true := by
    rw [List.any_eq_true]
    exact fun ⟨q, hq, ho⟩ => h q hq ho
  rw [mapRegion, if_neg (by simp [hg, hf]), if_neg hany]

theorem loadImages_of_mapped (hr : r ∈ s.regions) (hk : buffered r.kind = true) (hf : imagesFit r images = true) :
    loadImages r images s = { s with mem := placeImages r images s.mem } :=
  if_pos (by simp [hr, hk, hf])

theorem unmapRegion_of_mapped (hr : r ∈ s.regions) :
    unmapRegion r s = (true, { s with regions := s.regions.erase r, mem := clearExtent s.mem r.base r.size }) :=
  if_pos (List.contains_iff_mem.2 hr)

theorem unmapRegion_of_unmapped (hr : r ∉ s.regions) : unmapRegion r s = (false, s) :=
  if_neg (mt List.contains_iff_mem.1 hr)

end

/-- A byte outside an extent survives its clearing. -/
theorem readByte_clearExtent (m : Memory) (base size : Nat) {a : Nat} (h : a < base ∨ base + size ≤ a) :
    readByte (clearExtent m base size) a = readByte m a :=
  readByte_filter m _ fun c hc => by
    subst hc
    simp only [Bool.not_eq_true', Bool.and_eq_false_iff, decide_eq_false_iff_not]
    omega

/-- Settles O56: one equation for each request, and the laws of the images. -/
theorem mapAndUnmap : Obligations.MapAndUnmap := by
  intro r images s hg hf
  refine ⟨fun ⟨q, hq, ho⟩ => mapRegion_of_overlap ⟨q, hq, (intersects_iff r q).2 ho⟩, fun hd => ?map,
    fun hr hk hwf => ?load, fun hr => ?unmap, unmapRegion_of_unmapped⟩
  case map =>
    refine ⟨_, mapRegion_of_disjoint hg hf fun q hq => mt (intersects_iff r q).1 (hd q hq), rfl, fun hk hwf => ?_,
      fun hk => ?_⟩
    · rw [if_pos hk]; exact imagesPlaced_placeImages r images hwf
    · rw [if_neg (by simp [hk])]
  case load =>
    rw [loadImages_of_mapped hr hk hf]
    exact imagesPlaced_placeImages r images hwf
  case unmap => exact ⟨_, unmapRegion_of_mapped hr, rfl, fun a ha => readByte_clearExtent _ _ _ ha⟩

end Sys2Proof.Machine
end

section
/-!
PROOFS. The Scheduler and the host (spec 49_scheduler.md R320 to R340, 70_reset_and_hazards.md R390 to R395): the fixed
values, what out-of-scope code can change, the queue of callbacks, the drain, and the invariant kept by all of them.
-/

namespace Sys2Proof.Machine

/-! ### Fixed values -/

/-- Settles O12: exception entry is `entered` row by row; the vectors are R350's column. -/
theorem exceptionEntry : Obligations.ExceptionEntry :=
  ⟨entered_raiseException, rfl, rfl, rfl, rfl, rfl, rfl, rfl⟩

/-- Settles O21: Reset is an entry that saves no link, in a machine that is halted no more. -/
theorem resetEffect : Obligations.ResetEffect :=
  ⟨fun _ => ⟨rfl, rfl, rfl, raiseException_gpr_reset _, rfl, rfl, rfl, rfl, rfl⟩, rfl, rfl, rfl, rfl, rfl, rfl, rfl, rfl,
    rfl⟩

theorem regionsInv_resetRegions : regionsInv Config.resetRegions := ⟨by decide, by decide⟩

theorem memoryInv_nil (regions : List Region) : memoryInv [] regions := ⟨rfl, nofun⟩

theorem schedInv_powerOn : schedInv Scheduler.powerOn := ⟨.nil, .nil, nofun⟩

/-- Settles O15: R15 is 0, memory and the queue are empty, and the platform's Regions are disjoint. -/
theorem resetSatisfiesInvariant : Obligations.ResetSatisfiesInvariant :=
  ⟨⟨rfl, rfl, one_pos, regionsInv_resetRegions, memoryInv_nil _, schedInv_powerOn⟩, rfl, rfl⟩

/-! ### What out-of-scope code can change -/

/-- The states differ at most in memory, the Regions, the Scheduler and the counter of free values. -/
def outsideLeft (s u : State) : Prop :=
  u = { s with mem := u.mem, regions := u.regions, sched := u.sched, draws := u.draws }

theorem outsideLeft.trans {s t u : State} (h : outsideLeft s t) (k : outsideLeft t u) : outsideLeft s u := by
  rw [outsideLeft, k, h]

theorem outsideLeft.with_sched {s u : State} (h : outsideLeft s u) (d : Scheduler) :
    outsideLeft s { u with sched := d } := by
  rw [outsideLeft, h]

theorem sameButDevices.trans {s t u : State} (h : sameButDevices s t) (k : sameButDevices t u) : sameButDevices s u := by
  rw [sameButDevices, k, h]

theorem facadeCall_frame (c : FacadeCall) (s : State) : facadeCall c s = { s with sched := (facadeCall c s).sched } :=
  facadeCalls_eq [c] s

theorem outsideLeft_facadeCall (c : FacadeCall) (s : State) : outsideLeft s (facadeCall c s) := by
  rw [outsideLeft, facadeCall_frame]

theorem outsideLeft_registrationCall (c : RegistrationCall) (s : State) : outsideLeft s (registrationCall c s) := by
  cases c with
  | facade call => exact outsideLeft_facadeCall call s
  | map region images => rw [outsideLeft, registrationCall, mapRegion_frame]
  | unmap region => rw [outsideLeft, registrationCall, unmapRegion_frame]

theorem outsideLeft_registrationCalls (calls : List RegistrationCall) (s : State) :
    outsideLeft s (registrationCalls calls s) := by
  induction calls generalizing s with
  | nil => rfl
  | cons c rest ih => exact (outsideLeft_registrationCall c s).trans (ih _)

/-! ### Devices -/

/-- The state after the calls of `OnRegister` (R337). -/
def onRegisterCalled (o : Oracle) (dev : Nat) (s : State) : State :=
  registrationCalls (o.onRegister s.draws s.cycles dev).calls { s with draws := s.draws + 1 }

/-- The state after the calls of `OnUnregister` (R337). -/
def onUnregisterCalled (o : Oracle) (dev : Nat) (s : State) : State :=
  registrationCalls (o.onUnregister s.draws s.cycles dev) { s with draws := s.draws + 1 }

/-- A state with another list of Devices. -/
def withDevices (devices : List Nat) (s : State) : State := { s with sched := { s.sched with devices := devices } }

theorem registerDevice_of_accepted {o : Oracle} {dev : Nat} {s : State} (h : dev ∉ s.sched.devices)
    (haccepted : (o.onRegister s.draws s.cycles dev).accepted = true) :
    registerDevice o dev s =
      (true, withDevices ((onRegisterCalled o dev s).sched.devices ++ [dev]) (onRegisterCalled o dev s)) := by
  rw [registerDevice, if_neg (mt List.contains_iff_mem.1 h)]
  exact if_pos haccepted

theorem registerDevice_of_declined {o : Oracle} {dev : Nat} {s : State} (h : dev ∉ s.sched.devices)
    (haccepted : (o.onRegister s.draws s.cycles dev).accepted = false) :
    registerDevice o dev s = (false, onRegisterCalled o dev s) := by
  rw [registerDevice, if_neg (mt List.contains_iff_mem.1 h)]
  exact if_neg (by simp [haccepted])

theorem registerDevice_of_listed {o : Oracle} {dev : Nat} {s : State} (h : dev ∈ s.sched.devices) :
    registerDevice o dev s = (false, s) := if_pos (List.contains_iff_mem.2 h)

theorem unregisterDevice_of_listed {o : Oracle} {dev : Nat} {s : State} (h : dev ∈ s.sched.devices) :
    unregisterDevice o dev s =
      (true, withDevices ((onUnregisterCalled o dev s).sched.devices.erase dev) (onUnregisterCalled o dev s)) :=
  if_pos (List.contains_iff_mem.2 h)

theorem unregisterDevice_of_unlisted {o : Oracle} {dev : Nat} {s : State} (h : dev ∉ s.sched.devices) :
    unregisterDevice o dev s = (false, s) := if_neg (mt List.contains_iff_mem.1 h)

/-- The calls of a registration method leave the list of Devices alone. -/
theorem facadeCall_devices (c : FacadeCall) (s : State) : (facadeCall c s).sched.devices = s.sched.devices := by
  cases c with
  | registerCallback timeout periodic handler => rw [facadeCall, registerCallback]; split <;> rfl
  | _ => rfl

theorem registrationCall_devices (c : RegistrationCall) (s : State) :
    (registrationCall c s).sched.devices = s.sched.devices := by
  cases c with
  | facade call => exact facadeCall_devices call s
  | map region images => rw [registrationCall, mapRegion_frame]
  | unmap region => rw [registrationCall, unmapRegion_frame]

theorem registrationCalls_devices (calls : List RegistrationCall) (s : State) :
    (registrationCalls calls s).sched.devices = s.sched.devices := by
  induction calls generalizing s with
  | nil => rfl
  | cons c rest ih => exact (ih _).trans (registrationCall_devices c s)

/-- Settles O60: the equations of the two requests; the Device's own calls do not reach the list. -/
theorem deviceRegistration : Obligations.DeviceRegistration := by
  intro o dev s
  refine ⟨registerDevice_of_listed, fun h => ?register, unregisterDevice_of_unlisted, fun h => ?unregister⟩
  case register =>
    have hdevices : (onRegisterCalled o dev s).sched.devices = s.sched.devices := registrationCalls_devices ..
    cases haccepted : (o.onRegister s.draws s.cycles dev).accepted with
    | true =>
      rw [registerDevice_of_accepted h haccepted]
      exact ⟨rfl, fun _ => congrArg (· ++ [dev]) hdevices, nofun⟩
    | false =>
      rw [registerDevice_of_declined h haccepted]
      exact ⟨rfl, nofun, fun _ => hdevices⟩
  case unregister =>
    rw [unregisterDevice_of_listed h]
    exact ⟨rfl, congrArg (·.erase dev) (registrationCalls_devices ..)⟩

theorem outsideLeft_onRegisterCalled (o : Oracle) (dev : Nat) (s : State) : outsideLeft s (onRegisterCalled o dev s) :=
  outsideLeft.trans (t := { s with draws := s.draws + 1 }) rfl (outsideLeft_registrationCalls ..)

theorem outsideLeft_onUnregisterCalled (o : Oracle) (dev : Nat) (s : State) :
    outsideLeft s (onUnregisterCalled o dev s) :=
  outsideLeft.trans (t := { s with draws := s.draws + 1 }) rfl (outsideLeft_registrationCalls ..)

theorem outsideLeft_registerDevice (o : Oracle) (dev : Nat) (s : State) : outsideLeft s (registerDevice o dev s).2 := by
  by_cases h : dev ∈ s.sched.devices
  · rw [registerDevice_of_listed h]; rfl
  · cases haccepted : (o.onRegister s.draws s.cycles dev).accepted with
    | true =>
      rw [registerDevice_of_accepted h haccepted]
      exact (outsideLeft_onRegisterCalled o dev s).with_sched _
    | false =>
      rw [registerDevice_of_declined h haccepted]
      exact outsideLeft_onRegisterCalled o dev s

theorem outsideLeft_unregisterDevice (o : Oracle) (dev : Nat) (s : State) :
    outsideLeft s (unregisterDevice o dev s).2 := by
  by_cases h : dev ∈ s.sched.devices
  · rw [unregisterDevice_of_listed h]
    exact (outsideLeft_onUnregisterCalled o dev s).with_sched _
  · rw [unregisterDevice_of_unlisted h]; rfl

/-- Every action of the host but Reset leaves the Cpu's part of the state alone (R28, R333). -/
theorem outsideLeft_hostAct (o : Oracle) {a : HostAction} (s : State) (h : a ≠ .reset) :
    outsideLeft s (hostAct o a s) := by
  cases a with
  | setFiq active => rfl
  | setIrq active => rfl
  | subscribe name handler => rfl
  | registerCallback timeout periodic handler =>
    exact outsideLeft_facadeCall (.registerCallback timeout periodic handler) s
  | unregisterCallback handle => rfl
  | registerDevice dev => exact outsideLeft_registerDevice o dev s
  | unregisterDevice dev => exact outsideLeft_unregisterDevice o dev s
  | reset => exact absurd rfl h

/-! ### The queue of callbacks -/

theorem registerCallback_queue {timeout : Rat} {periodic : Bool} {handler : Nat} {s : State} (h : 0 ≤ timeout) :
    (registerCallback timeout periodic handler s).sched.queue =
      insertDue ⟨s.sched.nextHandle, now s + timeout, timeout, periodic, handler, false⟩ s.sched.queue := by
  rw [registerCallback, if_neg (not_lt.2 h)]

theorem live_iff {handle : Nat} {s : State} :
    live handle s = true ↔ ∃ r ∈ s.sched.queue ++ s.sched.again, r.handle = handle ∧ r.cancelled = false := by
  simp only [live, List.any_eq_true, Bool.and_eq_true, beq_iff_eq, Bool.not_eq_true']

/-- Cancellation marks the records of its handle, in the queue and among those that wait (R323). -/
theorem live_unregisterCallback (k handle : Nat) (s : State) :
    live k (unregisterCallback handle s).2 =
      (s.sched.queue ++ s.sched.again).any fun r => r.handle == k && !(r.cancelled || decide (r.handle = handle)) := by
  simp only [live, unregisterCallback, cancel, ← List.map_append, List.any_map]
  congr 1
  funext r
  by_cases hr : r.handle = handle <;> simp [hr]

/-- Settles O57: an insertion splits the ordered queue; a cancellation silences its handle alone. -/
theorem callbackQueue : Obligations.CallbackQueue := by
  refine ⟨fun timeout periodic handler s ht hinv => ?_, fun handle s => ⟨live_iff, ?_, fun k hk => ?_⟩⟩
  · rw [registerCallback_queue ht]
    exact insertDue_split _ hinv.1
  · rw [live_unregisterCallback, List.any_eq_false]
    intro r _
    by_cases hr : r.handle = handle <;> simp [hr]
  · rw [live_unregisterCallback, live]
    congr 1
    funext r
    by_cases hr : r.handle = handle <;> simp [hr, hk.symm]

/-! ### The drain -/

section
variable {o : Oracle} {due : Rat} {fuel : Nat} {s : State} {head : Callback} {rest : List Callback}

theorem drainLoop_of_live (hq : s.sched.queue = head :: rest) (hdue : head.dueTime ≤ due) (hc : head.cancelled = false) :
    drainLoop o due (fuel + 1) s = drainLoop o due fuel (runHandler o head (keepAgain head (popQueue rest s))) := by
  rw [drainLoop]
  simp [hq, hdue, hc]

theorem drainLoop_of_cancelled (hq : s.sched.queue = head :: rest) (hdue : head.dueTime ≤ due)
    (hc : head.cancelled = true) : drainLoop o due (fuel + 1) s = drainLoop o due fuel (popQueue rest s) := by
  rw [drainLoop]
  simp [hq, hdue, hc]

theorem drainLoop_of_short (hq : s.sched.queue = head :: rest) (hdue : head.dueTime ≤ due) :
    drainLoop o due 0 s = none := by
  rw [drainLoop]
  simp [hq, hdue]

theorem drainLoop_of_done (h : ∀ head, s.sched.queue.head? = some head → due < head.dueTime) :
    drainLoop o due fuel s = some s := by
  rw [drainLoop]
  cases hq : s.sched.queue with
  | nil => rfl
  | cons head rest =>
    have : ¬ head.dueTime ≤ due := not_le.2 (h head (by rw [hq]; rfl))
    simp [this]

end

/-- A loop that ends has no due head, and keeps what its two turns keep. -/
theorem drainLoop_keeps {P : State → Prop} {o : Oracle} {due : Rat}
    (drop : ∀ s head rest, s.sched.queue = head :: rest → P s → P (popQueue rest s))
    (run : ∀ s head rest, s.sched.queue = head :: rest → P s → P (runHandler o head (keepAgain head (popQueue rest s))))
    {fuel : Nat} {s t : State} (hs : P s) (h : drainLoop o due fuel s = some t) :
    P t ∧ ∀ head, t.sched.queue.head? = some head → due < head.dueTime := by
  induction fuel generalizing s with
  | zero =>
    by_cases hdone : ∀ head, s.sched.queue.head? = some head → due < head.dueTime
    · rw [drainLoop_of_done hdone] at h
      cases h
      exact ⟨hs, hdone⟩
    · push Not at hdone
      obtain ⟨head, hhead, hdue⟩ := hdone
      obtain ⟨rest, hq⟩ := List.head?_eq_some_iff.1 hhead
      rw [drainLoop_of_short hq hdue] at h
      cases h
  | succ fuel ih =>
    by_cases hdone : ∀ head, s.sched.queue.head? = some head → due < head.dueTime
    · rw [drainLoop_of_done hdone] at h
      cases h
      exact ⟨hs, hdone⟩
    · push Not at hdone
      obtain ⟨head, hhead, hdue⟩ := hdone
      obtain ⟨rest, hq⟩ := List.head?_eq_some_iff.1 hhead
      cases hc : head.cancelled with
      | true =>
        rw [drainLoop_of_cancelled hq hdue hc] at h
        exact ih (drop s head rest hq hs) h
      | false =>
        rw [drainLoop_of_live hq hdue hc] at h
        exact ih (run s head rest hq hs) h

theorem sameButDevices_runHandler (o : Oracle) (head : Callback) (rest : List Callback) (s : State) :
    sameButDevices s (runHandler o head (keepAgain head (popQueue rest s))) := by
  rw [runHandler_keepAgain_popQueue, facadeCalls_eq]
  rfl

theorem drain_eq_some {o : Oracle} {fuel : Nat} {s t : State} :
    drain o fuel s = some t ↔ ∃ u, drainLoop o (now s) fuel s = some u ∧ reregister (now s) u = t :=
  Option.map_eq_some_iff

theorem sameButDevices_drainLoop {o : Oracle} {due : Rat} {fuel : Nat} {s t : State}
    (h : drainLoop o due fuel s = some t) : sameButDevices s t :=
  (drainLoop_keeps (P := sameButDevices s) (fun _ _ _ _ hs => hs.trans rfl)
    (fun _ _ _ _ hs => hs.trans (sameButDevices_runHandler ..)) (s := s) rfl h).1

/-- A drain changes the Scheduler and the counter of free values, and nothing else (R333). -/
theorem sameButDevices_drain {o : Oracle} {fuel : Nat} {s t : State} (h : drain o fuel s = some t) :
    sameButDevices s t := by
  obtain ⟨u, hu, rfl⟩ := drain_eq_some.1 h
  exact (sameButDevices_drainLoop hu).trans rfl

/-- Settles O17: the frames of the host's actions, of the drain and of the building. -/
theorem outsideLeavesRegisters : Obligations.OutsideLeavesRegisters := by
  refine ⟨fun o a s ha => ?_, fun o fuel s t h => ?_, fun acts => ?_⟩
  · rw [outsideLeft_hostAct o s ha]
    exact ⟨rfl, rfl, rfl, rfl, rfl, rfl⟩
  · rw [sameButDevices_drain h]
    exact ⟨rfl, rfl, rfl, rfl, rfl, rfl, rfl⟩
  · rw [build]
    generalize State.powerOn = s
    induction acts generalizing s with
    | nil => rfl
    | cons act rest ih =>
      have hact := buildAct_frame act s
      rw [List.foldl_cons, ih, hact]

end Sys2Proof.Machine
end

section
/-!
PROOFS. The invariant between runs and the drain (spec 49_scheduler.md R320 to R329): what the host's actions, the turns
of the drain and the re-registration keep of it, and how the drain empties the queue.
-/

namespace Sys2Proof.Machine

/-! ### The invariant of the Scheduler in a drain -/

theorem sorted_reinsert (due : Rat) (recs : List Callback) {queue : List Callback}
    (h : queue.Pairwise (fun a b => a.dueTime ≤ b.dueTime)) :
    (reinsert due recs queue).Pairwise (fun a b => a.dueTime ≤ b.dueTime) := by
  induction recs generalizing queue with
  | nil => exact h
  | cons q rest ih =>
    simp only [reinsert, List.foldl_cons]
    split
    · exact ih h
    · exact ih (sorted_insertDue _ h)

/-- Popping the head of the queue (R324). -/
theorem schedInv_pop {d : Scheduler} {head : Callback} {rest : List Callback} (hq : d.queue = head :: rest)
    (h : schedInv d) : schedInv { d with queue := rest } := by
  obtain ⟨hs, hd, hn⟩ := h
  rw [hq] at hs hd hn
  exact ⟨(List.pairwise_cons.1 hs).2, (List.pairwise_cons.1 hd).2, fun r hr => hn r (List.mem_cons_of_mem _ hr)⟩

/-- Popping the head and putting it by (R324). -/
theorem schedInv_keep {d : Scheduler} {head : Callback} {rest : List Callback} (hq : d.queue = head :: rest)
    (h : schedInv d) : schedInv { d with queue := rest, again := d.again ++ [head] } := by
  obtain ⟨hs, hd, hn⟩ := h
  rw [hq] at hs hd hn
  have hperm : (rest ++ (d.again ++ [head])).Perm (head :: rest ++ d.again) := by
    rw [← List.append_assoc]
    exact List.perm_append_comm
  exact ⟨(List.pairwise_cons.1 hs).2, (hperm.pairwise_iff fun hab => Ne.symm hab).2 hd,
    fun r hr => hn r (hperm.mem_iff.1 hr)⟩

/-- Queueing the first waiting record again, or dropping it (R327). -/
theorem schedInv_requeue {d : Scheduler} {q : Callback} {rest : List Callback} (ha : d.again = q :: rest) (due : Rat)
    (h : schedInv d) :
    schedInv { d with
      queue := if q.cancelled then d.queue else insertDue { q with dueTime := due } d.queue
      again := rest } := by
  obtain ⟨hs, hd, hn⟩ := h
  rw [ha] at hd hn
  have hperm : (d.queue ++ q :: rest).Perm (q :: (d.queue ++ rest)) := List.perm_middle
  have hd' := List.pairwise_cons.1 ((hperm.pairwise_iff fun hab => Ne.symm hab).1 hd)
  by_cases hc : q.cancelled = true
  · rw [if_pos hc]
    exact ⟨hs, hd'.2, fun r hr => hn r (hperm.mem_iff.2 (List.mem_cons_of_mem _ hr))⟩
  · rw [if_neg hc]
    have hins : (insertDue { q with dueTime := due } d.queue ++ rest).Perm
        ({ q with dueTime := due } :: (d.queue ++ rest)) :=
      (insertDue_perm _ _).append_right rest
    refine ⟨sorted_insertDue _ hs, (hins.pairwise_iff fun hab => Ne.symm hab).2 (List.pairwise_cons.2 hd'),
      fun r hr => ?_⟩
    rcases List.mem_cons.1 (hins.mem_iff.1 hr) with rfl | hr
    · exact hn q (hperm.mem_iff.2 List.mem_cons_self)
    · exact hn r (hperm.mem_iff.2 (List.mem_cons_of_mem _ hr))

/-- The end of a drain (R327). -/
theorem schedInv_reinsert (due : Rat) (recs : List Callback) {d : Scheduler} (ha : d.again = recs) (h : schedInv d) :
    schedInv { d with queue := reinsert due recs d.queue, again := [] } := by
  induction recs generalizing d with
  | nil =>
    obtain ⟨hs, hd, hn⟩ := h
    rw [ha] at hd hn
    exact ⟨hs, hd, hn⟩
  | cons q rest ih => exact ih rfl (schedInv_requeue ha (due + q.span) h)

/-! ### The invariant of the machine -/

/-- The part of the invariant that holds inside a drain too. -/
def coreUnmarked (s : State) : Prop := s.Core ∧ s.pcAltered = false

theorem inv_iff {s : State} : s.Inv ↔ coreUnmarked s ∧ s.sched.again = [] := and_assoc.symm

/-- It reads the Scheduler through `schedInv`, and no counter of free values. -/
theorem coreUnmarked.with_sched {s : State} (h : coreUnmarked s) {d : Scheduler} (n : Nat) (hd : schedInv d) :
    coreUnmarked { s with sched := d, draws := n } := by
  obtain ⟨⟨hpc, ht, hclock, hregions, hmem, -⟩, hmark⟩ := h
  exact ⟨⟨hpc, ht, hclock, hregions, hmem, hd⟩, hmark⟩

theorem coreUnmarked.schedInv {s : State} (h : coreUnmarked s) : schedInv s.sched := by
  obtain ⟨⟨-, -, -, -, -, hsched⟩, -⟩ := h
  exact hsched

theorem coreUnmarked.with_memory {s : State} (h : coreUnmarked s) {m : Memory} {regions : List Region}
    (hr : regionsInv regions) (hm : memoryInv m regions) : coreUnmarked { s with mem := m, regions := regions } := by
  obtain ⟨⟨hpc, ht, hclock, -, -, hsched⟩, hmark⟩ := h
  exact ⟨⟨hpc, ht, hclock, hr, hm, hsched⟩, hmark⟩

theorem coreUnmarked.facadeCalls {s : State} (h : coreUnmarked s) (calls : List FacadeCall) :
    coreUnmarked (facadeCalls calls s) := by
  rw [facadeCalls_eq]
  exact h.with_sched s.draws (schedInv_facadeCalls h.schedInv)

theorem inv_facadeCall {s : State} (h : s.Inv) (c : FacadeCall) : (facadeCall c s).Inv := by
  obtain ⟨hcore, hagain⟩ := inv_iff.1 h
  exact inv_iff.2 ⟨hcore.facadeCalls [c], again_facadeCall hagain⟩

/-- An action of the building keeps the invariant. -/
theorem inv_buildAct {s : State} (h : s.Inv) (act : BuildAction) : (buildAct act s).Inv := by
  obtain ⟨hcore, hagain⟩ := inv_iff.1 h
  obtain ⟨⟨-, -, -, hregions, hmem, -⟩, -⟩ := id hcore
  have hkeeps := buildAct_keeps act hregions hmem
  rw [buildAct_frame]
  exact inv_iff.2 ⟨hcore.with_memory hkeeps.1 hkeeps.2, hagain⟩

theorem inv_registrationCalls {s : State} (h : s.Inv) (calls : List RegistrationCall) :
    (registrationCalls calls s).Inv := by
  induction calls generalizing s with
  | nil => exact h
  | cons c rest ih =>
    cases c with
    | facade call => exact ih (inv_facadeCall h call)
    | map region images => exact ih (inv_buildAct h (.map region images))
    | unmap region => exact ih (inv_buildAct h (.unmap region))

theorem inv_registerDevice {s : State} (h : s.Inv) (o : Oracle) (dev : Nat) : (registerDevice o dev s).2.Inv := by
  have hcalled : (onRegisterCalled o dev s).Inv := inv_registrationCalls (s := { s with draws := s.draws + 1 }) h _
  by_cases hdev : dev ∈ s.sched.devices
  · rw [registerDevice_of_listed hdev]; exact h
  · cases haccepted : (o.onRegister s.draws s.cycles dev).accepted with
    | true => rw [registerDevice_of_accepted hdev haccepted]; exact hcalled
    | false => rw [registerDevice_of_declined hdev haccepted]; exact hcalled

theorem inv_unregisterDevice {s : State} (h : s.Inv) (o : Oracle) (dev : Nat) : (unregisterDevice o dev s).2.Inv := by
  have hcalled : (onUnregisterCalled o dev s).Inv := inv_registrationCalls (s := { s with draws := s.draws + 1 }) h _
  by_cases hdev : dev ∈ s.sched.devices
  · rw [unregisterDevice_of_listed hdev]; exact hcalled
  · rw [unregisterDevice_of_unlisted hdev]; exact h

theorem inv_hostReset {s : State} (h : s.Inv) : (hostReset s).Inv := by
  have hawake : Fit { s with halted := none } := fit_of_inv h
  exact inv_of_fit (hawake.raiseException .reset).clearMark rfl

theorem inv_hostAct {s : State} (h : s.Inv) (o : Oracle) (a : HostAction) : (hostAct o a s).Inv := by
  cases a with
  | setFiq active => exact inv_facadeCall h (.setFiq active)
  | setIrq active => exact inv_facadeCall h (.setIrq active)
  | subscribe name handler => exact h
  | registerCallback timeout periodic handler => exact inv_facadeCall h (.registerCallback timeout periodic handler)
  | unregisterCallback handle => exact inv_facadeCall h (.unregisterCallback handle)
  | registerDevice dev => exact inv_registerDevice h o dev
  | unregisterDevice dev => exact inv_unregisterDevice h o dev
  | reset => exact inv_hostReset h

/-- What a handler starts from has the Scheduler's invariant. -/
theorem schedInv_popped {d : Scheduler} {head : Callback} {rest : List Callback} (hq : d.queue = head :: rest)
    (h : schedInv d) :
    schedInv { d with queue := rest, again := if head.periodic then d.again ++ [head] else d.again } := by
  cases head.periodic with
  | true => exact schedInv_keep hq h
  | false => exact schedInv_pop hq h

theorem coreUnmarked_drainLoop {o : Oracle} {due : Rat} {fuel : Nat} {s t : State} (h : coreUnmarked s)
    (e : drainLoop o due fuel s = some t) : coreUnmarked t := by
  refine (drainLoop_keeps (P := coreUnmarked) (fun s head rest hq hs => ?_) (fun s head rest hq hs => ?_) h e).1
  · exact hs.with_sched s.draws (schedInv_pop hq hs.schedInv)
  · rw [runHandler_keepAgain_popQueue]
    exact (hs.with_sched (s.draws + 1) (schedInv_popped hq hs.schedInv)).facadeCalls _

theorem inv_drain {o : Oracle} {fuel : Nat} {s t : State} (h : s.Inv) (e : drain o fuel s = some t) : t.Inv := by
  obtain ⟨u, hu, rfl⟩ := drain_eq_some.1 e
  have hcore := coreUnmarked_drainLoop (inv_iff.1 h).1 hu
  exact inv_iff.2 ⟨hcore.with_sched u.draws (schedInv_reinsert (now s) _ rfl hcore.schedInv), rfl⟩

theorem inv_powerOn : State.powerOn.Inv :=
  ⟨⟨rfl, rfl, one_pos, regionsInv_resetRegions, memoryInv_nil _, schedInv_powerOn⟩, rfl, rfl⟩

theorem inv_build (acts : List BuildAction) : (build acts).Inv := by
  have hfold (s : State) (h : s.Inv) : (acts.foldl (fun s a => buildAct a s) s).Inv := by
    induction acts generalizing s with
    | nil => exact h
    | cons act rest ih => exact ih _ (inv_buildAct h act)
  exact hfold State.powerOn inv_powerOn

/-- Settles O16: by the host's actions, the drain and the building in turn. -/
theorem hostKeepsInvariant : Obligations.HostKeepsInvariant :=
  ⟨fun o a _ h => inv_hostAct h o a, fun _ _ _ _ h e => inv_drain h e, inv_build⟩

/-! ### The drain -/

/-- No queued record has the handle, and none will: it was given out before. -/
def handleSpent (h : Nat) (d : Scheduler) : Prop := (∀ r ∈ d.queue, r.handle ≠ h) ∧ h < d.nextHandle

/-- A handler does not put a popped record back (R323). -/
theorem handleSpent_facadeCall {h : Nat} {s : State} (c : FacadeCall) (hs : handleSpent h s.sched) :
    handleSpent h (facadeCall c s).sched := by
  obtain ⟨hne, hlt⟩ := hs
  cases c with
  | registerCallback timeout periodic handler =>
    simp only [facadeCall, registerCallback]
    split
    · exact ⟨hne, hlt⟩
    · refine ⟨fun r hr => ?_, Nat.lt_succ_of_lt hlt⟩
      rcases mem_insertDue.1 hr with rfl | hr
      · exact Nat.ne_of_gt hlt
      · exact hne r hr
  | unregisterCallback handle =>
    refine ⟨fun r hr => ?_, hlt⟩
    have hhandles : r.handle ∈ (cancel handle s.sched.queue).map (·.handle) := List.mem_map_of_mem hr
    rw [cancel_handle] at hhandles
    obtain ⟨q, hq, hrq⟩ := List.mem_map.1 hhandles
    exact hrq ▸ hne q hq
  | setFiq active => exact ⟨hne, hlt⟩
  | setIrq active => exact ⟨hne, hlt⟩
  | raiseEvent name sender args => exact ⟨hne, hlt⟩

theorem handleSpent_facadeCalls {h : Nat} {s : State} (calls : List FacadeCall) (hs : handleSpent h s.sched) :
    handleSpent h (facadeCalls calls s).sched := by
  induction calls generalizing s with
  | nil => exact hs
  | cons c rest ih => exact ih (handleSpent_facadeCall c hs)

/-- A popped record's handle is spent. -/
theorem handleSpent_of_head {d : Scheduler} {head : Callback} {rest : List Callback} (hq : d.queue = head :: rest)
    (h : schedInv d) (again : List Callback) : handleSpent head.handle { d with queue := rest, again := again } := by
  obtain ⟨-, hd, hn⟩ := h
  rw [hq] at hd hn
  exact ⟨fun r hr => ((List.pairwise_cons.1 hd).1 r (List.mem_append_left _ hr)).symm, hn head List.mem_cons_self⟩

/-- In an ordered queue whose head is in the future, every record is. -/
theorem due_lt_of_head {queue : List Callback} {due : Rat} (hs : queue.Pairwise (fun a b => a.dueTime ≤ b.dueTime))
    (h : ∀ head, queue.head? = some head → due < head.dueTime) : ∀ r ∈ queue, due < r.dueTime := by
  cases queue with
  | nil => exact nofun
  | cons head rest =>
    intro r hr
    have hhead := h head rfl
    rcases List.mem_cons.1 hr with rfl | hr
    · exact hhead
    · exact lt_of_lt_of_le hhead ((List.pairwise_cons.1 hs).1 r hr)

theorem schedInv_drainLoop {o : Oracle} {due : Rat} {fuel : Nat} {s t : State} (h : schedInv s.sched)
    (e : drainLoop o due fuel s = some t) :
    schedInv t.sched ∧ ∀ head, t.sched.queue.head? = some head → due < head.dueTime := by
  refine drainLoop_keeps (P := fun s => schedInv s.sched) (fun s head rest hq hs => schedInv_pop hq hs)
    (fun s head rest hq hs => ?_) h e
  rw [runHandler_keepAgain_popQueue]
  exact schedInv_facadeCalls (schedInv_popped hq hs)

theorem reinsert_snoc (due : Rat) (waiting : List Callback) (q : Callback) (queue : List Callback) :
    reinsert due (waiting ++ [q]) queue =
      if q.cancelled then reinsert due waiting queue
      else insertDue { q with dueTime := due + q.span } (reinsert due waiting queue) := by
  simp only [reinsert, List.foldl_append, List.foldl_cons, List.foldl_nil]

/-- Facade calls that register nothing leave the queue's length. -/
theorem facadeCalls_queue_length {calls : List FacadeCall} (s : State)
    (h : ∀ c ∈ calls, ∀ timeout periodic handler, c ≠ .registerCallback timeout periodic handler) :
    (facadeCalls calls s).sched.queue.length = s.sched.queue.length := by
  induction calls generalizing s with
  | nil => rfl
  | cons c rest ih =>
    refine (ih (facadeCall c s) fun d hd => h d (List.mem_cons_of_mem _ hd)).trans ?_
    cases c with
    | registerCallback timeout periodic handler => exact absurd rfl (h _ List.mem_cons_self timeout periodic handler)
    | unregisterCallback handle => exact List.length_map _
    | setFiq active => rfl
    | setIrq active => rfl
    | raiseEvent name sender args => rfl

/-- Handlers that register nothing leave a queue that every turn shortens (R411). -/
theorem drainLoop_ends {o : Oracle} {due : Rat}
    (h : ∀ draw cycles handler, ∀ call ∈ o.callback draw cycles handler, ∀ timeout periodic k,
      call ≠ .registerCallback timeout periodic k)
    {fuel : Nat} {s : State} (hfuel : s.sched.queue.length ≤ fuel) : ∃ t, drainLoop o due fuel s = some t := by
  induction fuel generalizing s with
  | zero =>
    have hq : s.sched.queue = [] := List.length_eq_zero_iff.1 (Nat.le_zero.1 hfuel)
    exact ⟨s, drainLoop_of_done (by simp [hq])⟩
  | succ fuel ih =>
    by_cases hdone : ∀ head, s.sched.queue.head? = some head → due < head.dueTime
    · exact ⟨s, drainLoop_of_done hdone⟩
    · push Not at hdone
      obtain ⟨head, hhead, hdue⟩ := hdone
      obtain ⟨rest, hq⟩ := List.head?_eq_some_iff.1 hhead
      have hrest : rest.length ≤ fuel := by simpa [hq] using hfuel
      cases hc : head.cancelled with
      | true => rw [drainLoop_of_cancelled hq hdue hc]; exact ih hrest
      | false =>
        rw [drainLoop_of_live hq hdue hc, runHandler_keepAgain_popQueue]
        exact ih ((facadeCalls_queue_length _ (h _ _ _)).trans_le hrest)

/-- Settles O58: the two turns of the loop and its end; then the re-registration by its last record. -/
theorem drainEmptiesTheDuePrefix : Obligations.DrainEmptiesTheDuePrefix := by
  refine ⟨fun o due fuel s hinv => ⟨fun head rest hq hdue => ?turn, drainLoop_of_done, fun t ht => ?future⟩,
    fun o fuel s t h => ?ends, fun due s waiting q hinv hagain => ?last, fun due s => ⟨rfl, fun hagain => ?none⟩,
    fun o fuel s hcalls hfuel => ?terminates⟩
  case turn =>
    refine ⟨?_, fun hc => ?_, fun hc => drainLoop_of_cancelled hq hdue hc⟩
    · have hs := hinv.1
      rw [hq] at hs
      exact (List.pairwise_cons.1 hs).1
    · refine ⟨?_, facadeCalls_again_handles .., ?_⟩
      · rw [drainLoop_of_live hq hdue hc, runHandler_keepAgain_popQueue]
      · exact (handleSpent_facadeCalls _ (handleSpent_of_head hq hinv _)).1
  case future =>
    obtain ⟨⟨hs, -⟩, hhead⟩ := schedInv_drainLoop hinv ht
    exact due_lt_of_head hs hhead
  case ends =>
    obtain ⟨u, hu, rfl⟩ := drain_eq_some.1 h
    refine ⟨u, hu, rfl, ?_⟩
    rw [sameButDevices_drain h]
    rfl
  case last =>
    have hsnoc : (reregister due s).sched.queue = reinsert due (waiting ++ [q]) s.sched.queue := by
      rw [← hagain]; rfl
    rw [hsnoc, reinsert_snoc]
    refine ⟨fun hc => if_pos hc, fun hc => ?_⟩
    rw [if_neg (by simp [hc])]
    exact insertDue_split _ (sorted_reinsert due waiting hinv.1)
  case none =>
    rw [reregister, hagain]
    rfl
  case terminates =>
    obtain ⟨u, hu⟩ := drainLoop_ends (due := now s) hcalls hfuel
    exact ⟨_, drain_eq_some.2 ⟨u, hu, rfl⟩⟩

end Sys2Proof.Machine
end

section
/-!
PROOFS. What a step can answer (spec 60_exceptions.md R375), and the runs (40_execution_cycle.md R149 to R153,
49_scheduler.md R331): no instruction is refused; the table of Regions outlives every run; how a run ends.
-/

namespace Sys2Proof.Machine

/-! ### No instruction is refused -/

/-- A result that is a next state or a fatal error. -/
def answers (r : Result) : Prop := (∃ t, r = .next t) ∨ ∃ kind left, r = .fault (.fatal kind left)

theorem answers_next (s : State) : answers (.next s) := .inl ⟨s, rfl⟩

theorem answers_fatal (kind : Fatal) (s : State) : answers (fatal kind s) := .inr ⟨kind, _, rfl⟩

theorem answers_ite {p : Prop} [Decidable p] {r q : Result} (hr : answers r) (hq : answers q) :
    answers (if p then r else q) := by
  split
  · exact hr
  · exact hq

theorem answers.thenDo {r : Result} {k : State → Result} (hr : answers r) (hk : ∀ u, answers (k u)) :
    answers (thenDo r k) := by
  rcases hr with ⟨t, rfl⟩ | ⟨kind, left, rfl⟩
  · exact hk t
  · exact .inr ⟨kind, left, rfl⟩

theorem answers_guarded {c : Cond} {s : State} {body : State → Result} (h : answers (body s)) :
    answers (guarded c s body) := answers_ite h (answers_next s)

theorem answers_writePc (v : Word) (s : State) : answers (writePc v s) := answers_ite (answers_next _) (answers_fatal ..)

theorem answers_setReg (r : Reg) (v : Word) (s : State) : answers (setReg r v s) :=
  answers_ite (answers_writePc v s) (answers_next _)

theorem answers_loadCpsr (w : Word) (s : State) : answers (loadCpsr w s) := by
  refine answers_ite (answers_fatal ..) ?_
  split
  · exact answers_fatal ..
  · exact answers_next _

theorem answers_restoreCpsr (s : State) : answers (restoreCpsr s) := answers_loadCpsr ..

theorem answers_writeAlu (sf : Bool) (rd : Reg) (r : Alu) (s : State) : answers (writeAlu sf rd r s) :=
  answers_ite (answers_ite ((answers_restoreCpsr s).thenDo fun u => answers_writePc _ u) (answers_writePc ..))
    (answers_next _)

theorem answers_moveFromStatus (r : Bool) (rd : Reg) (s : State) : answers (moveFromStatus r rd s) :=
  answers_ite (answers_setReg ..) (answers_setReg ..)

theorem answers_moveToStatus (r : Bool) (fields : BitVec 4) (operand : Word) (s : State) :
    answers (moveToStatus r fields operand s) := by
  refine answers_ite ?_ (answers_loadCpsr ..)
  split
  · exact answers_next _
  · exact answers_next _

theorem answers_writeShort (sf : Bool) (rd rs rm : Reg) (v : Word) (s : State) : answers (writeShort sf rd rs rm v s) :=
  answers_ite ((answers_setReg ..).thenDo fun _ => answers_next _) (answers_setReg ..)

theorem answers_writeLong (sf : Bool) (rdHi rdLo rs rm : Reg) (v : BitVec 64) (s : State) :
    answers (writeLong sf rdHi rdLo rs rm v s) := by
  have hboth (u : State) : answers (thenDo (setReg rdLo (fld 0 32 v) u) (setReg rdHi (fld 32 32 v))) :=
    (answers_setReg ..).thenDo fun t => answers_setReg _ _ t
  exact answers_ite ((hboth _).thenDo fun _ => answers_next _) (hboth _)

theorem answers_blockBase (w : Bool) (rn : Reg) (v : Word) (s : State) : answers (blockBase w rn v s) :=
  answers_ite (answers_setReg ..) (answers_next _)

theorem answers_loadTransfer (w : Width) (f : Word → Word → Word) (rd rn : Reg) (x : Access) (s : State) :
    answers (loadTransfer w f rd rn x s) := by
  unfold loadTransfer
  split
  · exact answers_next _
  · exact (answers_blockBase x.wb rn x.target _).thenDo fun u => answers_setReg _ _ u

theorem answers_storeTransfer (w : Width) (v : Word) (rn : Reg) (x : Access) (s : State) :
    answers (storeTransfer w v rn x s) := by
  unfold storeTransfer
  split
  · exact answers_next _
  · exact answers_blockBase x.wb rn x.target _

theorem answers_swapTransfer (w : Width) (f : Word → Word → Word) (rn rd rm : Reg) (s : State) :
    answers (swapTransfer w f rn rd rm s) := by
  simp only [swapTransfer]
  split
  · exact answers_next _
  · split
    · exact answers_next _
    · exact answers_setReg ..

theorem answers_finishLoad (sBit w : Bool) (rn : Reg) (list : BitVec 16) (wbval : Word) (vs : List Word) (s : State) :
    answers (finishLoad sBit w rn list wbval vs s) :=
  (answers_blockBase w rn wbval s).thenDo fun _ =>
    answers_ite
      (answers_ite ((answers_restoreCpsr _).thenDo fun u => answers_writePc _ u) (answers_writePc ..))
      (answers_next _)

theorem answers_ldm (c : Cond) (p u sBit w : Bool) (rn : Reg) (list : BitVec 16) (s : State) :
    answers (exec (.ldm c p u sBit w rn list) s) := by
  rw [exec_ldm]
  refine answers_guarded ?_
  dsimp only
  split
  · exact answers_next _
  · exact answers_finishLoad ..

theorem answers_stm (c : Cond) (p u sBit w : Bool) (rn : Reg) (list : BitVec 16) (s : State) :
    answers (exec (.stm c p u sBit w rn list) s) := by
  rw [exec_stm]
  refine answers_guarded ?_
  dsimp only
  split
  · exact answers_next _
  · exact answers_blockBase ..

/-- Settles O20: each meaning ends in operations that answer so. -/
theorem noInstructionIsRefused : Obligations.NoInstructionIsRefused := by
  intro i s
  change answers (exec i s)
  cases i
  case and => rw [exec_and]; exact answers_guarded (answers_writeAlu ..)
  case eor => rw [exec_eor]; exact answers_guarded (answers_writeAlu ..)
  case sub => rw [exec_sub]; exact answers_guarded (answers_writeAlu ..)
  case rsb => rw [exec_rsb]; exact answers_guarded (answers_writeAlu ..)
  case add => rw [exec_add]; exact answers_guarded (answers_writeAlu ..)
  case adc => rw [exec_adc]; exact answers_guarded (answers_writeAlu ..)
  case sbc => rw [exec_sbc]; exact answers_guarded (answers_writeAlu ..)
  case rsc => rw [exec_rsc]; exact answers_guarded (answers_writeAlu ..)
  case orr => rw [exec_orr]; exact answers_guarded (answers_writeAlu ..)
  case mov => rw [exec_mov]; exact answers_guarded (answers_writeAlu ..)
  case bic => rw [exec_bic]; exact answers_guarded (answers_writeAlu ..)
  case mvn => rw [exec_mvn]; exact answers_guarded (answers_writeAlu ..)
  case tst => rw [exec_tst]; exact answers_guarded (answers_next _)
  case teq => rw [exec_teq]; exact answers_guarded (answers_next _)
  case cmp => rw [exec_cmp]; exact answers_guarded (answers_next _)
  case cmn => rw [exec_cmn]; exact answers_guarded (answers_next _)
  case undefined => rw [exec_undefined]; exact answers_guarded (answers_next _)
  case swi => rw [exec_swi]; exact answers_guarded (answers_next _)
  case cdp => rw [exec_cdp]; exact answers_guarded (answers_next _)
  case ldc => rw [exec_ldc]; exact answers_guarded (answers_next _)
  case stc => rw [exec_stc]; exact answers_guarded (answers_next _)
  case mrc => rw [exec_mrc]; exact answers_guarded (answers_next _)
  case mcr => rw [exec_mcr]; exact answers_guarded (answers_next _)
  case halfwordL0Sh2 => rw [exec_halfwordL0Sh2]; exact answers_guarded (answers_next _)
  case halfwordL0Sh3 => rw [exec_halfwordL0Sh3]; exact answers_guarded (answers_next _)
  case mrs => rw [exec_mrs]; exact answers_guarded (answers_moveFromStatus ..)
  case mrsI => rw [exec_mrsI]; exact answers_guarded (answers_moveFromStatus ..)
  case msr => rw [exec_msr]; exact answers_guarded (answers_moveToStatus ..)
  case msrI => rw [exec_msrI]; exact answers_guarded (answers_moveToStatus ..)
  case mul => rw [exec_mul]; exact answers_guarded (answers_writeShort ..)
  case mla => rw [exec_mla]; exact answers_guarded (answers_writeShort ..)
  case umull => rw [exec_umull]; exact answers_guarded (answers_writeLong ..)
  case umlal => rw [exec_umlal]; exact answers_guarded (answers_writeLong ..)
  case smull => rw [exec_smull]; exact answers_guarded (answers_writeLong ..)
  case smlal => rw [exec_smlal]; exact answers_guarded (answers_writeLong ..)
  case ldr => rw [exec_ldr]; exact answers_guarded (answers_loadTransfer ..)
  case ldrb => rw [exec_ldrb]; exact answers_guarded (answers_loadTransfer ..)
  case ldrt => rw [exec_ldrt]; exact answers_guarded (answers_loadTransfer ..)
  case ldrbt => rw [exec_ldrbt]; exact answers_guarded (answers_loadTransfer ..)
  case ldrh => rw [exec_ldrh]; exact answers_guarded (answers_loadTransfer ..)
  case ldrsb => rw [exec_ldrsb]; exact answers_guarded (answers_loadTransfer ..)
  case ldrsh => rw [exec_ldrsh]; exact answers_guarded (answers_loadTransfer ..)
  case str => rw [exec_str]; exact answers_guarded (answers_storeTransfer ..)
  case strb => rw [exec_strb]; exact answers_guarded (answers_storeTransfer ..)
  case strt => rw [exec_strt]; exact answers_guarded (answers_storeTransfer ..)
  case strbt => rw [exec_strbt]; exact answers_guarded (answers_storeTransfer ..)
  case strh => rw [exec_strh]; exact answers_guarded (answers_storeTransfer ..)
  case swp => rw [exec_swp]; exact answers_guarded (answers_swapTransfer ..)
  case swpb => rw [exec_swpb]; exact answers_guarded (answers_swapTransfer ..)
  case b => rw [exec_b]; exact answers_guarded (answers_writePc ..)
  case bl => rw [exec_bl]; exact answers_guarded ((answers_setReg ..).thenDo fun u => answers_writePc _ u)
  case bx => rw [exec_bx]; exact answers_guarded (answers_ite (answers_fatal ..) (answers_writePc ..))
  case ldm => exact answers_ldm ..
  case stm => exact answers_stm ..

/-! ### What a step can answer -/

theorem step_of_halted {s : State} {kind : Fatal} (h : s.halted = some kind) : step s = .fault (.halted kind) := by
  simp only [step, h]

/-- A machine that is not halted has a step, to a next state or to a fatal error. -/
theorem answers_step {s : State} (h : s.halted = none) : answers (step s) := by
  have hcpu : answers (cpuStep s) := by
    unfold cpuStep
    split
    · exact answers_next _
    · exact answers.thenDo (noInstructionIsRefused _ _) fun u => answers_next _
  simp only [step, h]
  exact hcpu.thenDo fun u => answers_next _

/-! ### The loop of `Cpu.Run` -/

section
variable {n : Nat} {left : Int} {s t : State}

theorem cpuLoop_of_spent (h : left ≤ 0) : cpuLoop n left s = .done left s := by
  cases n with
  | zero => rfl
  | succ n => rw [cpuLoop, if_neg (by omega)]

theorem cpuLoop_of_next (h : 0 < left) (hstep : step s = .next t) :
    cpuLoop (n + 1) left s = cpuLoop n (left - ((t.cycles : Int) - s.cycles)) t := by
  rw [cpuLoop, if_pos h]
  simp only [hstep]

theorem cpuLoop_of_fatal {kind : Fatal} {out : Outside} (h : 0 < left) (hstep : step s = .fault (.fatal kind out)) :
    cpuLoop (n + 1) left s = .halted (haltState kind out s) := by
  rw [cpuLoop, if_pos h]
  simp only [hstep]

theorem cpuLoop_of_halted {kind : Fatal} (h : 0 < left) (hs : s.halted = some kind) :
    cpuLoop (n + 1) left s = .halted s := by
  rw [cpuLoop, if_pos h]
  simp only [step_of_halted hs]

end

/-- The state in which a run ends. -/
def RunResult.state : RunResult → State
  | .done _ s => s
  | .halted s => s

/-- A loop with turns left runs one step, or ends where it is or in `haltState`. -/
theorem cpuLoop_cases (n : Nat) (left : Int) (s : State) :
    (left ≤ 0 ∧ cpuLoop (n + 1) left s = .done left s) ∨
    (0 < left ∧ ∃ t, step s = .next t ∧ cpuLoop (n + 1) left s = cpuLoop n (left - ((t.cycles : Int) - s.cycles)) t) ∨
    (∃ kind out, cpuLoop (n + 1) left s = .halted (haltState kind out s)) ∨
    ∃ kind, s.halted = some kind ∧ cpuLoop (n + 1) left s = .halted s := by
  by_cases h : 0 < left
  · cases hs : s.halted with
    | some kind => exact .inr (.inr (.inr ⟨kind, rfl, cpuLoop_of_halted h hs⟩))
    | none =>
      rcases answers_step hs with ⟨t, ht⟩ | ⟨kind, out, ht⟩
      · exact .inr (.inl ⟨h, t, ht, cpuLoop_of_next h ht⟩)
      · exact .inr (.inr (.inl ⟨kind, out, cpuLoop_of_fatal h ht⟩))
  · exact .inl ⟨not_lt.1 h, cpuLoop_of_spent (not_lt.1 h)⟩

/-- No run changes the table of Regions (R85). -/
theorem cpuLoop_regions (n : Nat) (left : Int) (s : State) : (cpuLoop n left s).state.regions = s.regions := by
  induction n generalizing left s with
  | zero => rfl
  | succ n ih =>
    rcases cpuLoop_cases n left s with ⟨-, e⟩ | ⟨-, t, ht, e⟩ | ⟨kind, out, e⟩ | ⟨kind, -, e⟩ <;> rw [e]
    · rfl
    · rw [ih, step_regions ht]
    · rfl
    · rfl

/-- A run that is not halted used its budget up, turn by turn (R149, R151). -/
theorem cpuLoop_done {n : Nat} {left rem : Int} {s t : State} (hn : left.toNat ≤ n)
    (h : cpuLoop n left s = .done rem t) :
    rem ≤ 0 ∧ rem = left - ((t.cycles : Int) - s.cycles) ∧ s.cycles ≤ t.cycles := by
  induction n generalizing left s with
  | zero =>
    cases h
    omega
  | succ n ih =>
    rcases cpuLoop_cases n left s with ⟨hle, e⟩ | ⟨hlt, u, hu, e⟩ | ⟨kind, out, e⟩ | ⟨kind, -, e⟩ <;> rw [e] at h
    · cases h
      omega
    · have hcost := step_cycles_lt hu
      have hrest := ih (by omega) h
      omega
    · cases h
    · cases h

/-- A run that is halted ends in a halted machine (R153). -/
theorem cpuLoop_halted {n : Nat} {left : Int} {s t : State} (h : cpuLoop n left s = .halted t) :
    ∃ kind, t.halted = some kind := by
  induction n generalizing left s with
  | zero => cases h
  | succ n ih =>
    rcases cpuLoop_cases n left s with ⟨-, e⟩ | ⟨-, u, -, e⟩ | ⟨kind, out, e⟩ | ⟨kind, hs, e⟩ <;> rw [e] at h
    · cases h
    · exact ih h
    · cases h
      exact ⟨kind, rfl⟩
    · cases h
      exact ⟨kind, hs⟩

/-- A run with a positive budget has a first turn. -/
theorem cpuRun_eq_cpuLoop_succ {budget : Int} (h : 0 < budget) (s : State) :
    ∃ n, n + 1 = budget.toNat ∧ cpuRun budget s = cpuLoop (n + 1) budget s := by
  refine ⟨budget.toNat - 1, by omega, ?_⟩
  rw [cpuRun, Nat.sub_add_cancel (by omega)]

theorem vmRun_of_halted {o : Oracle} {fuel : Nat} {budget : Int} {s t : State} (h : cpuRun budget s = .halted t) :
    vmRun o fuel budget s = some (.halted t) := by simp only [vmRun, h]

theorem vmRun_of_done {o : Oracle} {fuel : Nat} {budget left : Int} {s t : State} (h : cpuRun budget s = .done left t) :
    vmRun o fuel budget s = (drain o fuel t).map (RunResult.done left) := by simp only [vmRun, h]

/-- Settles O59: the leftover by induction on the turns, the rest by the equation of the first turn. -/
theorem cpuRunLeftover : Obligations.CpuRunLeftover := by
  refine ⟨fun budget s => ⟨fun h => cpuLoop_of_spent h, fun h left t hdone => ?leftover⟩,
    fun budget s t h hstep => ?next,
    fun budget s h kind hs => ?halted, fun budget s h kind out hstep => ?fatal, fun o fuel budget s =>
      ⟨fun t ht => ?vmHalted, fun left t ht => vmRun_of_done ht⟩⟩
  case leftover =>
    obtain ⟨hle, hleft, hcycles⟩ := cpuLoop_done le_rfl hdone
    exact ⟨hle, hleft, by omega⟩
  case next =>
    obtain ⟨n, hn, e⟩ := cpuRun_eq_cpuLoop_succ h s
    have hcost := step_cycles_lt hstep
    rw [e, cpuLoop_of_next h hstep, cpuRun]
    exact cpuLoop_turns (fun _ _ => step_cycles_lt) (by omega) le_rfl
  case halted =>
    obtain ⟨n, -, e⟩ := cpuRun_eq_cpuLoop_succ h s
    rw [e, cpuLoop_of_halted h hs]
  case fatal =>
    obtain ⟨n, -, e⟩ := cpuRun_eq_cpuLoop_succ h s
    exact ⟨_, e.trans (cpuLoop_of_fatal h hstep), rfl, rfl⟩
  case vmHalted =>
    obtain ⟨kind, hkind⟩ := cpuLoop_halted ht
    exact ⟨⟨kind, hkind, step_of_halted hkind⟩, vmRun_of_halted ht⟩

/-! ### The table of Regions -/

theorem hostAct_of_no_table (o : Oracle) {a : HostAction} (s : State) (h : a.mayChangeTable = false) :
    (hostAct o a s).regions = s.regions ∧ (hostAct o a s).mem = s.mem := by
  cases a with
  | registerCallback timeout periodic handler =>
    exact ⟨registerCallback_regions timeout periodic handler s, registerCallback_mem timeout periodic handler s⟩
  | registerDevice dev => cases h
  | unregisterDevice dev => cases h
  | _ => exact ⟨rfl, rfl⟩

/-- Settles O18: by the frames of instructions, steps, host actions, runs and drains. -/
theorem instructionsReachNoTable : Obligations.InstructionsReachNoTable := by
  refine ⟨⟨fun i s t => exec_regions, fun s t => step_regions⟩, fun i s t hi e => ?mem,
    fun o a s => hostAct_of_no_table o s,
    fun o fuel budget s t => ?run⟩
  case mem =>
    obtain ⟨-, -, -, -, -, hmem⟩ := exec_frame e
    exact hmem hi
  case run =>
    have hrun : (cpuRun budget s).state.regions = s.regions := cpuLoop_regions ..
    cases hcpu : cpuRun budget s with
    | halted u =>
      rw [vmRun_of_halted hcpu]
      rw [hcpu] at hrun
      exact ⟨nofun, fun h => by cases h; exact hrun⟩
    | done rem u =>
      rw [vmRun_of_done hcpu]
      rw [hcpu] at hrun
      refine ⟨fun left h => ?_, fun h => ?_⟩
      · obtain ⟨v, hv, e⟩ := Option.map_eq_some_iff.1 h
        cases e
        rw [sameButDevices_drain hv]
        exact hrun
      · obtain ⟨v, -, e⟩ := Option.map_eq_some_iff.1 h
        cases e

end Sys2Proof.Machine
end
